-- ==== Sys2Proof/Word.lean ====
section
/-! DEFINITION. The word types: a byte (00_scope.md R9) and the 16-bit word of the checksum and the
counters (R7). -/

namespace Sys2Proof

/-- "A *byte* is an unsigned integer 0 to 255"; bit 0 is the least significant (R9). -/
abbrev Byte := BitVec 8

/-- The 16-bit unsigned word of the checksum and of the transfer counters (R7). -/
abbrev Word := BitVec 16

end Sys2Proof
end

