-- ==== Sys2Proof/Syntax.lean ====
section
/-! DEFINITION. The command set: one constructor per row of spec/opcode_table.json (30_encoding.md R96),
in the table's order, and each command's mnemonic as the table spells it. -/

namespace Sys2Proof

/-- The 18 commands of 30_encoding.md R96. `BIT` and `WBIT` carry their immediates (R93); every other
operand is implicit (R94). -/
inductive Instr
  | nop
  | clr
  | bit (i : Nat)
  | wbit (i : Nat) (v : Bool)
  | nyb
  | bfn
  | tos
  | frs
  | exp
  | col
  | ckc
  | ckv
  | ckt
  | cka
  | spl
  | phd
  | str
  | att
  deriving DecidableEq, Repr

/-- The table's mnemonic of each command (R96). -/
def Instr.mnemonic : Instr → String
  | .nop => "NOP"
  | .clr => "CLR"
  | .bit _ => "BIT"
  | .wbit _ _ => "WBIT"
  | .nyb => "NYB"
  | .bfn => "BFN"
  | .tos => "TOS"
  | .frs => "FRS"
  | .exp => "EXP"
  | .col => "COL"
  | .ckc => "CKC"
  | .ckv => "CKV"
  | .ckt => "CKT"
  | .cka => "CKA"
  | .spl => "SPL"
  | .phd => "PHD"
  | .str => "STR"
  | .att => "ATT"

/-- The kind column of R96: `true` for a stream command, which consumes input tokens; `false` for an
immediate command, which completes in the accepting step. -/
def Instr.isStream : Instr → Bool
  | .nop => false
  | .clr => false
  | .bit _ => false
  | .wbit _ _ => false
  | .nyb => false
  | .bfn => false
  | .tos => false
  | .frs => false
  | .exp => true
  | .col => true
  | .ckc => true
  | .ckv => true
  | .ckt => true
  | .cka => true
  | .spl => true
  | .phd => true
  | .str => true
  | .att => true

end Sys2Proof
end

