-- ==== Sys2Proof/WellFormed.lean ====
section
/-! DEFINITION. Which command terms have an encoding: the bit index of format I is "an unsigned 3-bit
value 0 to 7" (30_encoding.md R93). Every other command is one fixed byte. -/

namespace Sys2Proof

/-- A command term is well formed when its bit index, if it has one, is 0 to 7 (R93). -/
def Instr.wf : Instr → Bool
  | .bit i => decide (i < 8)
  | .wbit i _ => decide (i < 8)
  | .nop => true
  | .clr => true
  | .nyb => true
  | .bfn => true
  | .tos => true
  | .frs => true
  | .exp => true
  | .col => true
  | .ckc => true
  | .ckv => true
  | .ckt => true
  | .cka => true
  | .spl => true
  | .phd => true
  | .str => true
  | .att => true

end Sys2Proof
end

