-- ==== Sys2Proof/Decode.lean ====
section
/-! DEFINITION. The command byte: a decoder total on all 256 bytes (30_encoding.md R90 to R98) and, after
it, the encoder written from the same table (R96). -/

namespace Sys2Proof

/-- What a command byte stands for: "the row of rule R96 whose pattern matches `c`, or `reserved`"
(R98). -/
inductive Decoded
  | command (i : Instr)
  | reserved
  deriving DecidableEq, Repr

/-- The command of a decoded byte, if there is one. -/
def Decoded.toOption : Decoded → Option Instr
  | .command i => some i
  | .reserved => none

/-- The major opcode `c[7:4]` (R90). -/
def majorOpcode (c : Byte) : Nat := c.toNat / 16

/-- The function field `f = c[3:0]` of format F (R91). -/
def functionField (c : Byte) : Nat := c.toNat % 16

/-- The bit index `i = c[2:0]` of format I (R93). -/
def bitIndexField (c : Byte) : Nat := c.toNat % 8

/-- The bit value `v = c[3]` of format I (R93). -/
def bitValueField (c : Byte) : Bool := c.getLsbD 3

/-- The control group, major opcode 0x0 (R92, R96). -/
def decodeControl : Nat → Decoded
  | 0 => .command .nop
  | 1 => .command .clr
  | _ => .reserved

/-- The nybble and sign utilities, major opcode 0x3 (R92, R96). -/
def decodeNybble : Nat → Decoded
  | 0 => .command .nyb
  | 1 => .command .bfn
  | 2 => .command .tos
  | 3 => .command .frs
  | _ => .reserved

/-- The transcoder group, major opcode 0x4 (R92, R96). -/
def decodeTranscoder : Nat → Decoded
  | 0 => .command .exp
  | 1 => .command .col
  | _ => .reserved

/-- The checksum group, major opcode 0x5 (R92, R96). -/
def decodeChecksum : Nat → Decoded
  | 0 => .command .ckc
  | 1 => .command .ckv
  | 2 => .command .ckt
  | 3 => .command .cka
  | _ => .reserved

/-- The framer group, major opcode 0x6 (R92, R96). -/
def decodeFramer : Nat → Decoded
  | 0 => .command .spl
  | 1 => .command .phd
  | 2 => .command .str
  | 3 => .command .att
  | _ => .reserved

/-- The decoder, total on all 256 bytes (R98). For `BIT` the bit `c[3]` must be 0 (R93); major opcodes
0x7 to 0xF are reserved in all their bytes (R92). -/
def decode (c : Byte) : Decoded :=
  match majorOpcode c with
  | 0 => decodeControl (functionField c)
  | 1 => if bitValueField c then .reserved else .command (.bit (bitIndexField c))
  | 2 => .command (.wbit (bitIndexField c) (bitValueField c))
  | 3 => decodeNybble (functionField c)
  | 4 => decodeTranscoder (functionField c)
  | 5 => decodeChecksum (functionField c)
  | 6 => decodeFramer (functionField c)
  | _ => .reserved

/-- The command byte of each command, from the byte and pattern columns of R96. The bit index fills the
three bits `c[2:0]`; an index of 8 or more has no encoding (R93) and is cut to them (log 8). -/
def encode : Instr → Byte
  | .nop => 0x00
  | .clr => 0x01
  | .bit i => 0b00010#5 ++ BitVec.ofNat 3 i
  | .wbit i v => 0b0010#4 ++ (BitVec.ofBool v ++ BitVec.ofNat 3 i)
  | .nyb => 0x30
  | .bfn => 0x31
  | .tos => 0x32
  | .frs => 0x33
  | .exp => 0x40
  | .col => 0x41
  | .ckc => 0x50
  | .ckv => 0x51
  | .ckt => 0x52
  | .cka => 0x53
  | .spl => 0x60
  | .phd => 0x61
  | .str => 0x62
  | .att => 0x63

/-- One row of spec/opcode_table.json: a byte `c` matches it when `c &&& mask = pattern`. -/
structure OpRow where
  mnemonic : String
  pattern  : Byte
  mask     : Byte
  deriving DecidableEq, Repr

/-- The 18 rows of spec/opcode_table.json, in its order, with its columns `match` and `mask` (R96). -/
def opcodeRows : List OpRow :=
  [⟨"NOP", 0x00, 0xFF⟩, ⟨"CLR", 0x01, 0xFF⟩, ⟨"BIT", 0x10, 0xF8⟩, ⟨"WBIT", 0x20, 0xF0⟩,
    ⟨"NYB", 0x30, 0xFF⟩, ⟨"BFN", 0x31, 0xFF⟩, ⟨"TOS", 0x32, 0xFF⟩, ⟨"FRS", 0x33, 0xFF⟩,
    ⟨"EXP", 0x40, 0xFF⟩, ⟨"COL", 0x41, 0xFF⟩, ⟨"CKC", 0x50, 0xFF⟩, ⟨"CKV", 0x51, 0xFF⟩,
    ⟨"CKT", 0x52, 0xFF⟩, ⟨"CKA", 0x53, 0xFF⟩, ⟨"SPL", 0x60, 0xFF⟩, ⟨"PHD", 0x61, 0xFF⟩,
    ⟨"STR", 0x62, 0xFF⟩, ⟨"ATT", 0x63, 0xFF⟩]

/-- The rows of the table whose pattern matches a byte (R98). -/
def rowsMatching (c : Byte) : List OpRow := opcodeRows.filter fun r => c &&& r.mask == r.pattern

/-- The command the decoder reads from a word of the opcode table. Every command is exactly one byte
(R90), so only a word of 8 bits is one. -/
def decodeTableWord (nbits w : Nat) : Option Instr :=
  if nbits = 8 ∧ w < 256 then (decode (BitVec.ofNat 8 w)).toOption else none

end Sys2Proof
end

