-- ==== Sys2Proof/Config.lean ====
section
/-! DEFINITION. The implementation parameters of 00_scope.md R6 (decision D35: "a model takes them as arguments"):
K5T's numeric literals, unaudited, each a named parameter with K5T's value as its default. The pure functions take a
`Params`; the machine reads the one its state carries (`State.params`, log 6), so claims about every state are claims
about every value. There is no free value: "Nothing in the block is non-deterministic" (00_scope.md section 5). -/

namespace Sys2Proof

/-- The eleven parameters of R6. -/
structure Params where
  /-- `CKS_CONST`, the constant the word sum is subtracted from (R191). -/
  cksConst : Word
  /-- `SOX`, the first byte of a message (R106). -/
  sox : Byte
  /-- `EOX`, the last byte of a message, and the reset value of `TERM` (R29, R106). -/
  eox : Byte
  /-- `FUNC_ONE_BLOCK`, the function code "one-block data dump" (R165). -/
  funcOneBlock : Byte
  /-- `SS1_SINGLE`, the sub-status-1 value "single, not multi" (R165). -/
  ss1Single : Byte
  /-- `HDR_FIELDS`, the number of header fields; they stand at the offsets from 1 on (R106). -/
  hdrFields : Nat
  /-- `MSG_MIN`, the least message length that has a header (R163, R164). -/
  msgMin : Nat
  /-- `BODY_LEN`, used in derived lengths only; the block does not enforce it (R8, R107). -/
  bodyLen : Nat
  /-- `BANK_SIZE`, slots per bank (R183). -/
  bankSize : Nat
  /-- `BANKS`, banks A to D (R110). -/
  banks : Nat
  /-- `EXT_BASE`, the first sub-status-2 value of the external bank (R183). -/
  extBase : Nat
  deriving DecidableEq, Repr

/-- The defaults of R6. -/
def Config.params : Params where
  cksConst := 0x5A3C
  sox := 0xF0
  eox := 0xF7
  funcOneBlock := 0x20
  ss1Single := 0x00
  hdrFields := 7
  msgMin := 8
  bodyLen := 492
  bankSize := 12
  banks := 4
  extBase := 48

/-- The offset of the payload: behind offset 0 and the header fields (R106, R166). -/
def Params.headerLen (P : Params) : Nat := 1 + P.hdrFields

/-- The length of a message with a body of `BODY_LEN` bytes, its markers and its header (R107). -/
def Params.messageLen (P : Params) : Nat := P.headerLen + 2 * P.bodyLen + 1

/-- The parameters fit the register map: seven header registers hold the header (R31), and a message that is not
truncated has all of it, `MSG_MIN` being "offset 0 plus 7 fields" or more (R6, R164; log 7). -/
def Params.Fits (P : Params) : Prop := P.hdrFields = 7 ∧ P.headerLen ≤ P.msgMin

end Sys2Proof
end

