-- ==== Sys2Proof/Machine/State.lean ====
section
/-! DEFINITION. The state of the block (10_state.md): its registers (R23 to R36), its hidden latches (R40 to
R47), its output queue (R45), the reset state (R50, 70_reset_and_hazards.md R266); beside them the outside
world as plain data (`HostSide`, log 1, 2 and 4); and the reasons a step can stop. -/

namespace Sys2Proof.Machine

/-- An input token: a data byte or the end-of-stream mark (30_encoding.md R103). -/
inductive InToken
  | B (b : Byte)
  | EOS
  deriving DecidableEq, Repr

/-- An output token: a data byte or the end of a buffer with its code (30_encoding.md R103, R104). -/
inductive OutToken
  | B (b : Byte)
  | EOS (code : Byte)
  deriving DecidableEq, Repr

/-- The stored flags of `STAT` (10_state.md R26). `ROUTE` is computed at every read (R32) and bit 7 reads
0, so neither is stored. -/
structure Stat where
  busy    : Bool
  done    : Bool
  fail    : Bool
  matched : Bool
  hdrv    : Bool
  unterm  : Bool
  deriving DecidableEq, Repr

/-- The header record in wire order, offsets 1 to 7: the registers `HDR_MFR` to `HDR_SS2` (10_state.md
R31). -/
structure Header where
  mfr   : Byte
  chan  : Byte
  func  : Byte
  group : Byte
  mach  : Byte
  ss1   : Byte
  ss2   : Byte
  deriving DecidableEq, Repr

/-- The host-visible registers (10_state.md R23). `PROG` and `STAT.ROUTE` are computed, not stored (R32,
R33); `CKS` and the counters are stored as 16-bit words and read by halves (log 10). -/
structure Regs where
  cmd    : Byte
  stat   : Stat
  err    : Byte
  cause  : Byte
  term   : Byte
  opa    : Byte
  opb    : Byte
  res0   : Byte
  res1   : Byte
  hdr    : Header
  explo  : Byte
  exphi  : Byte
  cks    : Word
  icnt   : Word
  ocnt   : Word
  segcnt : Word
  deriving DecidableEq, Repr

/-- The hidden latches of the streaming commands (10_state.md R40 to R44, R47). -/
structure Latches where
  /-- `s.hold`, the first byte of a pair (R40). -/
  hold      : Byte
  /-- `s.hold_valid` (R40). -/
  holdValid : Bool
  /-- `s.sum`, the running word sum (R47). -/
  sum       : Word
  /-- `s.d0`, the older byte of the delay line of `CKT` (R41). -/
  d0        : Byte
  /-- `s.d1`, the newer byte of the delay line of `CKT` (R41). -/
  d1        : Byte
  /-- `s.dcnt`, "0, 1 or 2" (R41). -/
  dcnt      : Fin 3
  /-- `s.seg_open`: an output buffer is open (R42). -/
  segOpen   : Bool
  /-- `s.hpos`, "0 to 8, saturating" (R43): at `MSG_MIN` (log 7). -/
  hpos      : Nat
  /-- `s.hb[0..7]`, the first eight, that is `MSG_MIN`, message bytes (R43, log 7). -/
  hb        : List Byte
  /-- `s.pass`: `STR` passes the message through (R44). -/
  pass      : Bool
  deriving DecidableEq, Repr

/-- One action of the outside world, in the order the block accepts them (20_memory.md R70, R79). All but
`offer` are the five transitions of R70; `offer` puts a 9-bit item (R62) at the input port, where it waits
(R76, log 2). -/
inductive HostAct
  | reset
  | regWrite (a : BitVec 5) (v : Byte)
  | regRead (a : BitVec 5)
  | offer (item : BitVec 9)
  | input
  | output
  deriving DecidableEq, Repr

/-- The outside world as plain data, no part of the block: what the host does next, the tokens waiting at
the input port, and what the host has received (log 1, 2, 4). -/
structure HostSide where
  /-- The host's coming actions, the next one first (log 1). -/
  acts  : List HostAct
  /-- Tokens offered at the input port and not yet accepted, oldest first (R76, log 2). -/
  inq   : List InToken
  /-- What `RegRead`s returned, oldest first, each with its address (log 4). -/
  rdata : List (BitVec 5 × Byte)
  /-- Output tokens the host has taken, oldest first (R226, log 4). -/
  taken : List OutToken
  deriving DecidableEq, Repr

/-- The whole state: the block's registers, latches and output queue, and the outside world. -/
structure State where
  /-- The values of the implementation parameters (00_scope.md R6): no state of the block, fixed for a machine, and
  carried here as the argument a model takes them as (decision D35, log 6). -/
  params : Params
  regs   : Regs
  latch  : Latches
  /-- `s.oq`, emitted and not yet taken, oldest first (10_state.md R45); unbounded (20_memory.md R75). -/
  oq     : List OutToken
  host   : HostSide
  deriving DecidableEq, Repr

/-- Why a step can stop without a next state. The fatal faults of 60_exceptions.md are no such stop: they
end a command and the block goes on, so they are next states (R245, R254). -/
inductive Fault
  /-- Raised by an `In` while `BUSY = 1` when `CMD` holds no stream command: R225 gives no token rule for
  it. No state a run reaches is such a state ("While `R.STAT.BUSY = 1` the read value is the running stream
  command", 10_state.md R25). Safe (log 9). -/
  | noTokenRule
  deriving DecidableEq, Repr

/-- Why a step can be refused. -/
inductive Refusal
  /-- Raised only by an arm of `exec` that has no meaning yet; no arm of this model is one. Safe. -/
  | notModelled (mnemonic : String)
  deriving DecidableEq, Repr

/-- The registers after reset (10_state.md R23 column Reset, R50): every one zero but `TERM`, which is `EOX`
(R29). -/
def Regs.reset (P : Params) : Regs where
  cmd := 0x00
  stat := ⟨false, false, false, false, false, false⟩
  err := 0x00
  cause := 0x00
  term := P.eox
  opa := 0x00
  opb := 0x00
  res0 := 0x00
  res1 := 0x00
  hdr := ⟨0x00, 0x00, 0x00, 0x00, 0x00, 0x00, 0x00⟩
  explo := 0x00
  exphi := 0x00
  cks := 0x0000
  icnt := 0x0000
  ocnt := 0x0000
  segcnt := 0x0000

/-- The hidden latches after reset (10_state.md R46). -/
def Latches.reset (P : Params) : Latches where
  hold := 0x00
  holdValid := false
  sum := 0x0000
  d0 := 0x00
  d1 := 0x00
  dcnt := 0
  segOpen := false
  hpos := 0
  hb := List.replicate P.msgMin 0x00
  pass := false

/-- An outside world that does nothing and has received nothing (log 1, 2, 4). -/
def HostSide.quiet : HostSide where
  acts := []
  inq := []
  rdata := []
  taken := []

/-- The machine of given parameters right after reset (10_state.md R50): registers and latches at their reset
values, the output queue empty; nothing scheduled and nothing offered. -/
def State.resetWith (P : Params) : State where
  params := P
  regs := Regs.reset P
  latch := Latches.reset P
  oq := []
  host := HostSide.quiet

/-- The machine right after reset, its parameters at the defaults (10_state.md R50, 00_scope.md R6). -/
def State.reset : State := State.resetWith Config.params

end Sys2Proof.Machine
end

