-- ==== Sys2Proof/Machine/Functions.lean ====
section
/-! DEFINITION. The pure functions of K5T, section 1 of the spec's family files: the bit and nybble
utilities (40_bit_nybble_utilities.md), the transcoder (41), the framer and the program number (42), the
checksum (43), and the consumer's reading of the output stream (30_encoding.md R105). They take and give whole
byte lists; the token rules of the machine compute them one token at a time. -/

namespace Sys2Proof.Machine

/-- The failures of the pure functions (60_exceptions.md, K5T error names). -/
inductive CodecError
  /-- `LengthError` of `collapse` (R142). -/
  | length
  /-- `TruncatedMessageError` of `parseHeader` (R163). -/
  | truncatedMessage
  /-- `TruncatedInputError` of `verifyTrailing` (R195). -/
  | truncatedInput
  /-- A checksum span of odd length (R196). -/
  | oddSpan
  deriving DecidableEq, Repr

/-! ### Bytes of a word -/

/-- The low byte of a 16-bit word. -/
def loByte (w : Word) : Byte := w.setWidth 8

/-- The high byte of a 16-bit word. -/
def hiByte (w : Word) : Byte := (w >>> 8).setWidth 8

/-- The word `hi ++ lo`, of value `lo + 256 * hi` (20_memory.md R64, R67). -/
def wordOf (hi lo : Byte) : Word := hi ++ lo

/-! ### Bit and nybble utilities -/

/-- `bit(b, i)` (R122). The index is taken modulo 8; indices of 8 and more are outside the function's
domain (log 8). -/
def bitAt (b : Byte) (i : Nat) : Bool := b.getLsbD (i % 8)

/-- `withBit(b, i, v)` (R123); index as in `bitAt`. -/
def withBit (b : Byte) (i : Nat) (v : Bool) : Byte :=
  if v then b ||| (1#8 <<< (i % 8)) else b &&& ~~~(1#8 <<< (i % 8))

/-- `nybbles(b) = (high, low)` (R124). -/
def nybbles (b : Byte) : Byte × Byte := (b >>> 4, b &&& 0x0F)

/-- `byteFromNybbles(high, low)`, both masked to their low 4 bits (R124). -/
def byteFromNybbles (high low : Byte) : Byte := ((high &&& 0x0F) <<< 4) ||| (low &&& 0x0F)

/-- `toSigned(b)`: `b` up to 127, `b - 256` from 128 (R125). -/
def toSigned (b : Byte) : Int := if b.toNat ≤ 127 then (b.toNat : Int) else (b.toNat : Int) - 256

/-- `fromSigned(s) = s mod 256` (R125). -/
def fromSigned (s : Int) : Byte := BitVec.ofInt 8 s

/-! ### Two-nybble transcoder -/

/-- `expand(x)`: each byte becomes its high, then its low nybble (R140). -/
def expand : List Byte → List Byte
  | [] => []
  | b :: x => (nybbles b).1 :: (nybbles b).2 :: expand x

/-- `collapse(y)`: consecutive pairs become one byte each; an odd length fails (R142). -/
def collapse : List Byte → Except CodecError (List Byte)
  | [] => .ok []
  | [_] => .error .length
  | high :: low :: y =>
    match collapse y with
    | .ok x => .ok (byteFromNybbles high low :: x)
    | .error e => .error e

/-! ### Message framer -/

/-- The work of `split` with a piece already begun: `piece` holds the bytes since the last terminator. -/
def splitFrom (t : Byte) : List Byte → List Byte → List (List Byte)
  | [], [] => []
  | p :: piece, [] => [p :: piece]
  | piece, b :: x =>
    if b = t then
      match piece with
      | [] => splitFrom t [] x
      | p :: ps => (p :: ps) :: splitFrom t [] x
    else splitFrom t (piece ++ [b]) x

/-- `split(x, t)`: the maximal runs of bytes different from `t`, each non-empty, in order (R160). -/
def split (x : List Byte) (t : Byte) : List (List Byte) := splitFrom t [] x

/-- The header fields of a message: the bytes at offsets 1 to 7 (R106, R163). -/
def headerOf (m : List Byte) : Header :=
  ⟨m.getD 1 0, m.getD 2 0, m.getD 3 0, m.getD 4 0, m.getD 5 0, m.getD 6 0, m.getD 7 0⟩

/-- `parseHeader(m)`: a message of fewer than `MSG_MIN` bytes is truncated, offset 0 is not checked (R163, R164). -/
def parseHeader (P : Params) (m : List Byte) : Except CodecError Header :=
  if m.length < P.msgMin then .error .truncatedMessage else .ok (headerOf m)

/-- `carriesPatch(h)`: a one-block dump of a single patch (R165). -/
def carriesPatch (P : Params) (h : Header) : Bool :=
  h.func == P.funcOneBlock && h.ss1 == P.ss1Single

/-- The two good results of `strip` (R166). -/
inductive Stripped
  /-- The header and the payload of a patch message. -/
  | patch (h : Header) (payload : List Byte)
  /-- The header of any other message, and the message unmodified. -/
  | pass (h : Header) (message : List Byte)
  deriving DecidableEq, Repr

/-- `strip(m)` (R166): the payload is what follows the header. -/
def strip (P : Params) (m : List Byte) : Except CodecError Stripped :=
  match parseHeader P m with
  | .error e => .error e
  | .ok h => if carriesPatch P h then .ok (.patch h (m.drop P.headerLen)) else .ok (.pass h m)

/-- The seven header bytes in wire order (R106). -/
def headerBytes (h : Header) : List Byte := [h.mfr, h.chan, h.func, h.group, h.mach, h.ss1, h.ss2]

/-- `attach(h, p)`: start marker, header, payload, end marker (R167). -/
def attach (P : Params) (h : Header) (p : List Byte) : List Byte :=
  [P.sox] ++ headerBytes h ++ p ++ [P.eox]

/-- The program number decoded from sub-status-2 (R183). Values from `2 * BANKS * BANK_SIZE` = 96 name no
bank (log 11). -/
def progDecode (P : Params) (ss2 : Byte) : Byte :=
  let n := ss2.toNat
  if n ≥ 2 * P.banks * P.bankSize then 0x80
  else
    let ext := if n ≥ P.extBase then 1 else 0
    let m := n - P.extBase * ext
    let bank := m / P.bankSize
    let slot := m % P.bankSize + 1
    (BitVec.ofNat 8 ext <<< 6) ||| (BitVec.ofNat 8 bank <<< 4) ||| BitVec.ofNat 8 slot

/-- The sub-status-2 value of a program: `48*ext + 12*bankIndex + (slotNumber - 1)` (30_encoding.md R110). -/
def progEncode (P : Params) (ext : Bool) (bank slot : Nat) : Byte :=
  BitVec.ofNat 8 (P.extBase * ext.toNat + P.bankSize * bank + (slot - 1))

/-! ### Checksum -/

/-- `wordsum(x)` of an even-length list: the sum modulo 65536 of its little-endian words (R190). A last
byte without a partner adds nothing; no rule uses the sum of an odd-length list (R196, log 12). -/
def wordsum : List Byte → Word
  | lo :: hi :: x => wordOf hi lo + wordsum x
  | [_] => 0
  | [] => 0

/-- `compute(x)`: the constant minus the word sum; an odd length fails (R191, R196). -/
def compute (P : Params) (x : List Byte) : Except CodecError Word :=
  if x.length % 2 = 0 then .ok (P.cksConst - wordsum x) else .error .oddSpan

/-- `verify(x, lo, hi)` (R193, R196). -/
def verify (P : Params) (x : List Byte) (lo hi : Byte) : Except CodecError Bool :=
  match compute P x with
  | .ok c => .ok (c == wordOf hi lo)
  | .error e => .error e

/-- `appendChecksum(x)`: the checksum follows, low byte first (R194, R196). -/
def appendChecksum (P : Params) (x : List Byte) : Except CodecError (List Byte) :=
  match compute P x with
  | .ok c => .ok (x ++ [loByte c, hiByte c])
  | .error e => .error e

/-- `verifyTrailing(y)`: verify all but the last two bytes against the last two (R195). -/
def verifyTrailing (P : Params) (y : List Byte) : Except CodecError Bool :=
  if y.length < 2 then .error .truncatedInput
  else verify P (y.take (y.length - 2)) (y.getD (y.length - 2) 0) (y.getD (y.length - 1) 0)

/-! ### The consumer of the output stream -/

/-- What a consumer keeps of an output token sequence, `piece` holding the data tokens of the buffer not
yet closed: a buffer closed by `EOS(0x00)` or `EOS(0x01)` is kept, one closed by any other code is void
(30_encoding.md R105). A buffer not closed yet is not delivered (log 16). -/
def deliverFrom (piece : List Byte) : List OutToken → List (List Byte)
  | [] => []
  | .B b :: ts => deliverFrom (piece ++ [b]) ts
  | .EOS code :: ts =>
    if code = 0x00 ∨ code = 0x01 then piece :: deliverFrom [] ts else deliverFrom [] ts

/-- The valid buffers of an output token sequence (30_encoding.md R105). -/
def deliver (ts : List OutToken) : List (List Byte) := deliverFrom [] ts

/-! ### The 9-bit items of the stream ports -/

/-- The input token of an item `eos ++ data`: the data bits of an end mark are ignored (20_memory.md R62). -/
def inTokenOf (item : BitVec 9) : InToken :=
  if item.getLsbD 8 then .EOS else .B (item.setWidth 8)

/-- The item `eos ++ data` of an output token (20_memory.md R62). -/
def itemOf : OutToken → BitVec 9
  | .B b => 0#1 ++ b
  | .EOS code => 1#1 ++ code

end Sys2Proof.Machine
end

