-- ==== Sys2Proof/Machine/Flags.lean ====
section
/-! DEFINITION. The flags: the `STAT` byte and its combinational `ROUTE` (10_state.md R26, R32), `PROG` (R33),
the abnormal events with their `ERR` bits and cause codes (R27, 30_encoding.md R104), and the codes that occur
in end marks only. -/

namespace Sys2Proof.Machine

/-- The events that set a bit of `ERR` (10_state.md R27, 60_exceptions.md R235). -/
inductive Event
  | illCmd
  | busyWr
  | length
  | trunc
  | cksum
  | oddSpan
  deriving DecidableEq, Repr

/-- The bit of `ERR` an event sets (10_state.md R27). -/
def errBit : Event → Nat
  | .illCmd => 0
  | .busyWr => 1
  | .length => 2
  | .trunc => 3
  | .cksum => 4
  | .oddSpan => 5

/-- The `ERR` byte with exactly the bit of an event set. -/
def errMask (e : Event) : Byte := 1#8 <<< errBit e

/-- The cause code of an event (30_encoding.md R104). -/
def causeCode : Event → Byte
  | .illCmd => 0x10
  | .busyWr => 0x11
  | .length => 0x12
  | .trunc => 0x13
  | .cksum => 0x14
  | .oddSpan => 0x15

/-- The code of a complete and valid buffer (30_encoding.md R104, OK). -/
def codeOk : Byte := 0x00

/-- The code of a message `STR` passed through (30_encoding.md R104, PASS). -/
def codePass : Byte := 0x01

/-- The code of a buffer `CLR` aborted (30_encoding.md R104, ABORT). -/
def codeAbort : Byte := 0x1F

/-- `STAT.ROUTE`, a pure function of `HDR_FUNC` and `HDR_SS1` (10_state.md R32). -/
def route (P : Params) (r : Regs) : Bool := carriesPatch P r.hdr

/-- The `STAT` byte: bit 7 reads 0, then `UNTERM`, `HDRV`, `ROUTE`, `MATCH`, `FAIL`, `DONE`, `BUSY` (10_state.md
R26). -/
def statByte (P : Params) (r : Regs) : Byte :=
  BitVec.ofBool false ++ (BitVec.ofBool r.stat.unterm ++ (BitVec.ofBool r.stat.hdrv ++
    (BitVec.ofBool (route P r) ++ (BitVec.ofBool r.stat.matched ++ (BitVec.ofBool r.stat.fail ++
      (BitVec.ofBool r.stat.done ++ BitVec.ofBool r.stat.busy))))))

/-- `PROG`, a pure function of `HDR_SS2` (10_state.md R33). -/
def progByte (P : Params) (r : Regs) : Byte := progDecode P r.hdr.ss2

end Sys2Proof.Machine
end

