-- ==== Sys2Proof/Machine/Operands.lean ====
section
/-! DEFINITION. The operand forms: the register map with its addresses and access codes (10_state.md R23), the
implicit 16-bit operand of `FRS` and expectation of `CKV` (20_memory.md R67), and the pseudo-commands of the
script notation as lists of register writes (30_encoding.md R113). -/

namespace Sys2Proof.Machine

/-- The 27 registers of 10_state.md R23. -/
inductive Reg
  | cmd
  | stat
  | err
  | cause
  | term
  | opa
  | opb
  | res0
  | res1
  | hdrMfr
  | hdrChan
  | hdrFunc
  | hdrGroup
  | hdrMach
  | hdrSs1
  | hdrSs2
  | prog
  | explo
  | exphi
  | ckslo
  | ckshi
  | icntlo
  | icnthi
  | ocntlo
  | ocnthi
  | seglo
  | seghi
  deriving DecidableEq, Repr

/-- The access codes of 10_state.md R23. -/
inductive Access
  /-- A write issues a command. -/
  | command
  /-- The host reads; writes are ignored. -/
  | ro
  /-- The host reads and writes. -/
  | rw
  /-- Writing a 1 to a bit clears it. -/
  | w1c
  deriving DecidableEq, Repr

/-- The address column of 10_state.md R23. -/
def addr : Reg → BitVec 5
  | .cmd => 0x00
  | .stat => 0x01
  | .err => 0x02
  | .cause => 0x03
  | .term => 0x04
  | .opa => 0x05
  | .opb => 0x06
  | .res0 => 0x07
  | .res1 => 0x08
  | .hdrMfr => 0x09
  | .hdrChan => 0x0A
  | .hdrFunc => 0x0B
  | .hdrGroup => 0x0C
  | .hdrMach => 0x0D
  | .hdrSs1 => 0x0E
  | .hdrSs2 => 0x0F
  | .prog => 0x10
  | .explo => 0x11
  | .exphi => 0x12
  | .ckslo => 0x13
  | .ckshi => 0x14
  | .icntlo => 0x15
  | .icnthi => 0x16
  | .ocntlo => 0x17
  | .ocnthi => 0x18
  | .seglo => 0x19
  | .seghi => 0x1A

/-- The register at an address; `0x1B` to `0x1F` are reserved (10_state.md R23). -/
def regAt (a : BitVec 5) : Option Reg :=
  match a.toNat with
  | 0x00 => some .cmd
  | 0x01 => some .stat
  | 0x02 => some .err
  | 0x03 => some .cause
  | 0x04 => some .term
  | 0x05 => some .opa
  | 0x06 => some .opb
  | 0x07 => some .res0
  | 0x08 => some .res1
  | 0x09 => some .hdrMfr
  | 0x0A => some .hdrChan
  | 0x0B => some .hdrFunc
  | 0x0C => some .hdrGroup
  | 0x0D => some .hdrMach
  | 0x0E => some .hdrSs1
  | 0x0F => some .hdrSs2
  | 0x10 => some .prog
  | 0x11 => some .explo
  | 0x12 => some .exphi
  | 0x13 => some .ckslo
  | 0x14 => some .ckshi
  | 0x15 => some .icntlo
  | 0x16 => some .icnthi
  | 0x17 => some .ocntlo
  | 0x18 => some .ocnthi
  | 0x19 => some .seglo
  | 0x1A => some .seghi
  | _ => none

/-- The access column of 10_state.md R23. -/
def access : Reg → Access
  | .cmd => .command
  | .err => .w1c
  | .term => .rw
  | .opa => .rw
  | .opb => .rw
  | .hdrMfr => .rw
  | .hdrChan => .rw
  | .hdrFunc => .rw
  | .hdrGroup => .rw
  | .hdrMach => .rw
  | .hdrSs1 => .rw
  | .hdrSs2 => .rw
  | .explo => .rw
  | .exphi => .rw
  | .stat => .ro
  | .cause => .ro
  | .res0 => .ro
  | .res1 => .ro
  | .prog => .ro
  | .ckslo => .ro
  | .ckshi => .ro
  | .icntlo => .ro
  | .icnthi => .ro
  | .ocntlo => .ro
  | .ocnthi => .ro
  | .seglo => .ro
  | .seghi => .ro

/-- What a read of a register returns (10_state.md section 3; low byte at the lower address, 20_memory.md
R67). -/
def readReg (P : Params) (r : Regs) : Reg → Byte
  | .cmd => r.cmd
  | .stat => statByte P r
  | .err => r.err
  | .cause => r.cause
  | .term => r.term
  | .opa => r.opa
  | .opb => r.opb
  | .res0 => r.res0
  | .res1 => r.res1
  | .hdrMfr => r.hdr.mfr
  | .hdrChan => r.hdr.chan
  | .hdrFunc => r.hdr.func
  | .hdrGroup => r.hdr.group
  | .hdrMach => r.hdr.mach
  | .hdrSs1 => r.hdr.ss1
  | .hdrSs2 => r.hdr.ss2
  | .prog => progByte P r
  | .explo => r.explo
  | .exphi => r.exphi
  | .ckslo => loByte r.cks
  | .ckshi => hiByte r.cks
  | .icntlo => loByte r.icnt
  | .icnthi => hiByte r.icnt
  | .ocntlo => loByte r.ocnt
  | .ocnthi => hiByte r.ocnt
  | .seglo => loByte r.segcnt
  | .seghi => hiByte r.segcnt

/-- The value the register port returns at an address: a reserved one reads `0x00` (10_state.md R24,
20_memory.md R73). -/
def readPort (s : State) (a : BitVec 5) : Byte :=
  match regAt a with
  | some reg => readReg s.params s.regs reg
  | none => 0x00

/-- The storing of a host write in an `RW` register (20_memory.md R71). Registers of another access code are
not stored to. -/
def storeReg (v : Byte) (r : Regs) : Reg → Regs
  | .term => { r with term := v }
  | .opa => { r with opa := v }
  | .opb => { r with opb := v }
  | .hdrMfr => { r with hdr.mfr := v }
  | .hdrChan => { r with hdr.chan := v }
  | .hdrFunc => { r with hdr.func := v }
  | .hdrGroup => { r with hdr.group := v }
  | .hdrMach => { r with hdr.mach := v }
  | .hdrSs1 => { r with hdr.ss1 := v }
  | .hdrSs2 => { r with hdr.ss2 := v }
  | .explo => { r with explo := v }
  | .exphi => { r with exphi := v }
  | .cmd => r
  | .stat => r
  | .err => r
  | .cause => r
  | .res0 => r
  | .res1 => r
  | .prog => r
  | .ckslo => r
  | .ckshi => r
  | .icntlo => r
  | .icnthi => r
  | .ocntlo => r
  | .ocnthi => r
  | .seglo => r
  | .seghi => r

/-- The 16-bit two's-complement operand `OPB ++ OPA` of `FRS` (20_memory.md R67, R131). -/
def signedOperand (r : Regs) : Int := (wordOf r.opb r.opa).toInt

/-- The expected checksum `EXPHI ++ EXPLO` of `CKV` (20_memory.md R67, R198). -/
def expected (r : Regs) : Word := wordOf r.exphi r.explo

/-! ### Pseudo-commands of the script notation (30_encoding.md R112, R113) -/

/-- `WR <reg>, <value>`. -/
def wr (r : Reg) (v : Byte) : HostAct := .regWrite (addr r) v

/-- `RD <reg>`. -/
def rd (r : Reg) : HostAct := .regRead (addr r)

/-- `CLRERR`: clears every sticky flag. -/
def clrErr : List HostAct := [wr .err 0xFF]

/-- `SETHDR m, c, f, g, k, s1, s2`: seven register writes. -/
def setHdr (h : Header) : List HostAct :=
  [wr .hdrMfr h.mfr, wr .hdrChan h.chan, wr .hdrFunc h.func, wr .hdrGroup h.group,
    wr .hdrMach h.mach, wr .hdrSs1 h.ss1, wr .hdrSs2 h.ss2]

/-- `SETEXP w`: low byte, then high byte. -/
def setExp (w : Word) : List HostAct := [wr .explo (loByte w), wr .exphi (hiByte w)]

end Sys2Proof.Machine
end

