-- ==== Sys2Proof/Machine/Ops.lean ====
section
/-! DEFINITION. The shared operations: emitting and counting tokens (10_state.md R36, R45), setting an event
(R27, R28), taking a fatal fault (60_exceptions.md R245), the report and the rejections (R246, R248, R250),
accepting a command (44_control_and_system.md R216), the common start and the good end of a stream command (R219,
R220), and reset (10_state.md R50). There is no return from a fault: nothing was entered (60_exceptions.md
R252). -/

namespace Sys2Proof.Machine

/-! ### Tokens and counters -/

/-- `emit t`: appends `t` to `s.oq`; it always succeeds (20_memory.md R75). -/
def emit (t : OutToken) (s : State) : State := { s with oq := s.oq ++ [t] }

/-- `emit B(b)` with `OCNT <- OCNT + 1` (10_state.md R36). -/
def emitByte (b : Byte) (s : State) : State :=
  { s with oq := s.oq ++ [.B b], regs.ocnt := s.regs.ocnt + 1 }

/-- `emit` of several data tokens in order, each counted by `OCNT`. -/
def emitBytes : List Byte → State → State
  | [], s => s
  | b :: bs, s => emitBytes bs (emitByte b s)

/-- `ICNT <- ICNT + 1` (10_state.md R36). -/
def countInput (s : State) : State := { s with regs.icnt := s.regs.icnt + 1 }

/-- `emit EOS(code); s.seg_open <- 0`: closes the open output buffer. -/
def closeBuffer (code : Byte) (s : State) : State :=
  { s with oq := s.oq ++ [.EOS code], latch.segOpen := false }

/-! ### Events -/

/-- `R.ERR.<NAME> <- 1; R.CAUSE <- code` (10_state.md R27, R28). -/
def noteEvent (e : Event) (s : State) : State :=
  { s with regs.err := s.regs.err ||| errMask e, regs.cause := causeCode e }

/-- `R.STAT.BUSY <- 0; R.STAT.DONE <- 1`: the end of a stream command, good (44_control_and_system.md R220) or by
a fatal fault (60_exceptions.md R245 (5)). -/
def endCommand (s : State) : State := { s with regs.stat.busy := false, regs.stat.done := true }

/-- `raise Fatal(NAME, code)` (60_exceptions.md R245): the `ERR` bit, `CAUSE`, `FAIL`; the open buffer, if there
is one, is closed by `EOS(code)`; the command ends. Nothing else changes. -/
def raiseFatal (e : Event) (s : State) : State :=
  let s := noteEvent e s
  let s := { s with regs.stat.fail := true }
  let s := if s.latch.segOpen then closeBuffer (causeCode e) s else s
  endCommand s

/-- `report(CKSUM, 0x14)` (60_exceptions.md R246). -/
def reportMismatch (s : State) : State := noteEvent .cksum s

/-- Rejection BUSYWR (60_exceptions.md R250). -/
def rejectBusy (s : State) : State := noteEvent .busyWr s

/-- Rejection ILLCMD (60_exceptions.md R248). -/
def rejectIllegal (s : State) : State := noteEvent .illCmd s

/-- A reserved command byte: BUSYWR while busy, else ILLCMD (44_control_and_system.md R216, 60_exceptions.md
R256). -/
def rejectReserved (s : State) : State :=
  if s.regs.stat.busy then rejectBusy s else rejectIllegal s

/-! ### Acceptance -/

/-- `R.CMD <- c; R.STAT.DONE <- 0; R.STAT.FAIL <- 0` (44_control_and_system.md R216). -/
def accept (c : Byte) (s : State) : State :=
  { s with regs.cmd := c, regs.stat.done := false, regs.stat.fail := false }

/-- `R.STAT.DONE <- 1` of an immediate command (44_control_and_system.md R216, R217). -/
def setDone (s : State) : State := { s with regs.stat.done := true }

/-- The write of both result registers by a utility command (40_bit_nybble_utilities.md R121). -/
def setResults (res0 res1 : Byte) (s : State) : State :=
  { s with regs.res0 := res0, regs.res1 := res1 }

/-- The common start of a stream command with the start value of `s.seg_open` (44_control_and_system.md R219). -/
def commonStart (segOpen : Bool) (s : State) : State :=
  { s with
    regs.icnt := 0
    regs.ocnt := 0
    latch.holdValid := false
    latch.sum := 0
    latch.dcnt := 0
    latch.hpos := 0
    latch.pass := false
    latch.segOpen := segOpen }

/-- `R.STAT.BUSY <- 1` (44_control_and_system.md R216). -/
def setBusy (s : State) : State := { s with regs.stat.busy := true }

/-- The write of an immediate command's byte to `CMD`, `CLR` apart: rejected while busy, else accepted and
performed at once (44_control_and_system.md R216, R217). -/
def immediate (i : Instr) (perform : State → State) (s : State) :
    Host.Outcome State Fault Refusal :=
  if s.regs.stat.busy then .next (rejectBusy s)
  else .next (setDone (perform (accept (encode i) s)))

/-- The write of a stream command's byte to `CMD`: rejected while busy, else accepted, started and left
running (44_control_and_system.md R216, R219). -/
def startStream (i : Instr) (segOpen : Bool) (specific : State → State) (s : State) :
    Host.Outcome State Fault Refusal :=
  if s.regs.stat.busy then .next (rejectBusy s)
  else .next (setBusy (specific (commonStart segOpen (accept (encode i) s))))

/-! ### Reset -/

/-- Every register and latch at its reset value, the output queue and the outside world as they are
(10_state.md R46, R50; 44_control_and_system.md R222, R223). -/
def resetKeepingQueue (s : State) : State :=
  { s with regs := Regs.reset s.params, latch := Latches.reset s.params }

/-- The `Reset` transition: registers, latches and output queue (70_reset_and_hazards.md R266, R268). What is not
the block's stays: tokens not yet accepted "remain the host's" (log 15). -/
def resetBlock (s : State) : State := { resetKeepingQueue s with oq := [] }

end Sys2Proof.Machine
end

