-- ==== Sys2Proof/Machine/Checksum.lean ====
section
/-! DEFINITION. The four checksum commands (43_checksum.md R197 to R200): the accumulator they share (R203), the
acceptance of each and its token rule. -/

namespace Sys2Proof.Machine

/-- `feed(b)` (R203): the low byte of a word is held, the high byte adds the word to the sum. -/
def feed (b : Byte) (s : State) : State :=
  if s.latch.holdValid then
    { s with latch.sum := s.latch.sum + wordOf b s.latch.hold, latch.holdValid := false }
  else { s with latch.hold := b, latch.holdValid := true }

/-- `finish()` (R203): the constant minus the sum. -/
def finish (s : State) : Word := s.params.cksConst - s.latch.sum

/-- `CKSHI ++ CKSLO <- c` (10_state.md R35). -/
def setCks (c : Word) (s : State) : State := { s with regs.cks := c }

/-- The comparison at the good end of `CKV` and `CKT`: `MATCH` is set, or cleared with the report CKSUM (R198,
R199, 60_exceptions.md R246). -/
def settleMatch (equal : Bool) (s : State) : State :=
  if equal then { s with regs.stat.matched := true }
  else reportMismatch { s with regs.stat.matched := false }

/-- Acceptance of `CKC` (R197, R219). -/
def execCkc (s : State) : Host.Outcome State Fault Refusal := startStream .ckc false id s

/-- The token rule of `CKC` (R197). -/
def tokenCkc (t : InToken) (s : State) : State :=
  match t with
  | .B b => feed b (countInput s)
  | .EOS =>
    if s.latch.holdValid then raiseFatal .oddSpan s else endCommand (setCks (finish s) s)

/-- Acceptance of `CKV` (R198, R219): `MATCH <- 0`. -/
def execCkv (s : State) : Host.Outcome State Fault Refusal :=
  startStream .ckv false (fun s => { s with regs.stat.matched := false }) s

/-- The token rule of `CKV` (R198): the expected value is `EXPHI ++ EXPLO`. -/
def tokenCkv (t : InToken) (s : State) : State :=
  match t with
  | .B b => feed b (countInput s)
  | .EOS =>
    if s.latch.holdValid then raiseFatal .oddSpan s
    else endCommand (settleMatch (finish s == expected s.regs) (setCks (finish s) s))

/-- Acceptance of `CKT` (R199, R219): `MATCH <- 0`. -/
def execCkt (s : State) : Host.Outcome State Fault Refusal :=
  startStream .ckt false (fun s => { s with regs.stat.matched := false }) s

/-- The delay line of `CKT` (R199): the two newest bytes stay out of the sum. -/
def delayByte (b : Byte) (s : State) : State :=
  if s.latch.dcnt = 0 then { s with latch.d0 := b, latch.dcnt := 1 }
  else if s.latch.dcnt = 1 then { s with latch.d1 := b, latch.dcnt := 2 }
  else { feed s.latch.d0 s with latch.d0 := s.latch.d1, latch.d1 := b }

/-- The token rule of `CKT` (R199): TRUNC before ODDSPAN (60_exceptions.md R256); at the good end the two
trailing bytes go to `EXPLO`, `EXPHI` and are compared with the sum's checksum. -/
def tokenCkt (t : InToken) (s : State) : State :=
  match t with
  | .B b => delayByte b (countInput s)
  | .EOS =>
    if s.latch.dcnt.val < 2 then raiseFatal .trunc s
    else if s.latch.holdValid then raiseFatal .oddSpan s
    else
      endCommand (settleMatch (finish s == wordOf s.latch.d1 s.latch.d0)
        { setCks (finish s) s with regs.explo := s.latch.d0, regs.exphi := s.latch.d1 })

/-- Acceptance of `CKA` (R200, R219). -/
def execCka (s : State) : Host.Outcome State Fault Refusal := startStream .cka true id s

/-- The token rule of `CKA` (R200): every byte is copied and fed; at the good end the checksum follows, low
byte first. -/
def tokenCka (t : InToken) (s : State) : State :=
  match t with
  | .B b => emitByte b (feed b (countInput s))
  | .EOS =>
    if s.latch.holdValid then raiseFatal .oddSpan s
    else
      endCommand (closeBuffer codeOk
        (emitBytes [loByte (finish s), hiByte (finish s)] (setCks (finish s) s)))

end Sys2Proof.Machine
end

