-- ==== Sys2Proof/Machine/Control.lean ====
section
/-! DEFINITION. The two control commands (44_control_and_system.md R221, R222). -/

namespace Sys2Proof.Machine

/-- `NOP` (R221): nothing beyond acceptance. -/
def execNop (s : State) : Host.Outcome State Fault Refusal := immediate .nop id s

/-- `CLR` (R222, 60_exceptions.md R251): accepted at any time; an open buffer is closed by `EOS(0x1F)`, then
every register and latch takes its reset value and the output queue is kept. -/
def execClr (s : State) : Host.Outcome State Fault Refusal :=
  let s := if s.latch.segOpen then emit (.EOS codeAbort) s else s
  .next (resetKeepingQueue s)

end Sys2Proof.Machine
end

