-- ==== Sys2Proof/Machine/Framer.lean ====
section
/-! DEFINITION. The four framer commands (42_message_framer.md R168, R171, R172, R178): the header engine `PHD` and
`STR` share (R169, R170), the acceptance of each and its token rule. -/

namespace Sys2Proof.Machine

/-- The end of a segment of `SPL` (R168): `emit EOS(0x00); s.seg_open <- 0; SEGCNT <- SEGCNT + 1`. -/
def closeSegment (s : State) : State :=
  { closeBuffer codeOk s with regs.segcnt := s.regs.segcnt + 1 }

/-- Acceptance of `SPL` (R168, R219): `SEGCNT <- 0; UNTERM <- 0`. -/
def execSpl (s : State) : Host.Outcome State Fault Refusal :=
  startStream .spl false (fun s => { s with regs.segcnt := 0, regs.stat.unterm := false }) s

/-- The token rule of `SPL` (R168). -/
def tokenSpl (t : InToken) (s : State) : State :=
  match t with
  | .B b =>
    let s := countInput s
    if b = s.regs.term then
      if s.latch.segOpen then closeSegment s else s
    else { emitByte b s with latch.segOpen := true }
  | .EOS =>
    if s.latch.segOpen then endCommand { closeSegment s with regs.stat.unterm := true }
    else endCommand s

/-- The list with one place written; places before it that the list does not have become `0x00`. -/
def place (b : Byte) : Nat → List Byte → List Byte
  | 0, [] => [b]
  | 0, _ :: l => b :: l
  | k + 1, [] => 0x00 :: place b k []
  | k + 1, a :: l => a :: place b k l

/-- The places `s.hb[0]` to `s.hb[MSG_MIN - 1]`. -/
def keptBytes (P : Params) (hb : List Byte) : List Byte := (List.range P.msgMin).map fun k => hb.getD k 0

/-- The header commit (R170): all seven registers and `HDRV` in one step. -/
def commitHeader (s : State) : State :=
  { s with regs.hdr := headerOf s.latch.hb, regs.stat.hdrv := true }

/-- The header engine on one data byte (R169): the first eight bytes, `MSG_MIN` in number, are kept and the last of
them commits the header; later bytes are payload and change nothing. -/
def headerEngine (b : Byte) (s : State) : State :=
  if s.latch.hpos < s.params.msgMin then
    let s := { s with
      latch.hb := place b s.latch.hpos s.latch.hb
      latch.hpos := s.latch.hpos + 1 }
    if s.latch.hpos = s.params.msgMin then commitHeader s else s
  else s

/-- Acceptance of `PHD` (R171, R219): `HDRV <- 0`. -/
def execPhd (s : State) : Host.Outcome State Fault Refusal :=
  startStream .phd false (fun s => { s with regs.stat.hdrv := false }) s

/-- The token rule of `PHD` (R171): TRUNC at the end of fewer than `MSG_MIN` = 8 bytes. -/
def tokenPhd (t : InToken) (s : State) : State :=
  match t with
  | .B b => headerEngine b (countInput s)
  | .EOS => if s.latch.hpos < s.params.msgMin then raiseFatal .trunc s else endCommand s

/-- Acceptance of `STR` (R172, R219): `HDRV <- 0`. -/
def execStr (s : State) : Host.Outcome State Fault Refusal :=
  startStream .str true (fun s => { s with regs.stat.hdrv := false }) s

/-- The route decision of `STR` at the header commit (R172): a message that carries no patch is passed through, the
bytes kept so far emitted at once. Of a patch message what was kept behind the header belongs to the payload; with
`MSG_MIN` = 8 that is nothing (log 7). -/
def routeMessage (s : State) : State :=
  let pass := !carriesPatch s.params (headerOf s.latch.hb)
  let kept := keptBytes s.params s.latch.hb
  emitBytes (if pass then kept else kept.drop s.params.headerLen) { s with latch.pass := pass }

/-- The token rule of `STR` (R172). -/
def tokenStr (t : InToken) (s : State) : State :=
  match t with
  | .B b =>
    let s := countInput s
    if s.latch.hpos < s.params.msgMin then
      let s := headerEngine b s
      if s.latch.hpos = s.params.msgMin then routeMessage s else s
    else emitByte b s
  | .EOS =>
    if s.latch.hpos < s.params.msgMin then raiseFatal .trunc s
    else endCommand (closeBuffer (if s.latch.pass then codePass else codeOk) s)

/-- Acceptance of `ATT` (R178, R219): the start marker and the seven header registers are emitted at once. -/
def execAtt (s : State) : Host.Outcome State Fault Refusal :=
  startStream .att true (fun s => emitBytes (s.params.sox :: headerBytes s.regs.hdr) s) s

/-- The token rule of `ATT` (R178): the end marker is always `EOX`; `TERM` is not used (10_state.md R29). -/
def tokenAtt (t : InToken) (s : State) : State :=
  match t with
  | .B b => emitByte b (countInput s)
  | .EOS => endCommand (closeBuffer codeOk (emitByte s.params.eox s))

end Sys2Proof.Machine
end

