-- ==== Sys2Proof/Machine/Transcoder.lean ====
section
/-! DEFINITION. The two transcoder commands (41_two_nybble_transcoder.md R144, R145): the acceptance of each and its
token rule. -/

namespace Sys2Proof.Machine

/-- Acceptance of `EXP` (R144, R219). -/
def execExp (s : State) : Host.Outcome State Fault Refusal := startStream .exp true id s

/-- The token rule of `EXP` (R144). -/
def tokenExp (t : InToken) (s : State) : State :=
  match t with
  | .B b => emitByte (nybbles b).2 (emitByte (nybbles b).1 (countInput s))
  | .EOS => endCommand (closeBuffer codeOk s)

/-- Acceptance of `COL` (R145, R219). -/
def execCol (s : State) : Host.Outcome State Fault Refusal := startStream .col true id s

/-- The token rule of `COL` (R145): the first byte of a pair is held, the second completes it; LENGTH at the
end of an odd number of bytes. -/
def tokenCol (t : InToken) (s : State) : State :=
  match t with
  | .B b =>
    let s := countInput s
    if s.latch.holdValid then
      emitByte (byteFromNybbles s.latch.hold b) { s with latch.holdValid := false }
    else { s with latch.hold := b, latch.holdValid := true }
  | .EOS =>
    if s.latch.holdValid then raiseFatal .length s else endCommand (closeBuffer codeOk s)

end Sys2Proof.Machine
end

