-- ==== Sys2Proof/Machine/Utilities.lean ====
section
/-! DEFINITION. The six utility commands (40_bit_nybble_utilities.md R121, R126 to R131): immediate commands over
`OPA` and `OPB` that write both result registers. -/

namespace Sys2Proof.Machine

/-- `BIT i` (R126). -/
def execBit (i : Nat) (s : State) : Host.Outcome State Fault Refusal :=
  immediate (.bit i)
    (fun s => setResults (if bitAt s.regs.opa i then 0x01 else 0x00) 0x00 s) s

/-- `WBIT i, v` (R127). -/
def execWbit (i : Nat) (v : Bool) (s : State) : Host.Outcome State Fault Refusal :=
  immediate (.wbit i v) (fun s => setResults (withBit s.regs.opa i v) 0x00 s) s

/-- `NYB` (R128): high nybble in `RES0`, low in `RES1`. -/
def execNyb (s : State) : Host.Outcome State Fault Refusal :=
  immediate .nyb (fun s => setResults (nybbles s.regs.opa).1 (nybbles s.regs.opa).2 s) s

/-- `BFN` (R129). -/
def execBfn (s : State) : Host.Outcome State Fault Refusal :=
  immediate .bfn (fun s => setResults (byteFromNybbles s.regs.opa s.regs.opb) 0x00 s) s

/-- `TOS` (R130): `OPA` sign-extended to 16 bits in `RES1 ++ RES0`. -/
def execTos (s : State) : Host.Outcome State Fault Refusal :=
  immediate .tos
    (fun s => setResults s.regs.opa (if bitAt s.regs.opa 7 then 0xFF else 0x00) s) s

/-- `FRS` (R131): the 16-bit operand `OPB ++ OPA` modulo 256. -/
def execFrs (s : State) : Host.Outcome State Fault Refusal :=
  immediate .frs (fun s => setResults (fromSigned (signedOperand s.regs)) 0x00 s) s

end Sys2Proof.Machine
end

