-- ==== Sys2Proof/Machine/Dispatch.lean ====
section
/-! DEFINITION. `exec`: what the write of a command's byte to `CMD` does (44_control_and_system.md R216), one arm
per command. -/

namespace Sys2Proof.Machine

def exec (i : Instr) (s : State) : Host.Outcome State Fault Refusal :=
  match i with
  | .nop => Sys2Proof.Machine.execNop s
  | .clr => Sys2Proof.Machine.execClr s
  | .bit k => Sys2Proof.Machine.execBit k s
  | .wbit k v => Sys2Proof.Machine.execWbit k v s
  | .nyb => Sys2Proof.Machine.execNyb s
  | .bfn => Sys2Proof.Machine.execBfn s
  | .tos => Sys2Proof.Machine.execTos s
  | .frs => Sys2Proof.Machine.execFrs s
  | .exp => Sys2Proof.Machine.execExp s
  | .col => Sys2Proof.Machine.execCol s
  | .ckc => Sys2Proof.Machine.execCkc s
  | .ckv => Sys2Proof.Machine.execCkv s
  | .ckt => Sys2Proof.Machine.execCkt s
  | .cka => Sys2Proof.Machine.execCka s
  | .spl => Sys2Proof.Machine.execSpl s
  | .phd => Sys2Proof.Machine.execPhd s
  | .str => Sys2Proof.Machine.execStr s
  | .att => Sys2Proof.Machine.execAtt s

end Sys2Proof.Machine
end

