-- ==== Sys2Proof/Machine/Transitions.lean ====
section
/-! DEFINITION. The transitions of the block (20_memory.md R70): `RegWrite` (R71), `RegRead` (R73), `In`
(44_control_and_system.md R225), `Out` (R226), `Reset` (70_reset_and_hazards.md R265), and the offering of a token at
the input port (R76). -/

namespace Sys2Proof.Machine

/-- `RegWrite(0x00, c)` (44_control_and_system.md R216): a defined byte runs its command's meaning, which holds the
test of `BUSY`; a reserved byte is rejected. -/
def writeCmd (c : Byte) (s : State) : Host.Outcome State Fault Refusal :=
  match decode c with
  | .command i => exec i s
  | .reserved => .next (rejectReserved s)

/-- A write to a register other than `CMD`, by its access code (20_memory.md R71): `ERR` is cleared by ones at
any time, an `RW` register takes the value when idle and rejects it when busy, an `RO` register ignores it. -/
def writeReg (r : Reg) (v : Byte) (s : State) : State :=
  match access r with
  | .w1c => { s with regs.err := s.regs.err &&& ~~~v }
  | .rw => if s.regs.stat.busy then rejectBusy s else { s with regs := storeReg v s.regs r }
  | .ro => s
  | .command => s

/-- `RegWrite(a, v)` (20_memory.md R71); a reserved address ignores the write (10_state.md R24). -/
def writePort (a : BitVec 5) (v : Byte) (s : State) : Host.Outcome State Fault Refusal :=
  match regAt a with
  | some .cmd => writeCmd v s
  | some r => .next (writeReg r v s)
  | none => .next s

/-- The token rule of the command whose byte is in `CMD` (44_control_and_system.md R225). For a byte that is no
stream command there is none; no run reaches such a state (log 9). -/
def acceptToken (t : InToken) (s : State) : Host.Outcome State Fault Refusal :=
  match decode s.regs.cmd with
  | .command .exp => .next (tokenExp t s)
  | .command .col => .next (tokenCol t s)
  | .command .ckc => .next (tokenCkc t s)
  | .command .ckv => .next (tokenCkv t s)
  | .command .ckt => .next (tokenCkt t s)
  | .command .cka => .next (tokenCka t s)
  | .command .spl => .next (tokenSpl t s)
  | .command .phd => .next (tokenPhd t s)
  | .command .str => .next (tokenStr t s)
  | .command .att => .next (tokenAtt t s)
  | .command .nop => .fault .noTokenRule
  | .command .clr => .fault .noTokenRule
  | .command (.bit _) => .fault .noTokenRule
  | .command (.wbit _ _) => .fault .noTokenRule
  | .command .nyb => .fault .noTokenRule
  | .command .bfn => .fault .noTokenRule
  | .command .tos => .fault .noTokenRule
  | .command .frs => .fault .noTokenRule
  | .reserved => .fault .noTokenRule

/-- `In`: enabled while `BUSY = 1` and a token waits at the port; otherwise the token, if there is one, goes on
waiting (20_memory.md R70, R76; log 2, 3). -/
def inputTransfer (s : State) : Host.Outcome State Fault Refusal :=
  match s.host.inq with
  | [] => .next s
  | t :: q => if s.regs.stat.busy then acceptToken t { s with host.inq := q } else .next s

/-- The token the output port offers: the head of `s.oq`, at once and for as long as it is not taken
(20_memory.md R70, 70_reset_and_hazards.md R289). -/
def offeredOutput (s : State) : Option OutToken := s.oq.head?

/-- `Out`: the host takes the oldest token of `s.oq`; not enabled when it is empty (20_memory.md R70,
44_control_and_system.md R226; log 3). -/
def outputTransfer (s : State) : State :=
  match s.oq with
  | [] => s
  | t :: q => { s with oq := q, host.taken := s.host.taken ++ [t] }

/-- `RegRead(a) -> v`: the host receives the value; the block does not change (20_memory.md R73). -/
def readTransfer (a : BitVec 5) (s : State) : State :=
  { s with host.rdata := s.host.rdata ++ [(a, readPort s a)] }

/-- The host puts an item at the input port (20_memory.md R62, R76; log 2). -/
def offerItem (item : BitVec 9) (s : State) : State :=
  { s with host.inq := s.host.inq ++ [inTokenOf item] }

/-- One action of the outside world (20_memory.md R70). -/
def perform (act : HostAct) (s : State) : Host.Outcome State Fault Refusal :=
  match act with
  | .reset => .next (resetBlock s)
  | .regWrite a v => writePort a v s
  | .regRead a => .next (readTransfer a s)
  | .offer item => .next (offerItem item s)
  | .input => inputTransfer s
  | .output => .next (outputTransfer s)

/-- The next action leaves the schedule and is performed. When the outside has nothing scheduled the block, if it
is busy, accepts a token that waits: "if `BUSY = 1` the block eventually accepts an offered input token"
(70_reset_and_hazards.md R289; log 20). Otherwise nothing happens: "The block never waits for anything but the host"
(R289), and it "never changes state on its own" (20_memory.md R70; log 3). -/
def runNext (s : State) : Host.Outcome State Fault Refusal :=
  match s.host.acts with
  | [] => inputTransfer s
  | act :: rest => perform act { s with host.acts := rest }

/-- A command byte at the head of the schedule: the `RegWrite` to `CMD` that carries it (20_memory.md R83;
log 5). -/
def scheduleCommand (c : Byte) (s : State) : State :=
  { s with host.acts := wr .cmd c :: s.host.acts }

/-- The consumption of a sequence of tokens by the running command, in order: what as many `In` transitions do,
one after another. -/
def acceptTokens : List InToken → State → Host.Outcome State Fault Refusal
  | [], s => .next s
  | t :: ts, s =>
    match acceptToken t s with
    | .next s' => acceptTokens ts s'
    | .fault r => .fault r
    | .refused r => .refused r

/-- A whole stream command: its acceptance, then the data bytes and the end mark (30_encoding.md R103: "that
`EOS` ends the command"). -/
def runCommand (i : Instr) (x : List Byte) (s : State) : Host.Outcome State Fault Refusal :=
  match exec i s with
  | .next s' => acceptTokens (x.map .B ++ [.EOS]) s'
  | .fault r => .fault r
  | .refused r => .refused r

/-! ### Host sessions in the script notation (30_encoding.md R112, R113) -/

/-- `CMD <mnemonic> [<operands>]`. -/
def cmd (i : Instr) : HostAct := wr .cmd (encode i)

/-- `IN <b0> <b1> ...`: each byte is offered and accepted. -/
def inBytes : List Byte → List HostAct
  | [] => []
  | b :: bs => .offer (0#1 ++ b) :: .input :: inBytes bs

/-- `IN EOS`. -/
def inEos : List HostAct := [.offer (1#1 ++ 0#8), .input]

/-- `SETB i`. -/
def setB (i : Nat) : List HostAct := [cmd (.wbit i true)]

/-- `CLRB i`. -/
def clrB (i : Nat) : List HostAct := [cmd (.wbit i false)]

end Sys2Proof.Machine
end

