-- ==== Sys2Proof/Machine/Step.lean ====
section
/-! DEFINITION. One step of the machine: the next action of the outside world's schedule (20_memory.md R70; log 1,
3), and the placing of a command byte where the next step takes it (log 5). -/

namespace Sys2Proof.Machine

/-- One step: the next scheduled action is performed, or, with none scheduled, a waiting token is accepted. -/
def step (s : State) : Host.Outcome State Fault Refusal := runNext s

/-- `s` with the `RegWrite` of the command byte `w` to `CMD` at the head of the schedule, so that the next step
runs it. A command is one byte (R90); `nbits` is 8 for every row of the table. -/
def State.withFetchWord (s : State) (_nbits w : Nat) : State := scheduleCommand (BitVec.ofNat 8 w) s

end Sys2Proof.Machine
end

