-- ==== Sys2Proof/Safety.lean ====
section
/-! DEFINITION. What claims are stated in terms of: idle and running states, the invariants of the block
(10_state.md, 42_message_framer.md R169 to R173, 60_exceptions.md R260, R261), and the reachable states. -/

namespace Sys2Proof.Machine

/-- "The block is in one of two modes": idle (44_control_and_system.md R215). -/
def State.Idle (s : State) : Prop := s.regs.stat.busy = false

/-- The block runs the stream command `i`: `BUSY = 1` and `CMD` holds its byte (10_state.md R22, R25). -/
def State.Runs (i : Instr) (s : State) : Prop :=
  s.regs.stat.busy = true ∧ s.regs.cmd = encode i

/-- `s.seg_open` is set by the common start of these commands (44_control_and_system.md R219). -/
def opensAtStart (i : Instr) : Prop := i = .exp ∨ i = .col ∨ i = .str ∨ i = .att ∨ i = .cka

/-- These stream commands "emit no token at all" (30_encoding.md R103). -/
def emitsNothing (i : Instr) : Prop := i = .phd ∨ i = .ckc ∨ i = .ckv ∨ i = .ckt

/-- The legal combinations of mode, flags and open buffer. -/
structure State.ControlInv (s : State) : Prop where
  /-- "While `R.STAT.BUSY = 1` the read value is the running stream command" (10_state.md R25). -/
  running : s.regs.stat.busy = true → ∃ i : Instr, i.isStream = true ∧ s.regs.cmd = encode i
  /-- "`BUSY` and `DONE` are never both 1" (10_state.md R26); accepting a command cleared `FAIL`. -/
  pending : s.regs.stat.busy = true → s.regs.stat.done = false ∧ s.regs.stat.fail = false
  /-- A fatal fault sets `FAIL` and `DONE` together (60_exceptions.md R245). -/
  failed : s.regs.stat.fail = true → s.regs.stat.done = true
  /-- "`s.seg_open` is always 0 when the block is idle" (44_control_and_system.md R219). -/
  closed : s.regs.stat.busy = false → s.latch.segOpen = false
  /-- A writing command keeps its buffer open until its end. -/
  opened : ∀ i, s.Runs i → opensAtStart i → s.latch.segOpen = true
  /-- A command without output opens no buffer. -/
  silent : ∀ i, s.Runs i → emitsNothing i → s.latch.segOpen = false
  /-- Bits 6 and 7 of `ERR` read 0 (10_state.md R24, R27). -/
  errReserved : s.regs.err &&& 0xC0 = 0
  /-- `CAUSE` holds `0x00` or a code of the table (10_state.md R28). -/
  causeListed : s.regs.cause = 0x00 ∨ ∃ e, s.regs.cause = causeCode e
  /-- `CAUSE = 0x00` "means no such event since reset or `CLR`" (10_state.md R28). -/
  errCaused : s.regs.err ≠ 0x00 → s.regs.cause ≠ 0x00

/-- The header engine between acceptance and end of `PHD` and `STR` (42_message_framer.md R169 to R173). -/
structure State.HeaderInv (s : State) : Prop where
  /-- The parameters fit the register map (log 7). -/
  fits : s.params.Fits
  /-- "`s.hpos` saturates at 8", that is at `MSG_MIN` (10_state.md R43). -/
  saturating : s.latch.hpos ≤ s.params.msgMin
  /-- `HDRV` is 0 before the commit and 1 from it on. -/
  valid : (s.Runs .phd ∨ s.Runs .str) → (s.regs.stat.hdrv = true ↔ s.latch.hpos = s.params.msgMin)
  /-- From the commit on the header registers hold the bytes at offsets 1 to 7. -/
  committed : (s.Runs .phd ∨ s.Runs .str) → s.latch.hpos = s.params.msgMin →
    s.regs.hdr = headerOf s.latch.hb
  /-- From the commit on `s.pass = 1 - STAT.ROUTE` (R173). -/
  routed : s.Runs .str → s.latch.hpos = s.params.msgMin → s.latch.pass = !route s.params s.regs
  /-- Before the commit no route is decided. -/
  unrouted : s.Runs .str → s.latch.hpos ≠ s.params.msgMin → s.latch.pass = false

/-- One more than an even number: the parity of a 16-bit counter. -/
def isOdd (w : Word) : Bool := w.getLsbD 0

/-- The transfer counters while a command runs: how `ICNT`, `OCNT` and the position latches stand to each
other (60_exceptions.md R260; the running form of R261). -/
structure State.RunningCounts (s : State) : Prop where
  exp : s.Runs .exp → s.regs.ocnt = 2 * s.regs.icnt
  col : s.Runs .col →
    s.regs.icnt = 2 * s.regs.ocnt + BitVec.ofNat 16 s.latch.holdValid.toNat
  phd : s.Runs .phd → s.regs.ocnt = 0 ∧
    (s.latch.hpos < s.params.msgMin → s.regs.icnt = BitVec.ofNat 16 s.latch.hpos)
  str : s.Runs .str →
    (s.latch.hpos < s.params.msgMin →
      s.regs.ocnt = 0 ∧ s.regs.icnt = BitVec.ofNat 16 s.latch.hpos) ∧
    (s.latch.hpos = s.params.msgMin →
      s.regs.ocnt = if s.latch.pass then s.regs.icnt else s.regs.icnt - 8)
  att : s.Runs .att → s.regs.ocnt = s.regs.icnt + 8
  ckc : s.Runs .ckc → s.regs.ocnt = 0 ∧ s.latch.holdValid = isOdd s.regs.icnt
  ckv : s.Runs .ckv → s.regs.ocnt = 0 ∧ s.latch.holdValid = isOdd s.regs.icnt
  ckt : s.Runs .ckt → s.regs.ocnt = 0 ∧
    (s.latch.dcnt.val < 2 →
      s.regs.icnt = BitVec.ofNat 16 s.latch.dcnt.val ∧ s.latch.holdValid = false) ∧
    (s.latch.dcnt.val = 2 → s.latch.holdValid = isOdd s.regs.icnt)
  cka : s.Runs .cka → s.regs.ocnt = s.regs.icnt ∧ s.latch.holdValid = isOdd s.regs.icnt

/-- The block is idle after the stream command `i`: `DONE = 1` and `CMD` still holds its byte. -/
def State.Ended (i : Instr) (s : State) : Prop :=
  s.regs.stat.busy = false ∧ s.regs.stat.done = true ∧ s.regs.cmd = encode i

/-- "At `DONE = 1`, per command, the counters satisfy" these equations modulo 65536 (60_exceptions.md R261).
The line of `SPL`, which counts terminators of the input, is part of the contract of `SPL`. -/
structure State.FinalCounts (s : State) : Prop where
  exp : s.Ended .exp → s.regs.ocnt = 2 * s.regs.icnt
  col : s.Ended .col → s.regs.icnt = 2 * s.regs.ocnt + (if s.regs.stat.fail then 1 else 0)
  phd : s.Ended .phd → s.regs.ocnt = 0
  str : s.Ended .str →
    (s.regs.stat.fail = true → s.regs.ocnt = 0) ∧
    (s.regs.stat.fail = false →
      s.regs.ocnt = if s.latch.pass then s.regs.icnt else s.regs.icnt - 8)
  att : s.Ended .att → s.regs.ocnt = s.regs.icnt + 9
  ckc : s.Ended .ckc → s.regs.ocnt = 0
  ckv : s.Ended .ckv → s.regs.ocnt = 0
  ckt : s.Ended .ckt → s.regs.ocnt = 0
  cka : s.Ended .cka → s.regs.ocnt = s.regs.icnt + (if s.regs.stat.fail then 0 else 2)

/-- The counters' invariant; it rests on the control invariant. -/
structure State.CounterInv (s : State) : Prop where
  control : s.ControlInv
  header : s.HeaderInv
  running : s.RunningCounts
  final : s.FinalCounts

/-- The states a run reaches: from reset, with any parameters that fit and any outside world whatever, by steps. -/
inductive State.Reachable : State → Prop
  | start (P : Params) (h : HostSide) : P.Fits → State.Reachable { State.resetWith P with host := h }
  | next (s t : State) : State.Reachable s → step s = .next t → State.Reachable t

end Sys2Proof.Machine
end

