-- ==== Sys2Proof/Certificates/Slice0/Obligations.lean ====
section
/-! DEFINITION. The statements for the provers, each a proposition about the machine taken from the numbered
rules of spec/. -/

open Sys2Proof Sys2Proof.Machine

/-! ### Encoding -/

/-- R98: for every byte, the decoder gives the row of the table whose pattern matches it, or `reserved` when
none does; so no two patterns overlap. -/
def Obligations.DecoderFollowsOpcodeTable : Prop :=
  ∀ c : Byte,
    (rowsMatching c).map OpRow.mnemonic =
      match decode c with
      | .command i => [i.mnemonic]
      | .reserved => []

/-- Words written out from the byte and pattern columns of R96. -/
def Obligations.TableWordsDecode : Prop :=
  decode 0b00000000 = .command .nop ∧ decode 0b00000001 = .command .clr ∧
  decode 0b00010011 = .command (.bit 3) ∧ decode 0b00101111 = .command (.wbit 7 true) ∧
  decode 0b00100111 = .command (.wbit 7 false) ∧ decode 0b00110010 = .command .tos ∧
  decode 0b01000001 = .command .col ∧ decode 0b01010010 = .command .ckt ∧
  decode 0b01100010 = .command .str ∧ decode 0b00011000 = .reserved ∧ decode 0b01110000 = .reserved

/-- Decoding and encoding agree in both directions. -/
def Obligations.DecodeEncodeAgree : Prop :=
  (∀ i : Instr, i.wf = true → decode (encode i) = .command i) ∧
  (∀ (c : Byte) (i : Instr), decode c = .command i → i.wf = true ∧ encode i = c)

/-- R97: the 216 bytes of the seven ranges, and no others, are reserved; written while idle such a byte sets
ILLCMD and its code and changes nothing else, written while busy it is rejected as BUSYWR. -/
def Obligations.ReservedBytesRejected : Prop :=
  (∀ c : Byte, decode c = .reserved ↔
    (0x02 ≤ c.toNat ∧ c.toNat ≤ 0x0F) ∨ (0x18 ≤ c.toNat ∧ c.toNat ≤ 0x1F) ∨
    (0x34 ≤ c.toNat ∧ c.toNat ≤ 0x3F) ∨ (0x42 ≤ c.toNat ∧ c.toNat ≤ 0x4F) ∨
    (0x54 ≤ c.toNat ∧ c.toNat ≤ 0x5F) ∨ (0x64 ≤ c.toNat ∧ c.toNat ≤ 0x6F) ∨
    (0x70 ≤ c.toNat ∧ c.toNat ≤ 0xFF)) ∧
  (∀ (c : Byte) (s : State), decode c = .reserved → s.Idle →
    writePort 0x00 c s = .next { s with regs.err := s.regs.err ||| 0x01, regs.cause := 0x10 }) ∧
  (∀ (c : Byte) (s : State), decode c = .reserved → ¬ s.Idle →
    writePort 0x00 c s = .next { s with regs.err := s.regs.err ||| 0x02, regs.cause := 0x11 })

/-! ### Steps and ports -/

/-- A step whose next action is the write of a defined command byte to `CMD` runs that command. -/
def Obligations.StepRunsDecodedCommand : Prop :=
  (∀ (s : State) (c : Byte) (i : Instr) (rest : List HostAct),
    s.host.acts = .regWrite 0x00 c :: rest → decode c = .command i →
    step s = exec i { s with host.acts := rest }) ∧
  (∀ (s : State) (w : Nat) (i : Instr), w < 256 → decodeTableWord 8 w = some i →
    step (s.withFetchWord 8 w) = exec i s)

/-- R70: the five transitions, each by its action; with nothing scheduled and nothing to accept, nothing happens. -/
def Obligations.StepPerformsScheduledTransition : Prop :=
  ∀ (s : State) (rest : List HostAct),
    (s.host.acts = [] → s.Idle ∨ s.host.inq = [] → step s = .next s) ∧
    (∀ a v, s.host.acts = .regWrite a v :: rest → step s = writePort a v { s with host.acts := rest }) ∧
    (∀ a, s.host.acts = .regRead a :: rest → step s = .next { s with
      host.acts := rest, host.rdata := s.host.rdata ++ [(a, readPort s a)] }) ∧
    (s.host.acts = .reset :: rest → step s = .next { State.resetWith s.params with
      host := { s.host with acts := rest } }) ∧
    (∀ t q, s.host.acts = .input :: rest → s.host.inq = t :: q → s.regs.stat.busy = true →
      step s = acceptToken t { s with host.acts := rest, host.inq := q }) ∧
    (∀ t q, s.host.acts = .output :: rest → s.oq = t :: q →
      step s = .next { s with host.acts := rest, oq := q, host.taken := s.host.taken ++ [t] })

/-- R289 (in the model, log 20): a busy block accepts an offered token at once when the host has nothing else
scheduled, and at the latest after the host's scheduled actions, unless one of them ends the command; the head of a
non-empty output queue is offered, and stays offered until it is taken or dropped by `Reset`. -/
def Obligations.OfferedTokenIsAccepted : Prop :=
  (∀ (s : State) (t : InToken) (q : List InToken), s.host.acts = [] → s.host.inq = t :: q →
    s.regs.stat.busy = true → step s = acceptToken t { s with host.inq := q }) ∧
  (∀ s : State, s.ControlInv → s.regs.stat.busy = true → s.host.inq ≠ [] →
    ∃ k u, k ≤ s.host.acts.length ∧ Host.Core.run core k s = .next u ∧
      (u.Idle ∨ ∃ t q, u.regs.stat.busy = true ∧ u.host.inq = t :: q ∧
        step u = acceptToken t { u with host.inq := q, host.acts := u.host.acts.tail })) ∧
  (∀ (s : State) (t : OutToken) (q : List OutToken), s.oq = t :: q → offeredOutput s = some t ∧
    (∀ u, step s = .next u → s.host.acts.head? ≠ some .output → s.host.acts.head? ≠ some .reset →
      offeredOutput u = some t))

/-- R76: an `In` while idle consumes nothing and loses nothing; the waiting token is the first one the next
stream command accepts. -/
def Obligations.TokenWaitsWhileIdle : Prop :=
  (∀ (s : State) (rest : List HostAct), s.host.acts = .input :: rest → s.Idle →
    step s = .next { s with host.acts := rest }) ∧
  (∀ (s : State) (i : Instr) (rest : List HostAct) (t : InToken) (q : List InToken),
    i.isStream = true → s.Idle → s.host.acts = .regWrite 0x00 (encode i) :: .input :: rest →
    s.host.inq = t :: q →
    ∃ u, step s = .next u ∧ u.host.inq = t :: q ∧
      step u = acceptToken t { u with host.acts := rest, host.inq := q })

/-- R62: the 9-bit items of the stream ports. -/
def Obligations.PortItemsCarryTokens : Prop :=
  (∀ b : Byte, inTokenOf (0#1 ++ b) = .B b ∧ itemOf (.B b) = 0#1 ++ b) ∧
  (∀ d : Byte, inTokenOf (1#1 ++ d) = .EOS ∧ itemOf (.EOS d) = 1#1 ++ d) ∧
  (∀ (s : State) (item : BitVec 9) (rest : List HostAct), s.host.acts = .offer item :: rest →
    step s = .next { s with host.acts := rest, host.inq := s.host.inq ++ [inTokenOf item] })

/-! ### Registers -/

/-- R266: the state after `Reset`, register by register through the port, latches and queue, from any state of a
machine with the default parameters. -/
def Obligations.ResetState : Prop :=
  ∀ s : State, s.params = Config.params →
    ∃ t, perform .reset s = .next t ∧
      readPort t 0x00 = 0x00 ∧ readPort t 0x01 = 0x00 ∧ readPort t 0x02 = 0x00 ∧
      readPort t 0x03 = 0x00 ∧ readPort t 0x04 = 0xF7 ∧ readPort t 0x10 = 0x01 ∧
      (∀ a : BitVec 5, 0x05 ≤ a.toNat → a ≠ 0x10 → readPort t a = 0x00) ∧
      t.latch.holdValid = false ∧ t.latch.dcnt = 0 ∧ t.latch.segOpen = false ∧ t.latch.hpos = 0 ∧
      t.latch.pass = false ∧ t.latch.sum = 0 ∧ t.latch.hold = 0 ∧ t.latch.d0 = 0 ∧ t.latch.d1 = 0 ∧
      t.latch.hb = [0, 0, 0, 0, 0, 0, 0, 0] ∧ t.oq = []

/-- R6, R46, R50: `State.reset`, every parameter, register and latch; and the state after reset satisfies the
invariants, whatever parameters that fit. -/
def Obligations.ResetIsTheResetState : Prop :=
  State.reset =
    { params := {
        cksConst := 0x5A3C, sox := 0xF0, eox := 0xF7, funcOneBlock := 0x20, ss1Single := 0x00, hdrFields := 7,
        msgMin := 8, bodyLen := 492, bankSize := 12, banks := 4, extBase := 48 }
      regs := {
        cmd := 0x00
        stat := {
          busy := false, done := false, fail := false, matched := false, hdrv := false, unterm := false }
        err := 0x00, cause := 0x00, term := 0xF7, opa := 0x00, opb := 0x00, res0 := 0x00, res1 := 0x00
        hdr := {
          mfr := 0x00, chan := 0x00, func := 0x00, group := 0x00, mach := 0x00, ss1 := 0x00, ss2 := 0x00 }
        explo := 0x00, exphi := 0x00, cks := 0x0000, icnt := 0x0000, ocnt := 0x0000, segcnt := 0x0000 }
      latch := {
        hold := 0x00, holdValid := false, sum := 0x0000, d0 := 0x00, d1 := 0x00, dcnt := 0, segOpen := false
        hpos := 0, hb := [0, 0, 0, 0, 0, 0, 0, 0], pass := false }
      oq := []
      host := { acts := [], inq := [], rdata := [], taken := [] } } ∧
  readPort State.reset 0x01 = 0x00 ∧ readPort State.reset 0x10 = 0x01 ∧
  (∀ P : Params, P.Fits → (State.resetWith P).Idle ∧ (State.resetWith P).ControlInv ∧
    (State.resetWith P).HeaderInv ∧ (State.resetWith P).CounterInv) ∧
  Config.params.Fits

/-- R24: reserved addresses, read-only registers and reserved bits. -/
def Obligations.ReservedAndReadOnlyLocations : Prop :=
  (∀ (s : State) (a : BitVec 5), 0x1B ≤ a.toNat → readPort s a = 0x00) ∧
  (∀ (s : State) (a : BitVec 5) (v : Byte), 0x1B ≤ a.toNat → writePort a v s = .next s) ∧
  (∀ (s : State) (r : Reg) (v : Byte), access r = .ro → writePort (addr r) v s = .next s) ∧
  (∀ (s : State), s.ControlInv →
    readPort s 0x01 &&& 0x80 = 0 ∧ readPort s 0x02 &&& 0xC0 = 0)

/-- R71: a write to an `RW` register while idle is read back there, and no other address but the two computed
ones (`STAT.ROUTE`, `PROG`) reads differently; a write to `ERR` clears exactly the written ones, at any time. -/
def Obligations.ConfigurationWrites : Prop :=
  (∀ (s : State) (r : Reg) (v : Byte), access r = .rw → s.Idle →
    ∃ t, writePort (addr r) v s = .next t ∧ readPort t (addr r) = v ∧
      (∀ r', r' ≠ r → r' ≠ .stat → r' ≠ .prog → readPort t (addr r') = readPort s (addr r')) ∧
      t.regs.stat = s.regs.stat ∧ t.latch = s.latch ∧ t.oq = s.oq ∧ t.host = s.host ∧
      t.params = s.params) ∧
  (∀ (s : State) (v : Byte),
    writePort 0x02 v s = .next { s with regs.err := s.regs.err &&& ~~~v })

/-- R250: what is rejected while busy, with what effect, and what is not rejected. -/
def Obligations.BusyWritesRejected : Prop :=
  ∀ (s : State) (v : Byte), ¬ s.Idle →
    (v ≠ 0x01 →
      writePort 0x00 v s = .next { s with regs.err := s.regs.err ||| 0x02, regs.cause := 0x11 }) ∧
    (∀ a : BitVec 5, a ∈ [0x04, 0x05, 0x06, 0x09, 0x0A, 0x0B, 0x0C, 0x0D, 0x0E, 0x0F, 0x11, 0x12] →
      writePort a v s = .next { s with regs.err := s.regs.err ||| 0x02, regs.cause := 0x11 }) ∧
    writePort 0x02 v s = .next { s with regs.err := s.regs.err &&& ~~~v } ∧
    (∀ a : BitVec 5,
      a ∈ [0x01, 0x03, 0x07, 0x08, 0x10, 0x13, 0x14, 0x15, 0x16, 0x17, 0x18, 0x19, 0x1A, 0x1B, 0x1C,
        0x1D, 0x1E, 0x1F] → writePort a v s = .next s)

/-- R23, R26, R31, R32, R67: what each of the 32 addresses reads: the registers at their addresses, the bits of
`STAT`, the low byte of a 16-bit register at the lower address, and zero at the reserved ones; and the defaults of the
two values `ROUTE` compares with. -/
def Obligations.RegisterLayout : Prop :=
  (Config.params.funcOneBlock = 0x20 ∧ Config.params.ss1Single = 0x00 ∧
    (readPort State.reset 0x01).getLsbD 4 = false) ∧
  ∀ s : State,
    readPort s 0x00 = s.regs.cmd ∧
    (readPort s 0x01).getLsbD 0 = s.regs.stat.busy ∧
    (readPort s 0x01).getLsbD 1 = s.regs.stat.done ∧
    (readPort s 0x01).getLsbD 2 = s.regs.stat.fail ∧
    (readPort s 0x01).getLsbD 3 = s.regs.stat.matched ∧
    ((readPort s 0x01).getLsbD 4 = true ↔
      s.regs.hdr.func = s.params.funcOneBlock ∧ s.regs.hdr.ss1 = s.params.ss1Single) ∧
    (readPort s 0x01).getLsbD 5 = s.regs.stat.hdrv ∧
    (readPort s 0x01).getLsbD 6 = s.regs.stat.unterm ∧
    (readPort s 0x01).getLsbD 7 = false ∧
    readPort s 0x02 = s.regs.err ∧
    readPort s 0x03 = s.regs.cause ∧
    readPort s 0x04 = s.regs.term ∧
    readPort s 0x05 = s.regs.opa ∧
    readPort s 0x06 = s.regs.opb ∧
    readPort s 0x07 = s.regs.res0 ∧
    readPort s 0x08 = s.regs.res1 ∧
    readPort s 0x09 = s.regs.hdr.mfr ∧
    readPort s 0x0A = s.regs.hdr.chan ∧
    readPort s 0x0B = s.regs.hdr.func ∧
    readPort s 0x0C = s.regs.hdr.group ∧
    readPort s 0x0D = s.regs.hdr.mach ∧
    readPort s 0x0E = s.regs.hdr.ss1 ∧
    readPort s 0x0F = s.regs.hdr.ss2 ∧
    readPort s 0x10 = progDecode s.params s.regs.hdr.ss2 ∧
    readPort s 0x11 = s.regs.explo ∧
    readPort s 0x12 = s.regs.exphi ∧
    readPort s 0x14 ++ readPort s 0x13 = s.regs.cks ∧
    readPort s 0x16 ++ readPort s 0x15 = s.regs.icnt ∧
    readPort s 0x18 ++ readPort s 0x17 = s.regs.ocnt ∧
    readPort s 0x1A ++ readPort s 0x19 = s.regs.segcnt ∧
    (∀ a : BitVec 5, 0x1B ≤ a.toNat → readPort s a = 0x00)

/-- R110, R183: `PROG` inverts the wire's program encoding, and a value that names no bank is marked invalid; for any
banks that fit the fields of `PROG`, the defaults (12 slots, 4 banks, external from 48, none from 96) among them. That
the invalid values begin at `2 * BANKS * BANK_SIZE` is the model's reading (log 11, DEDUCED) for other parameters than
the defaults, for which R183 says 96. -/
def Obligations.ProgramNumberDecoded : Prop :=
  (Config.params.bankSize = 12 ∧ Config.params.banks = 4 ∧ Config.params.extBase = 48) ∧
  (∀ (s : State) (ext : Bool) (bank slot : Nat),
    s.params.bankSize ≤ 15 → s.params.banks ≤ 4 → s.params.extBase = s.params.banks * s.params.bankSize →
    bank < s.params.banks → 1 ≤ slot → slot ≤ s.params.bankSize →
    s.regs.hdr.ss2 =
      BitVec.ofNat 8 (s.params.extBase * ext.toNat + s.params.bankSize * bank + (slot - 1)) →
    (readPort s 0x10).toNat = 64 * ext.toNat + 16 * bank + slot) ∧
  (∀ s : State, 2 * s.params.banks * s.params.bankSize ≤ s.regs.hdr.ss2.toNat → readPort s 0x10 = 0x80)

/-! ### Control and utility commands: results, with everything they leave unchanged -/

/-- R221: `NOP` does nothing beyond acceptance; while busy it is rejected. -/
def Obligations.NopOnlyCompletes : Prop :=
  (∀ s : State, s.Idle →
    exec .nop s = .next { s with regs.cmd := 0x00, regs.stat.done := true, regs.stat.fail := false }) ∧
  (∀ s : State, ¬ s.Idle →
    exec .nop s = .next { s with regs.err := s.regs.err ||| 0x02, regs.cause := 0x11 })

/-- R222, R223: `CLR` from any state, busy or idle: registers and latches at reset, the queue kept and extended
by the abort mark exactly when a buffer was open; `Reset` differs in the queue only, which it empties. -/
def Obligations.ClrResetsAndAborts : Prop :=
  ∀ s : State,
    exec .clr s = .next { State.resetWith s.params with
      oq := s.oq ++ (if s.latch.segOpen then [.EOS 0x1F] else [])
      host := s.host } ∧
    perform .reset s = .next { State.resetWith s.params with oq := [], host := s.host }

/-- R126, R127: `BIT i` and `WBIT i, v`. -/
def Obligations.BitCommandResults : Prop :=
  ∀ (s : State) (i : Nat), i < 8 → s.Idle →
    exec (.bit i) s = .next { s with
      regs.cmd := BitVec.ofNat 8 (0x10 + i)
      regs.stat.done := true
      regs.stat.fail := false
      regs.res0 := if s.regs.opa.getLsbD i then 0x01 else 0x00
      regs.res1 := 0x00 } ∧
    (∀ v : Bool, exec (.wbit i v) s = .next { s with
      regs.cmd := BitVec.ofNat 8 (0x20 + 8 * v.toNat + i)
      regs.stat.done := true
      regs.stat.fail := false
      regs.res0 := if v then s.regs.opa ||| (1#8 <<< i) else s.regs.opa &&& ~~~(1#8 <<< i)
      regs.res1 := 0x00 })

/-- R128, R129: `NYB` and `BFN`. -/
def Obligations.NybbleCommandResults : Prop :=
  ∀ s : State, s.Idle →
    exec .nyb s = .next { s with
      regs.cmd := 0x30
      regs.stat.done := true
      regs.stat.fail := false
      regs.res0 := s.regs.opa >>> 4
      regs.res1 := s.regs.opa &&& 0x0F } ∧
    exec .bfn s = .next { s with
      regs.cmd := 0x31
      regs.stat.done := true
      regs.stat.fail := false
      regs.res0 := ((s.regs.opa &&& 0x0F) <<< 4) ||| (s.regs.opb &&& 0x0F)
      regs.res1 := 0x00 }

/-- R130, R131: `TOS` sign-extends, `FRS` reduces modulo 256. -/
def Obligations.SignCommandResults : Prop :=
  ∀ s : State, s.Idle →
    (exec .tos s = .next { s with
      regs.cmd := 0x32
      regs.stat.done := true
      regs.stat.fail := false
      regs.res0 := (s.regs.opa.signExtend 16).extractLsb' 0 8
      regs.res1 := (s.regs.opa.signExtend 16).extractLsb' 8 8 }) ∧
    (s.regs.opa.signExtend 16).toInt = toSigned s.regs.opa ∧
    (exec .frs s = .next { s with
      regs.cmd := 0x33
      regs.stat.done := true
      regs.stat.fail := false
      regs.res0 := s.regs.opa
      regs.res1 := 0x00 }) ∧
    ((s.regs.opa.toNat : Int) = ((s.regs.opb ++ s.regs.opa).toInt) % 256)

/-- R132: the host's copy of the results of `TOS` back to the operands makes `FRS` return the byte; the copy of
the results of `NYB` makes `BFN` return it (R124). -/
def Obligations.UtilityRoundTrips : Prop :=
  ∀ s : State, s.Idle →
    (∃ t u, exec .tos s = .next t ∧
      exec .frs { t with regs.opa := t.regs.res0, regs.opb := t.regs.res1 } = .next u ∧
      u.regs.res0 = s.regs.opa) ∧
    (∃ t u, exec .nyb s = .next t ∧
      exec .bfn { t with regs.opa := t.regs.res0, regs.opb := t.regs.res1 } = .next u ∧
      u.regs.res0 = s.regs.opa) ∧
    (-128 ≤ signedOperand s.regs → signedOperand s.regs ≤ 127 →
      ∃ t u, exec .frs s = .next t ∧ exec .tos { t with regs.opa := t.regs.res0 } = .next u ∧
        (u.regs.res1 ++ u.regs.res0).toInt = signedOperand s.regs)

/-- R122 to R125: the six utility functions by their formulas, the laws K5T states of them, and that `withBit`
changes no other bit. -/
def Obligations.UtilityFunctionLaws : Prop :=
  (∀ (x : Byte) (i : Nat) (v : Bool), i < 8 →
    bitAt x i = ((x >>> i) &&& 1#8 == 1#8) ∧
    withBit x i true = x ||| (1#8 <<< i) ∧ withBit x i false = x &&& ~~~(1#8 <<< i) ∧
    withBit (withBit x i true) i true = withBit x i true ∧
    bitAt (withBit x i v) i = v ∧
    (∀ j, j < 8 → j ≠ i → bitAt (withBit x i v) j = bitAt x j)) ∧
  (∀ b : Byte, nybbles b = (b >>> 4, b &&& 0x0F) ∧ (nybbles b).1.toNat ≤ 15 ∧
    (nybbles b).2.toNat ≤ 15 ∧ byteFromNybbles (nybbles b).1 (nybbles b).2 = b) ∧
  (∀ h l : Byte, byteFromNybbles h l = ((h &&& 0x0F) <<< 4) ||| (l &&& 0x0F) ∧
    nybbles (byteFromNybbles h l) = (h &&& 0x0F, l &&& 0x0F)) ∧
  (∀ b : Byte, (b.toNat ≤ 127 → toSigned b = b.toNat) ∧
    (128 ≤ b.toNat → toSigned b = (b.toNat : Int) - 256) ∧
    fromSigned (toSigned b) = b ∧ -128 ≤ toSigned b ∧ toSigned b ≤ 127) ∧
  (∀ s : Int, ((fromSigned s).toNat : Int) = s % 256 ∧
    (-128 ≤ s → s ≤ 127 → toSigned (fromSigned s) = s))

/-! ### Stream commands: acceptance -/

/-- The state a stream command leaves at its acceptance before its own start: R216 and the common start of
R219. -/
def streamStarted (c : Byte) (segOpen : Bool) (s : State) : State :=
  { s with
    regs.cmd := c
    regs.stat.busy := true
    regs.stat.done := false
    regs.stat.fail := false
    regs.icnt := 0
    regs.ocnt := 0
    latch.holdValid := false
    latch.sum := 0
    latch.dcnt := 0
    latch.hpos := 0
    latch.pass := false
    latch.segOpen := segOpen }

/-- R219, `EXP` and `COL`. -/
def Obligations.TranscoderCommandsStart : Prop :=
  ∀ s : State, s.Idle →
    exec .exp s = .next (streamStarted 0x40 true s) ∧ exec .col s = .next (streamStarted 0x41 true s)

/-- R219, `CKC`, `CKV`, `CKT` and `CKA`. -/
def Obligations.ChecksumCommandsStart : Prop :=
  ∀ s : State, s.Idle →
    exec .ckc s = .next (streamStarted 0x50 false s) ∧
    exec .ckv s = .next { streamStarted 0x51 false s with
      regs.stat := { (streamStarted 0x51 false s).regs.stat with matched := false } } ∧
    exec .ckt s = .next { streamStarted 0x52 false s with
      regs.stat := { (streamStarted 0x52 false s).regs.stat with matched := false } } ∧
    exec .cka s = .next (streamStarted 0x53 true s)

/-- R219, `SPL`, `PHD`, `STR` and `ATT`. -/
def Obligations.FramerCommandsStart : Prop :=
  ∀ s : State, s.Idle →
    exec .spl s = .next { streamStarted 0x60 false s with
      regs.segcnt := 0
      regs.stat := { (streamStarted 0x60 false s).regs.stat with unterm := false } } ∧
    exec .phd s = .next { streamStarted 0x61 false s with
      regs.stat := { (streamStarted 0x61 false s).regs.stat with hdrv := false } } ∧
    exec .str s = .next { streamStarted 0x62 true s with
      regs.stat := { (streamStarted 0x62 true s).regs.stat with hdrv := false } } ∧
    exec .att s = .next { streamStarted 0x63 true s with
      regs.ocnt := 8
      oq := s.oq ++ [.B s.params.sox, .B s.regs.hdr.mfr, .B s.regs.hdr.chan, .B s.regs.hdr.func,
        .B s.regs.hdr.group, .B s.regs.hdr.mach, .B s.regs.hdr.ss1, .B s.regs.hdr.ss2] }

/-! ### Stream commands: their contracts over whole buffers -/

/-- The registers after a stream command that came to its end: `CMD`, the mode and completion flags and the
transfer counters changed from `r`, every other register as in `r`. -/
def regsEnded (c : Byte) (fail : Bool) (icnt ocnt : Nat) (r : Regs) : Regs :=
  { r with
    cmd := c
    stat.busy := false
    stat.done := true
    stat.fail := fail
    icnt := BitVec.ofNat 16 icnt
    ocnt := BitVec.ofNat 16 ocnt }

/-- R245: what a fatal fault writes to the registers beside ending the command. -/
def regsFaulted (errBits code : Byte) (r : Regs) : Regs :=
  { r with err := r.err ||| errBits, cause := code }

/-- R144: `EXP` emits `expand` of its input, closed by `EOS(0x00)`, and leaves all else alone. -/
def Obligations.ExpandContract : Prop :=
  ∀ (s : State) (x : List Byte), s.Idle →
    ∃ t, runCommand .exp x s = .next t ∧
      t.oq = s.oq ++ (expand x).map .B ++ [.EOS 0x00] ∧
      t.regs = regsEnded 0x40 false x.length (2 * x.length) s.regs ∧
      t.host = s.host ∧ t.latch.segOpen = false

/-- R145: `COL` emits `collapse` of an even-length input, closed by `EOS(0x00)`; an odd length ends in the fault
LENGTH, what was emitted is `collapse` of the complete pairs, closed by `EOS(0x12)`, and a consumer keeps nothing of
it (R105). -/
def Obligations.CollapseContract : Prop :=
  ∀ (s : State) (y : List Byte), s.Idle →
    ∃ t, runCommand .col y s = .next t ∧ t.host = s.host ∧ t.latch.segOpen = false ∧
      (∀ x, collapse y = .ok x →
        t.oq = s.oq ++ x.map .B ++ [.EOS 0x00] ∧
        t.regs = regsEnded 0x41 false y.length (y.length / 2) s.regs) ∧
      (∀ e, collapse y = .error e →
        (∃ x : List Byte, collapse y.dropLast = .ok x ∧ t.oq = s.oq ++ x.map .B ++ [.EOS 0x12] ∧
          deliver (x.map .B ++ [.EOS 0x12]) = []) ∧
        t.regs = regsFaulted 0x04 0x12 (regsEnded 0x41 true y.length (y.length / 2) s.regs))

/-- R168: `SPL` emits the segments of `split`, each closed by `EOS(0x00)`. -/
def Obligations.SplitContract : Prop :=
  ∀ (s : State) (x : List Byte), s.Idle →
    ∃ t, runCommand .spl x s = .next t ∧
      t.oq = s.oq ++ (split x s.regs.term).flatMap (fun g => g.map .B ++ [.EOS 0x00]) ∧
      t.regs = { regsEnded 0x60 false x.length (x.length - x.count s.regs.term) s.regs with
        segcnt := BitVec.ofNat 16 (split x s.regs.term).length
        stat.unterm := match x.getLast? with
          | none => false
          | some b => b != s.regs.term } ∧
      t.host = s.host ∧ t.latch.segOpen = false

/-- R171: `PHD` commits the header of a message of `MSG_MIN` bytes or more; a shorter one ends in the fault TRUNC
with the header registers as they were. It emits no token. -/
def Obligations.ParseHeaderContract : Prop :=
  ∀ (s : State) (m : List Byte), s.Idle → s.params.Fits →
    ∃ t, runCommand .phd m s = .next t ∧ t.oq = s.oq ∧ t.host = s.host ∧ t.latch.segOpen = false ∧
      (∀ h, parseHeader s.params m = .ok h →
        t.regs = { regsEnded 0x61 false m.length 0 s.regs with hdr := h, stat.hdrv := true } ∧
        route t.params t.regs = carriesPatch s.params h) ∧
      (∀ e, parseHeader s.params m = .error e →
        t.regs = regsFaulted 0x08 0x13
          { regsEnded 0x61 true m.length 0 s.regs with stat.hdrv := false })

/-- R172: `STR` delivers the payload of a patch message with `EOS(0x00)`, any other message whole with
`EOS(0x01)`, and a truncated one as `EOS(0x13)` alone. -/
def Obligations.StripContract : Prop :=
  ∀ (s : State) (m : List Byte), s.Idle → s.params.Fits →
    ∃ t, runCommand .str m s = .next t ∧ t.host = s.host ∧ t.latch.segOpen = false ∧
      (∀ h p, strip s.params m = .ok (.patch h p) →
        t.oq = s.oq ++ p.map .B ++ [.EOS 0x00] ∧
        t.regs = { regsEnded 0x62 false m.length (m.length - 8) s.regs with
          hdr := h, stat.hdrv := true }) ∧
      (∀ h q, strip s.params m = .ok (.pass h q) →
        q = m ∧ t.oq = s.oq ++ m.map .B ++ [.EOS 0x01] ∧
        t.regs = { regsEnded 0x62 false m.length m.length s.regs with hdr := h, stat.hdrv := true }) ∧
      (∀ e, strip s.params m = .error e →
        t.oq = s.oq ++ [.EOS 0x13] ∧
        t.regs = regsFaulted 0x08 0x13
          { regsEnded 0x62 true m.length 0 s.regs with stat.hdrv := false })

/-- R178: `ATT` emits `attach` of the header registers at acceptance and the input. -/
def Obligations.AttachContract : Prop :=
  ∀ (s : State) (p : List Byte), s.Idle →
    ∃ t, runCommand .att p s = .next t ∧
      t.oq = s.oq ++ (attach s.params s.regs.hdr p).map .B ++ [.EOS 0x00] ∧
      t.regs = regsEnded 0x63 false p.length (p.length + 9) s.regs ∧
      t.host = s.host ∧ t.latch.segOpen = false

/-- R197: `CKC` leaves `compute` of an even-length span in `CKS`; an odd span ends in ODDSPAN with `CKS` as it
was. -/
def Obligations.ComputeContract : Prop :=
  ∀ (s : State) (x : List Byte), s.Idle →
    ∃ t, runCommand .ckc x s = .next t ∧ t.oq = s.oq ∧ t.host = s.host ∧ t.latch.segOpen = false ∧
      (∀ c, compute s.params x = .ok c →
        t.regs = { regsEnded 0x50 false x.length 0 s.regs with cks := c }) ∧
      (∀ e, compute s.params x = .error e →
        t.regs = regsFaulted 0x20 0x15 (regsEnded 0x50 true x.length 0 s.regs))

/-- R198: `CKV` compares `compute` of an even-length span with `EXPHI ++ EXPLO`; a mismatch is reported and the
command completes. -/
def Obligations.VerifyContract : Prop :=
  ∀ (s : State) (x : List Byte), s.Idle →
    ∃ t, runCommand .ckv x s = .next t ∧ t.oq = s.oq ∧ t.host = s.host ∧ t.latch.segOpen = false ∧
      (∀ c, compute s.params x = .ok c →
        verify s.params x s.regs.explo s.regs.exphi = .ok t.regs.stat.matched ∧
        t.regs = (if c = s.regs.exphi ++ s.regs.explo then
            { regsEnded 0x51 false x.length 0 s.regs with cks := c, stat.matched := true }
          else regsFaulted 0x10 0x14
            { regsEnded 0x51 false x.length 0 s.regs with cks := c, stat.matched := false })) ∧
      (∀ e, compute s.params x = .error e →
        t.regs = regsFaulted 0x20 0x15
          { regsEnded 0x51 true x.length 0 s.regs with stat.matched := false })

/-- R199: `CKT` compares `compute` of all but the last two bytes with those two, which it leaves in `EXPLO` and
`EXPHI`; fewer than two bytes end in TRUNC, an odd number of three or more in ODDSPAN. -/
def Obligations.VerifyTrailingContract : Prop :=
  ∀ (s : State) (y : List Byte), s.Idle →
    ∃ t, runCommand .ckt y s = .next t ∧ t.oq = s.oq ∧ t.host = s.host ∧ t.latch.segOpen = false ∧
      (∀ (x : List Byte) (lo hi : Byte) (c : Word), y = x ++ [lo, hi] →
        compute s.params x = .ok c →
        verifyTrailing s.params y = .ok t.regs.stat.matched ∧
        t.regs = (if c = hi ++ lo then
            { regsEnded 0x52 false y.length 0 s.regs with
              cks := c, explo := lo, exphi := hi, stat.matched := true }
          else regsFaulted 0x10 0x14
            { regsEnded 0x52 false y.length 0 s.regs with
              cks := c, explo := lo, exphi := hi, stat.matched := false })) ∧
      (y.length < 2 →
        t.regs = regsFaulted 0x08 0x13
          { regsEnded 0x52 true y.length 0 s.regs with stat.matched := false }) ∧
      (3 ≤ y.length → y.length % 2 = 1 →
        t.regs = regsFaulted 0x20 0x15
          { regsEnded 0x52 true y.length 0 s.regs with stat.matched := false })

/-- R200: `CKA` copies its input and appends the checksum, low byte first; an odd span closes the copy with
`EOS(0x15)`. -/
def Obligations.AppendContract : Prop :=
  ∀ (s : State) (x : List Byte), s.Idle →
    ∃ t, runCommand .cka x s = .next t ∧ t.host = s.host ∧ t.latch.segOpen = false ∧
      (∀ y c, appendChecksum s.params x = .ok y → compute s.params x = .ok c →
        t.oq = s.oq ++ y.map .B ++ [.EOS 0x00] ∧
        t.regs = { regsEnded 0x53 false x.length (x.length + 2) s.regs with cks := c }) ∧
      (∀ e, appendChecksum s.params x = .error e →
        t.oq = s.oq ++ x.map .B ++ [.EOS 0x15] ∧
        t.regs = regsFaulted 0x20 0x15 (regsEnded 0x53 true x.length x.length s.regs))

/-- R105, with the contracts of R144, R145, R168, R172, R178 and R200: what a consumer keeps of the tokens a
writing command emits is the result of K5T's pure function, and nothing where that function fails. -/
def Obligations.ConsumerSeesPureFunctions : Prop :=
  ∀ (s : State) (x : List Byte), s.Idle →
    (∃ t e, runCommand .exp x s = .next t ∧ t.oq = s.oq ++ e ∧ deliver e = [expand x]) ∧
    (∃ t e, runCommand .col x s = .next t ∧ t.oq = s.oq ++ e ∧
      deliver e = (match collapse x with
        | .ok y => [y]
        | .error _ => [])) ∧
    (∃ t e, runCommand .spl x s = .next t ∧ t.oq = s.oq ++ e ∧ deliver e = split x s.regs.term) ∧
    (s.params.Fits → ∃ t e, runCommand .str x s = .next t ∧ t.oq = s.oq ++ e ∧
      deliver e = (match strip s.params x with
        | .ok (.patch _ p) => [p]
        | .ok (.pass _ m) => [m]
        | .error _ => [])) ∧
    (∃ t e, runCommand .att x s = .next t ∧ t.oq = s.oq ++ e ∧
      deliver e = [attach s.params s.regs.hdr x]) ∧
    (∃ t e, runCommand .cka x s = .next t ∧ t.oq = s.oq ++ e ∧
      deliver e = (match appendChecksum s.params x with
        | .ok y => [y]
        | .error _ => []))

/-- R204: `CKT` on the data tokens that `CKA` emitted gives `MATCH = 1`; so does `CKV` on the span of a `CKC`,
with `EXPHI ++ EXPLO` set to the `CKS` that `CKC` left. -/
def Obligations.CheckAcceptsAppended : Prop :=
  (∀ (s : State) (x : List Byte), s.Idle → x.length % 2 = 0 →
    ∃ (t : State) (y : List Byte) (u : State), runCommand .cka x s = .next t ∧
      t.oq = s.oq ++ y.map .B ++ [.EOS 0x00] ∧ runCommand .ckt y t = .next u ∧
      u.regs.stat.matched = true ∧ u.regs.stat.fail = false ∧ u.regs.cks = t.regs.cks) ∧
  (∀ (s : State) (x : List Byte), s.Idle → x.length % 2 = 0 →
    ∃ t u : State, runCommand .ckc x s = .next t ∧
      runCommand .ckv x { t with regs.explo := readPort t 0x13, regs.exphi := readPort t 0x14 } =
        .next u ∧
      u.regs.stat.matched = true ∧ u.regs.stat.fail = false)

/-- R147: `COL` on the data tokens that `EXP` emitted gives back the input of `EXP`. -/
def Obligations.CollapseUndoesExpand : Prop :=
  ∀ (s : State) (x : List Byte), s.Idle →
    ∃ (t : State) (y : List Byte) (u : State), runCommand .exp x s = .next t ∧
      t.oq = s.oq ++ y.map .B ++ [.EOS 0x00] ∧
      (∀ b ∈ y, b.toNat ≤ 15) ∧
      runCommand .col y t = .next u ∧ u.oq = t.oq ++ x.map .B ++ [.EOS 0x00] ∧
      u.regs.stat.fail = false

/-- R179: (a) what `ATT` sends, `SPL` cuts back to one segment; (b) `STR` strips the segment of a patch message to
the same payload and header; (c) several `ATT` outputs fed to one `SPL` give one segment per message, in order. -/
def Obligations.ReceivePathUndoesTransmitPath : Prop :=
  ∀ s : State, s.Idle → s.params.sox ≠ s.params.eox → s.regs.term = s.params.eox →
    (∀ p : List Byte, s.params.eox ∉ headerBytes s.regs.hdr → s.params.eox ∉ p →
      ∃ (t : State) (w : List Byte) (u : State) (m : List Byte),
        runCommand .att p s = .next t ∧ t.oq = s.oq ++ w.map .B ++ [.EOS 0x00] ∧
        runCommand .spl w t = .next u ∧ u.oq = t.oq ++ m.map .B ++ [.EOS 0x00] ∧
        w = m ++ [s.params.eox] ∧ u.regs.segcnt = 1 ∧ u.regs.stat.unterm = false ∧
        (s.params.Fits → s.params.msgMin = 8 → carriesPatch s.params s.regs.hdr = true →
          ∃ v : State, runCommand .str m u = .next v ∧ v.oq = u.oq ++ p.map .B ++ [.EOS 0x00] ∧
            v.regs.hdr = s.regs.hdr ∧ route v.params v.regs = true)) ∧
    (∀ ws : List (List Byte),
      (∀ w ∈ ws, ∃ (a t : State) (p : List Byte), a.Idle ∧ a.params = s.params ∧
        s.params.eox ∉ headerBytes a.regs.hdr ∧ s.params.eox ∉ p ∧
        runCommand .att p a = .next t ∧ t.oq = a.oq ++ w.map .B ++ [.EOS 0x00]) →
      ∃ u : State, runCommand .spl ws.flatten s = .next u ∧
        u.oq = s.oq ++ ws.flatMap (fun w => w.dropLast.map .B ++ [.EOS 0x00]) ∧
        u.regs.segcnt = BitVec.ofNat 16 ws.length ∧ u.regs.stat.unterm = false)

/-- The `In` steps of a schedule do what the running command's token rule does to the tokens, one after
another. -/
def Obligations.InputStepsFeedTheCommand : Prop :=
  ∀ (s : State) (x : List Byte) (q : List InToken) (rest : List HostAct), s.regs.stat.busy = true →
    s.host.inq = (x.map .B ++ [.EOS]) ++ q →
    s.host.acts = List.replicate (x.length + 1) .input ++ rest →
    Host.Core.run core (x.length + 1) s =
      acceptTokens (x.map .B ++ [.EOS]) { s with host.inq := q, host.acts := rest }

/-! ### Laws of the pure functions, for any values of the parameters -/

/-- R140 to R143, R146: `expand` and `collapse` byte by byte; `collapse` undoes `expand`, fails exactly on odd
lengths and masks its input. -/
def Obligations.TranscoderLaws : Prop :=
  (∀ x : List Byte, collapse (expand x) = .ok x ∧ (expand x).length = 2 * x.length ∧
    (∀ b ∈ expand x, b.toNat ≤ 15) ∧
    (∀ k, k < x.length → (expand x).getD (2 * k) 0 = x.getD k 0 >>> 4 ∧
      (expand x).getD (2 * k + 1) 0 = x.getD k 0 &&& 0x0F)) ∧
  (∀ y : List Byte,
    (y.length % 2 = 1 → collapse y = .error .length) ∧
    (y.length % 2 = 0 → ∃ x, collapse y = .ok x ∧ x.length = y.length / 2 ∧
      expand x = y.map (· &&& 0x0F) ∧
      (∀ k, k < x.length → x.getD k 0 = byteFromNybbles (y.getD (2 * k) 0) (y.getD (2 * k + 1) 0))))

/-- R160, R162: `split` cuts at every terminator and drops the empty pieces; what follows from that. -/
def Obligations.SplitLaws : Prop :=
  ∀ (x : List Byte) (t : Byte),
    split x t = (x.splitOn t).filter (fun g => !g.isEmpty) ∧
    split [] t = [] ∧ (∀ n, split (List.replicate n t) t = []) ∧
    (t ∉ x → x ≠ [] → split x t = [x]) ∧
    (split x t).flatten = x.filter (· != t) ∧
    (split x t).length ≤ x.count t + 1 ∧
    (∀ g ∈ split x t, g ≠ [] ∧ t ∉ g)

/-- R163 to R167: the header record by offsets, its threshold, the route, `strip` and `attach`, for any values of
the parameters, and the defaults of those they use. For parameters that do not fit (`Params.Fits`) two things are the
model's choice (log 7, DESIGN CHOICE): the payload begins at 1 + `HDR_FIELDS`, where R166 says 8, and with a `MSG_MIN`
below 8 a header byte that the message does not have is 0. -/
def Obligations.FramerFunctionLaws : Prop :=
  (Config.params.sox = 0xF0 ∧ Config.params.eox = 0xF7 ∧ Config.params.funcOneBlock = 0x20 ∧
    Config.params.ss1Single = 0x00 ∧ Config.params.msgMin = 8 ∧ Config.params.headerLen = 8) ∧
  ∀ (P : Params) (m : List Byte) (h : Header),
    (m.length < P.msgMin → parseHeader P m = .error .truncatedMessage ∧
      strip P m = .error .truncatedMessage) ∧
    (P.msgMin ≤ m.length →
      parseHeader P m = .ok ⟨m.getD 1 0, m.getD 2 0, m.getD 3 0, m.getD 4 0, m.getD 5 0, m.getD 6 0,
        m.getD 7 0⟩) ∧
    (carriesPatch P h = true ↔ h.func = P.funcOneBlock ∧ h.ss1 = P.ss1Single) ∧
    (parseHeader P m = .ok h → strip P m =
      .ok (if carriesPatch P h then .patch h (m.drop P.headerLen) else .pass h m)) ∧
    (attach P h m).length = m.length + 9 ∧
    attach P h m = P.sox :: h.mfr :: h.chan :: h.func :: h.group :: h.mach :: h.ss1 :: h.ss2 ::
      (m ++ [P.eox])

/-- R175: attached messages, one after another, split back one segment each and strip to their parts; a payload
of nybble bytes never contains the end marker. -/
def Obligations.SplitAndStripUndoAttach : Prop :=
  (∀ p : List Byte, (∀ b ∈ p, b.toNat ≤ 15) → Config.params.eox ∉ p) ∧
  ∀ (P : Params) (ms : List (Header × List Byte)), P.Fits → P.msgMin = 8 → P.sox ≠ P.eox →
    (∀ m ∈ ms, carriesPatch P m.1 = true ∧ P.eox ∉ headerBytes m.1 ∧ P.eox ∉ m.2) →
    split (ms.flatMap fun m => attach P m.1 m.2) P.eox =
      ms.map (fun m => (attach P m.1 m.2).dropLast) ∧
    (∀ m ∈ ms, strip P (attach P m.1 m.2).dropLast = .ok (.patch m.1 m.2))

/-- R190 to R196: the word sum as a sum of little-endian words, the checksum by its equation, the appended
checksum accepted, and the failures. -/
def Obligations.ChecksumLaws : Prop :=
  Config.params.cksConst = 0x5A3C ∧
  ∀ (P : Params) (x : List Byte) (lo hi : Byte),
    (x.length % 2 = 0 →
      wordsum x = BitVec.ofNat 16 ((List.range (x.length / 2)).map fun k =>
        (x.getD (2 * k) 0).toNat + 256 * (x.getD (2 * k + 1) 0).toNat).sum ∧
      (∀ c : Word, compute P x = .ok c ↔ wordsum x + c = P.cksConst) ∧
      verify P x lo hi = .ok (P.cksConst - wordsum x == BitVec.ofNat 16 (lo.toNat + 256 * hi.toNat)) ∧
      verifyTrailing P (x ++ [lo, hi]) = verify P x lo hi ∧
      ∃ (c : Word) (y : List Byte), compute P x = .ok c ∧ y = x ++ [c.setWidth 8, (c >>> 8).setWidth 8] ∧
        appendChecksum P x = .ok y ∧ verifyTrailing P y = .ok true ∧ wordsum y = P.cksConst) ∧
    (x.length % 2 = 1 → compute P x = .error .oddSpan ∧ verify P x lo hi = .error .oddSpan ∧
      appendChecksum P x = .error .oddSpan) ∧
    (x.length < 2 → verifyTrailing P x = .error .truncatedInput) ∧
    (3 ≤ x.length → x.length % 2 = 1 → verifyTrailing P x = .error .oddSpan)

/-- R201: flipping any one bit of an even-length span changes its checksum. -/
def Obligations.ChecksumSeesEveryBitFlip : Prop :=
  ∀ (P : Params) (x : List Byte) (i j : Nat) (h : i < x.length), x.length % 2 = 0 → j < 8 →
    compute P (x.set i (x[i] ^^^ (1#8 <<< j))) ≠ compute P x

/-! ### Faults, reports and whole-machine rules -/

/-- R245: the entry of a fatal fault, in every command and on every condition of R235: the `ERR` bit, `CAUSE`,
`FAIL`, the closing mark of an open buffer, the end of the command, and nothing else. -/
def Obligations.FatalFaultEntry : Prop :=
  ∀ (s : State) (i : Instr) (errBits code : Byte), s.Runs i →
    ((i = .col ∧ s.latch.holdValid = true ∧ errBits = 0x04 ∧ code = 0x12) ∨
     ((i = .phd ∨ i = .str) ∧ s.latch.hpos < s.params.msgMin ∧ errBits = 0x08 ∧ code = 0x13) ∨
     (i = .ckt ∧ s.latch.dcnt.val < 2 ∧ errBits = 0x08 ∧ code = 0x13) ∨
     (i = .ckt ∧ s.latch.dcnt.val = 2 ∧ s.latch.holdValid = true ∧ errBits = 0x20 ∧ code = 0x15) ∨
     ((i = .ckc ∨ i = .ckv ∨ i = .cka) ∧ s.latch.holdValid = true ∧ errBits = 0x20 ∧ code = 0x15)) →
    acceptToken .EOS s = .next { s with
      regs.err := s.regs.err ||| errBits
      regs.cause := code
      regs.stat.fail := true
      regs.stat.busy := false
      regs.stat.done := true
      oq := s.oq ++ (if s.latch.segOpen then [.EOS code] else [])
      latch.segOpen := false }

/-- R246: a checksum mismatch in `CKV` or `CKT` is a report: it sets `ERR.CKSUM` and `CAUSE`, and the command comes
to its good end. -/
def Obligations.MismatchIsReported : Prop :=
  (∀ s : State, s.Runs .ckv → s.latch.holdValid = false →
    s.params.cksConst - s.latch.sum ≠ s.regs.exphi ++ s.regs.explo →
    acceptToken .EOS s = .next { s with
      regs.cks := s.params.cksConst - s.latch.sum
      regs.stat.matched := false
      regs.err := s.regs.err ||| 0x10
      regs.cause := 0x14
      regs.stat.busy := false
      regs.stat.done := true }) ∧
  (∀ s : State, s.Runs .ckt → s.latch.dcnt = 2 → s.latch.holdValid = false →
    s.params.cksConst - s.latch.sum ≠ s.latch.d1 ++ s.latch.d0 →
    acceptToken .EOS s = .next { s with
      regs.cks := s.params.cksConst - s.latch.sum
      regs.explo := s.latch.d0
      regs.exphi := s.latch.d1
      regs.stat.matched := false
      regs.err := s.regs.err ||| 0x10
      regs.cause := 0x14
      regs.stat.busy := false
      regs.stat.done := true })

/-- R238: a data token never raises anything and never ends a command. -/
def Obligations.DataTokenRaisesNothing : Prop :=
  ∀ (s : State) (i : Instr) (b : Byte), i.isStream = true → s.Runs i →
    ∃ t, acceptToken (.B b) s = .next t ∧ t.regs.err = s.regs.err ∧ t.regs.cause = s.regs.cause ∧
      t.regs.stat.busy = true ∧ t.regs.stat.done = s.regs.stat.done ∧
      t.regs.stat.fail = s.regs.stat.fail ∧ t.regs.icnt = s.regs.icnt + 1 ∧ t.host = s.host

/-- R27, R253: no step clears a flag of `ERR` but a write of that bit as 1 to `ERR`, the command `CLR`, and
`Reset`. -/
def Obligations.ErrorFlagsAreSticky : Prop :=
  ∀ (s t : State) (k : Nat), step s = .next t → s.regs.err.getLsbD k = true →
    t.regs.err.getLsbD k = false →
    ∃ act rest, s.host.acts = act :: rest ∧
      (act = .reset ∨ act = .regWrite 0x00 0x01 ∨ ∃ v, act = .regWrite 0x02 v ∧ v.getLsbD k = true)

/-- R215: how the block leaves idle and how it leaves busy. -/
def Obligations.ModeChangesOnlyAsSpecified : Prop :=
  ∀ (s t : State), step s = .next t →
    (s.Idle → ¬ t.Idle → ∃ c i rest, s.host.acts = .regWrite 0x00 c :: rest ∧
      decode c = .command i ∧ i.isStream = true) ∧
    (¬ s.Idle → t.Idle →
      s.host.acts.head? = some .reset ∨ s.host.acts.head? = some (.regWrite 0x00 0x01) ∨
      (s.host.inq.head? = some .EOS ∧ (s.host.acts = [] ∨ s.host.acts.head? = some .input)))

/-- R226, R75: but for `Reset`, a step appends at most eight tokens (with the default `MSG_MIN`; in general that many
if it is more) to the sequence of tokens taken and queued, and drops, duplicates or reorders none. -/
def Obligations.OutputIsEmissionOrder : Prop :=
  ∀ (s t : State), step s = .next t → s.host.acts.head? ≠ some .reset →
    ∃ e : List OutToken, e.length ≤ max 8 s.params.msgMin ∧
      t.host.taken ++ t.oq = s.host.taken ++ s.oq ++ e

/-- R173: when `STR` ends without fault, `s.pass = 1 - STAT.ROUTE`, and the closing code says the same. -/
def Obligations.RouteShownByStatus : Prop :=
  ∀ (s t : State), s.HeaderInv → s.Runs .str → s.latch.hpos = s.params.msgMin →
    acceptToken .EOS s = .next t →
    t.latch.pass = !route t.params t.regs ∧ t.regs.stat.fail = s.regs.stat.fail ∧
      t.oq = s.oq ++ [.EOS (if route t.params t.regs then 0x00 else 0x01)]

/-- R49: the outcome of a stream command depends only on the registers it names, its byte and its input: not on
latches, queue, other registers or past events. The outcome: the tokens emitted, the flags and result registers the
command writes, and the event it notes in `ERR` and `CAUSE`. -/
def Obligations.NoStateLeaksBetweenCommands : Prop :=
  ∀ (i : Instr) (x : List Byte) (s s' : State), i.isStream = true → s.Idle → s'.Idle →
    s.params = s'.params → (i = .phd ∨ i = .str → s.params.Fits) →
    s.regs.term = s'.regs.term → s.regs.hdr = s'.regs.hdr → s.regs.explo = s'.regs.explo →
    s.regs.exphi = s'.regs.exphi →
    ∃ (t t' : State) (e : List OutToken) (errBits : Byte),
      runCommand i x s = .next t ∧ runCommand i x s' = .next t' ∧
      t.oq = s.oq ++ e ∧ t'.oq = s'.oq ++ e ∧
      t.regs.cmd = t'.regs.cmd ∧ t.Idle ∧ t'.Idle ∧ t.regs.stat.done = true ∧ t'.regs.stat.done = true ∧
      t.regs.stat.fail = t'.regs.stat.fail ∧
      t.regs.err = s.regs.err ||| errBits ∧ t'.regs.err = s'.regs.err ||| errBits ∧
      (errBits = 0 → t.regs.cause = s.regs.cause ∧ t'.regs.cause = s'.regs.cause) ∧
      (errBits ≠ 0 → t.regs.cause = t'.regs.cause) ∧
      t.regs.icnt = t'.regs.icnt ∧ t.regs.ocnt = t'.regs.ocnt ∧ t.regs.hdr = t'.regs.hdr ∧
      t.regs.explo = t'.regs.explo ∧ t.regs.exphi = t'.regs.exphi ∧
      (t.regs.stat.fail = false → i = .ckc ∨ i = .ckv ∨ i = .ckt ∨ i = .cka →
        t.regs.cks = t'.regs.cks) ∧
      (i = .ckv ∨ i = .ckt → t.regs.stat.matched = t'.regs.stat.matched) ∧
      (i = .phd ∨ i = .str → t.regs.stat.hdrv = t'.regs.stat.hdrv) ∧
      (i = .spl → t.regs.segcnt = t'.regs.segcnt ∧ t.regs.stat.unterm = t'.regs.stat.unterm)

/-! ### Invariants -/

/-- Every step keeps the control invariant, and none changes the parameters. -/
def Obligations.StepKeepsControlInvariant : Prop :=
  ∀ s t : State, s.ControlInv → step s = .next t → t.ControlInv ∧ t.params = s.params

/-- Every step keeps the header invariant of `PHD` and `STR`. -/
def Obligations.StepKeepsHeaderInvariant : Prop :=
  ∀ s t : State, s.HeaderInv → step s = .next t → t.HeaderInv

/-- R261: every step keeps the equations of the transfer counters. -/
def Obligations.StepKeepsCounterInvariant : Prop :=
  ∀ s t : State, s.CounterInv → step s = .next t → t.CounterInv

/-- From a state with the control invariant every step has a next state: no action of the host, no byte, no
token and no address stops the machine. -/
def Obligations.EveryStepCompletes : Prop :=
  ∀ s : State, s.ControlInv → ∃ t, step s = .next t ∧ t.ControlInv

/-- In every reachable state, whatever the host does: while idle no buffer is open, every step has a next
state, and the counters satisfy R261. -/
def Obligations.ReachableStatesAreSafe : Prop :=
  ∀ s : State, s.Reachable →
    (s.Idle → s.latch.segOpen = false) ∧ s.FinalCounts ∧ ∃ t, step s = .next t
end

