-- ==== Sys2Proof/Laws/Decode.lean ====
section
/-! SUPPORT. The decoder on each command's byte, and the bound of the index field. -/

namespace Sys2Proof

@[simp] theorem decode_nop : decode 0x00#8 = .command .nop := by decide
@[simp] theorem decode_clr : decode 0x01#8 = .command .clr := by decide
@[simp] theorem decode_nyb : decode 0x30#8 = .command .nyb := by decide
@[simp] theorem decode_bfn : decode 0x31#8 = .command .bfn := by decide
@[simp] theorem decode_tos : decode 0x32#8 = .command .tos := by decide
@[simp] theorem decode_frs : decode 0x33#8 = .command .frs := by decide
@[simp] theorem decode_exp : decode 0x40#8 = .command .exp := by decide
@[simp] theorem decode_col : decode 0x41#8 = .command .col := by decide
@[simp] theorem decode_ckc : decode 0x50#8 = .command .ckc := by decide
@[simp] theorem decode_ckv : decode 0x51#8 = .command .ckv := by decide
@[simp] theorem decode_ckt : decode 0x52#8 = .command .ckt := by decide
@[simp] theorem decode_cka : decode 0x53#8 = .command .cka := by decide
@[simp] theorem decode_spl : decode 0x60#8 = .command .spl := by decide
@[simp] theorem decode_phd : decode 0x61#8 = .command .phd := by decide
@[simp] theorem decode_str : decode 0x62#8 = .command .str := by decide
@[simp] theorem decode_att : decode 0x63#8 = .command .att := by decide

theorem bitIndexField_lt (c : Byte) : bitIndexField c < 8 := Nat.mod_lt _ (by decide)

/-- A byte is decoded as one of the stream commands exactly when it is that command's byte. -/
theorem decode_stream_iff (c : Byte) :
    (decode c = .command .exp ↔ c = 0x40) ∧ (decode c = .command .col ↔ c = 0x41) ∧
    (decode c = .command .ckc ↔ c = 0x50) ∧ (decode c = .command .ckv ↔ c = 0x51) ∧
    (decode c = .command .ckt ↔ c = 0x52) ∧ (decode c = .command .cka ↔ c = 0x53) ∧
    (decode c = .command .spl ↔ c = 0x60) ∧ (decode c = .command .phd ↔ c = 0x61) ∧
    (decode c = .command .str ↔ c = 0x62) ∧ (decode c = .command .att ↔ c = 0x63) := by
  decide +revert

/-- The decoder gives `CLR` for its one byte only. -/
theorem decode_clr_iff (c : Byte) : decode c = .command .clr ↔ c = 0x01 := by decide +revert

end Sys2Proof
end

