-- ==== Sys2Proof/Laws/Functions.lean ====
section
/-! SUPPORT. The pure functions on lists built at either end, as the token rules build them. -/

namespace Sys2Proof.Machine

/-! ### Words and nybbles -/

theorem wordOf_lo (hi lo : Byte) : loByte (wordOf hi lo) = lo := by
  unfold loByte wordOf
  apply BitVec.eq_of_getLsbD_eq
  intro i hi'
  simp only [BitVec.getLsbD_setWidth, BitVec.getLsbD_append]
  simp [hi']

theorem wordOf_hi (hi lo : Byte) : hiByte (wordOf hi lo) = hi := by
  unfold hiByte wordOf
  apply BitVec.eq_of_getLsbD_eq
  intro i hi'
  simp only [BitVec.getLsbD_setWidth, BitVec.getLsbD_ushiftRight, BitVec.getLsbD_append]
  simp [hi']

theorem wordOf_hiByte_loByte (w : Word) : wordOf (hiByte w) (loByte w) = w := by
  unfold hiByte loByte wordOf
  apply BitVec.eq_of_getLsbD_eq
  intro i hi'
  simp only [BitVec.getLsbD_append, BitVec.getLsbD_setWidth, BitVec.getLsbD_ushiftRight]
  by_cases h : i < 8
  · simp [h]
  · have h1 : i - 8 < 8 := by omega
    have h2 : 8 + (i - 8) = i := by omega
    simp [h, h1, h2]

/-- The value of a word made of two bytes (20_memory.md R64). -/
theorem wordOf_toNat (hi lo : Byte) : (wordOf hi lo).toNat = lo.toNat + 256 * hi.toNat := by
  have h := lo.isLt
  unfold wordOf
  rw [BitVec.toNat_append, ← Nat.shiftLeft_add_eq_or_of_lt h, Nat.shiftLeft_eq]
  omega

/-- `byteFromNybbles(nybbles(b)) = b` (R124). -/
theorem byteFromNybbles_nybbles (b : Byte) : byteFromNybbles (nybbles b).1 (nybbles b).2 = b := by
  decide +revert

/-- Both results of `nybbles` are nybble values (R124). -/
theorem nybbles_le (b : Byte) : (nybbles b).1.toNat ≤ 15 ∧ (nybbles b).2.toNat ≤ 15 := by
  decide +revert

/-! ### Transcoder -/

theorem expand_append (x y : List Byte) : expand (x ++ y) = expand x ++ expand y := by
  induction x with
  | nil => rfl
  | cons b x ih => simp [expand, ih]

theorem length_expand (x : List Byte) : (expand x).length = 2 * x.length := by
  induction x with
  | nil => rfl
  | cons b x ih => simp only [expand, List.length_cons, ih]; omega

/-- `collapse` on a list with one more byte pair at its front. -/
theorem collapse_pair (h l : Byte) (y : List Byte) :
    collapse (h :: l :: y) = (collapse y).map (byteFromNybbles h l :: ·) := by
  rw [collapse]
  cases collapse y <;> rfl

/-- `collapse` succeeds with half the length on even lengths and fails on odd ones (R142). -/
theorem collapse_cases : ∀ y : List Byte,
    (y.length % 2 = 0 ∧ ∃ x, collapse y = .ok x ∧ x.length = y.length / 2) ∨
    (y.length % 2 = 1 ∧ collapse y = .error .length)
  | [] => .inl ⟨rfl, [], rfl, rfl⟩
  | [_] => .inr ⟨rfl, rfl⟩
  | h :: l :: y => by
    rw [collapse_pair]
    rcases collapse_cases y with ⟨hl, x, hx, hn⟩ | ⟨hl, hx⟩
    · refine .inl ⟨by simp only [List.length_cons]; omega, byteFromNybbles h l :: x, ?_, ?_⟩
      · simp [hx, Except.map]
      · simp only [List.length_cons]; omega
    · exact .inr ⟨by simp only [List.length_cons]; omega, by simp [hx, Except.map]⟩

/-! ### Framer -/

/-- `split` with a piece begun: the terminator closes a non-empty piece and drops an empty one. -/
theorem splitFrom_terminator (t : Byte) (piece x : List Byte) :
    splitFrom t piece (t :: x) = (if piece = [] then [] else [piece]) ++ splitFrom t [] x := by
  cases piece <;> simp [splitFrom]

/-- `split` with a piece begun: any other byte extends the piece. -/
theorem splitFrom_byte {t b : Byte} (h : b ≠ t) (piece x : List Byte) :
    splitFrom t piece (b :: x) = splitFrom t (piece ++ [b]) x := by
  cases piece <;> simp [splitFrom, h]

/-- `split` with a piece begun and no input left: a non-empty piece is the unterminated remainder. -/
theorem splitFrom_nil (t : Byte) (piece : List Byte) :
    splitFrom t piece [] = if piece = [] then [] else [piece] := by
  cases piece <;> simp [splitFrom]

/-- `parseHeader` fails exactly on messages of fewer than `MSG_MIN` bytes (R163, R164). -/
theorem parseHeader_cases (P : Params) (m : List Byte) :
    (m.length < P.msgMin ∧ parseHeader P m = .error .truncatedMessage) ∨
    (P.msgMin ≤ m.length ∧ parseHeader P m = .ok (headerOf m)) := by
  by_cases h : m.length < P.msgMin
  · exact .inl ⟨h, by simp [parseHeader, h]⟩
  · exact .inr ⟨by omega, by simp [parseHeader, h]⟩

/-- The header depends on the bytes at offsets 1 to 7 only. -/
theorem headerOf_congr {m m' : List Byte} (h : ∀ k, k < 8 → m.getD k 0 = m'.getD k 0) :
    headerOf m = headerOf m' := by
  simp only [headerOf]
  rw [h 1 (by omega), h 2 (by omega), h 3 (by omega), h 4 (by omega), h 5 (by omega), h 6 (by omega),
    h 7 (by omega)]

/-! ### Checksum -/

/-- The word sum of an even-length list followed by another (R190). -/
theorem wordsum_append : ∀ (x y : List Byte), x.length % 2 = 0 →
    wordsum (x ++ y) = wordsum x + wordsum y
  | [], y, _ => by simp [wordsum]
  | [_], _, h => by simp at h
  | a :: b :: x, y, h => by
    have hx : x.length % 2 = 0 := by simp only [List.length_cons] at h; omega
    simp only [List.cons_append, wordsum, wordsum_append x y hx]
    ac_rfl

theorem compute_even {x : List Byte} (h : x.length % 2 = 0) (P : Params) :
    compute P x = .ok (P.cksConst - wordsum x) := by simp [compute, h]

theorem compute_odd {x : List Byte} (h : x.length % 2 = 1) (P : Params) :
    compute P x = .error .oddSpan := by simp [compute, h]

/-- When `compute` gives a checksum, and which. -/
theorem compute_ok_iff {P : Params} {x : List Byte} {c : Word} :
    compute P x = .ok c ↔ x.length % 2 = 0 ∧ c = P.cksConst - wordsum x := by
  by_cases h : x.length % 2 = 0 <;> simp [compute, h, eq_comm]

/-- When `compute` fails, and how. -/
theorem compute_error_iff {P : Params} {x : List Byte} {e : CodecError} :
    compute P x = .error e ↔ x.length % 2 = 1 ∧ e = .oddSpan := by
  rcases Nat.mod_two_eq_zero_or_one x.length with h | h <;> simp [compute, h, eq_comm]

/-! ### Consumer -/

/-- A buffer closed by `EOS(0x00)` or `EOS(0x01)` is kept, with the bytes already begun (R105). -/
theorem deliverFrom_kept (piece x : List Byte) (code : Byte) (h : code = 0x00 ∨ code = 0x01)
    (ts : List OutToken) :
    deliverFrom piece (x.map .B ++ .EOS code :: ts) = (piece ++ x) :: deliverFrom [] ts := by
  induction x generalizing piece with
  | nil => simp only [List.map_nil, List.nil_append, deliverFrom, h, if_true, List.append_nil]
  | cons b x ih => simp [deliverFrom, ih]

/-- A buffer closed by a code other than `0x00` and `0x01` is void (R105). -/
theorem deliverFrom_void (piece x : List Byte) (code : Byte) (h0 : code ≠ 0x00) (h1 : code ≠ 0x01) :
    deliverFrom piece (x.map .B ++ [.EOS code]) = [] := by
  induction x generalizing piece with
  | nil => simp only [List.map_nil, List.nil_append, deliverFrom, h0, h1, or_self, if_false]
  | cons b x ih => simpa [deliverFrom] using ih _

end Sys2Proof.Machine
end

