-- ==== Sys2Proof/Laws/State.lean ====
section
/-! SUPPORT. What each state update does to each field: one lemma per update and field it touches, and one per
group of fields it leaves alone, so that no proof unfolds a record update. -/

namespace Sys2Proof.Machine

/-! ### `emit` -/

@[simp] theorem emit_regs (t : OutToken) (s : State) : (emit t s).regs = s.regs := rfl
@[simp] theorem emit_latch (t : OutToken) (s : State) : (emit t s).latch = s.latch := rfl
@[simp] theorem emit_oq (t : OutToken) (s : State) : (emit t s).oq = s.oq ++ [t] := rfl
@[simp] theorem emit_host (t : OutToken) (s : State) : (emit t s).host = s.host := rfl
@[simp] theorem emit_params (t : OutToken) (s : State) : (emit t s).params = s.params := rfl

/-! ### `emitByte` -/

@[simp] theorem emitByte_regs_cmd (b : Byte) (s : State) :
    (emitByte b s).regs.cmd = s.regs.cmd := rfl
@[simp] theorem emitByte_regs_stat (b : Byte) (s : State) :
    (emitByte b s).regs.stat = s.regs.stat := rfl
@[simp] theorem emitByte_regs_err (b : Byte) (s : State) :
    (emitByte b s).regs.err = s.regs.err := rfl
@[simp] theorem emitByte_regs_cause (b : Byte) (s : State) :
    (emitByte b s).regs.cause = s.regs.cause := rfl
@[simp] theorem emitByte_regs_term (b : Byte) (s : State) :
    (emitByte b s).regs.term = s.regs.term := rfl
@[simp] theorem emitByte_regs_opa (b : Byte) (s : State) :
    (emitByte b s).regs.opa = s.regs.opa := rfl
@[simp] theorem emitByte_regs_opb (b : Byte) (s : State) :
    (emitByte b s).regs.opb = s.regs.opb := rfl
@[simp] theorem emitByte_regs_res0 (b : Byte) (s : State) :
    (emitByte b s).regs.res0 = s.regs.res0 := rfl
@[simp] theorem emitByte_regs_res1 (b : Byte) (s : State) :
    (emitByte b s).regs.res1 = s.regs.res1 := rfl
@[simp] theorem emitByte_regs_hdr (b : Byte) (s : State) :
    (emitByte b s).regs.hdr = s.regs.hdr := rfl
@[simp] theorem emitByte_regs_explo (b : Byte) (s : State) :
    (emitByte b s).regs.explo = s.regs.explo := rfl
@[simp] theorem emitByte_regs_exphi (b : Byte) (s : State) :
    (emitByte b s).regs.exphi = s.regs.exphi := rfl
@[simp] theorem emitByte_regs_cks (b : Byte) (s : State) :
    (emitByte b s).regs.cks = s.regs.cks := rfl
@[simp] theorem emitByte_regs_icnt (b : Byte) (s : State) :
    (emitByte b s).regs.icnt = s.regs.icnt := rfl
@[simp] theorem emitByte_regs_ocnt (b : Byte) (s : State) :
    (emitByte b s).regs.ocnt = s.regs.ocnt + 1 := rfl
@[simp] theorem emitByte_regs_segcnt (b : Byte) (s : State) :
    (emitByte b s).regs.segcnt = s.regs.segcnt := rfl
@[simp] theorem emitByte_latch (b : Byte) (s : State) : (emitByte b s).latch = s.latch := rfl
@[simp] theorem emitByte_oq (b : Byte) (s : State) : (emitByte b s).oq = s.oq ++ [.B b] := rfl
@[simp] theorem emitByte_host (b : Byte) (s : State) : (emitByte b s).host = s.host := rfl
@[simp] theorem emitByte_params (b : Byte) (s : State) : (emitByte b s).params = s.params := rfl

/-! ### `countInput` -/

@[simp] theorem countInput_regs_cmd (s : State) : (countInput s).regs.cmd = s.regs.cmd := rfl
@[simp] theorem countInput_regs_stat (s : State) : (countInput s).regs.stat = s.regs.stat := rfl
@[simp] theorem countInput_regs_err (s : State) : (countInput s).regs.err = s.regs.err := rfl
@[simp] theorem countInput_regs_cause (s : State) : (countInput s).regs.cause = s.regs.cause := rfl
@[simp] theorem countInput_regs_term (s : State) : (countInput s).regs.term = s.regs.term := rfl
@[simp] theorem countInput_regs_opa (s : State) : (countInput s).regs.opa = s.regs.opa := rfl
@[simp] theorem countInput_regs_opb (s : State) : (countInput s).regs.opb = s.regs.opb := rfl
@[simp] theorem countInput_regs_res0 (s : State) : (countInput s).regs.res0 = s.regs.res0 := rfl
@[simp] theorem countInput_regs_res1 (s : State) : (countInput s).regs.res1 = s.regs.res1 := rfl
@[simp] theorem countInput_regs_hdr (s : State) : (countInput s).regs.hdr = s.regs.hdr := rfl
@[simp] theorem countInput_regs_explo (s : State) : (countInput s).regs.explo = s.regs.explo := rfl
@[simp] theorem countInput_regs_exphi (s : State) : (countInput s).regs.exphi = s.regs.exphi := rfl
@[simp] theorem countInput_regs_cks (s : State) : (countInput s).regs.cks = s.regs.cks := rfl
@[simp] theorem countInput_regs_icnt (s : State) : (countInput s).regs.icnt = s.regs.icnt + 1 := rfl
@[simp] theorem countInput_regs_ocnt (s : State) : (countInput s).regs.ocnt = s.regs.ocnt := rfl
@[simp] theorem countInput_regs_segcnt (s : State) :
    (countInput s).regs.segcnt = s.regs.segcnt := rfl
@[simp] theorem countInput_latch (s : State) : (countInput s).latch = s.latch := rfl
@[simp] theorem countInput_oq (s : State) : (countInput s).oq = s.oq := rfl
@[simp] theorem countInput_host (s : State) : (countInput s).host = s.host := rfl
@[simp] theorem countInput_params (s : State) : (countInput s).params = s.params := rfl

/-! ### `closeBuffer` -/

@[simp] theorem closeBuffer_regs (c : Byte) (s : State) : (closeBuffer c s).regs = s.regs := rfl
@[simp] theorem closeBuffer_latch_hold (c : Byte) (s : State) :
    (closeBuffer c s).latch.hold = s.latch.hold := rfl
@[simp] theorem closeBuffer_latch_holdValid (c : Byte) (s : State) :
    (closeBuffer c s).latch.holdValid = s.latch.holdValid := rfl
@[simp] theorem closeBuffer_latch_sum (c : Byte) (s : State) :
    (closeBuffer c s).latch.sum = s.latch.sum := rfl
@[simp] theorem closeBuffer_latch_d0 (c : Byte) (s : State) :
    (closeBuffer c s).latch.d0 = s.latch.d0 := rfl
@[simp] theorem closeBuffer_latch_d1 (c : Byte) (s : State) :
    (closeBuffer c s).latch.d1 = s.latch.d1 := rfl
@[simp] theorem closeBuffer_latch_dcnt (c : Byte) (s : State) :
    (closeBuffer c s).latch.dcnt = s.latch.dcnt := rfl
@[simp] theorem closeBuffer_latch_segOpen (c : Byte) (s : State) :
    (closeBuffer c s).latch.segOpen = false := rfl
@[simp] theorem closeBuffer_latch_hpos (c : Byte) (s : State) :
    (closeBuffer c s).latch.hpos = s.latch.hpos := rfl
@[simp] theorem closeBuffer_latch_hb (c : Byte) (s : State) :
    (closeBuffer c s).latch.hb = s.latch.hb := rfl
@[simp] theorem closeBuffer_latch_pass (c : Byte) (s : State) :
    (closeBuffer c s).latch.pass = s.latch.pass := rfl
@[simp] theorem closeBuffer_oq (c : Byte) (s : State) :
    (closeBuffer c s).oq = s.oq ++ [.EOS c] := rfl
@[simp] theorem closeBuffer_host (c : Byte) (s : State) : (closeBuffer c s).host = s.host := rfl
@[simp] theorem closeBuffer_params (c : Byte) (s : State) : (closeBuffer c s).params = s.params := rfl

/-! ### `noteEvent` -/

@[simp] theorem noteEvent_regs_cmd (e : Event) (s : State) :
    (noteEvent e s).regs.cmd = s.regs.cmd := rfl
@[simp] theorem noteEvent_regs_stat (e : Event) (s : State) :
    (noteEvent e s).regs.stat = s.regs.stat := rfl
@[simp] theorem noteEvent_regs_err (e : Event) (s : State) :
    (noteEvent e s).regs.err = s.regs.err ||| errMask e := rfl
@[simp] theorem noteEvent_regs_cause (e : Event) (s : State) :
    (noteEvent e s).regs.cause = causeCode e := rfl
@[simp] theorem noteEvent_regs_term (e : Event) (s : State) :
    (noteEvent e s).regs.term = s.regs.term := rfl
@[simp] theorem noteEvent_regs_opa (e : Event) (s : State) :
    (noteEvent e s).regs.opa = s.regs.opa := rfl
@[simp] theorem noteEvent_regs_opb (e : Event) (s : State) :
    (noteEvent e s).regs.opb = s.regs.opb := rfl
@[simp] theorem noteEvent_regs_res0 (e : Event) (s : State) :
    (noteEvent e s).regs.res0 = s.regs.res0 := rfl
@[simp] theorem noteEvent_regs_res1 (e : Event) (s : State) :
    (noteEvent e s).regs.res1 = s.regs.res1 := rfl
@[simp] theorem noteEvent_regs_hdr (e : Event) (s : State) :
    (noteEvent e s).regs.hdr = s.regs.hdr := rfl
@[simp] theorem noteEvent_regs_explo (e : Event) (s : State) :
    (noteEvent e s).regs.explo = s.regs.explo := rfl
@[simp] theorem noteEvent_regs_exphi (e : Event) (s : State) :
    (noteEvent e s).regs.exphi = s.regs.exphi := rfl
@[simp] theorem noteEvent_regs_cks (e : Event) (s : State) :
    (noteEvent e s).regs.cks = s.regs.cks := rfl
@[simp] theorem noteEvent_regs_icnt (e : Event) (s : State) :
    (noteEvent e s).regs.icnt = s.regs.icnt := rfl
@[simp] theorem noteEvent_regs_ocnt (e : Event) (s : State) :
    (noteEvent e s).regs.ocnt = s.regs.ocnt := rfl
@[simp] theorem noteEvent_regs_segcnt (e : Event) (s : State) :
    (noteEvent e s).regs.segcnt = s.regs.segcnt := rfl
@[simp] theorem noteEvent_latch (e : Event) (s : State) : (noteEvent e s).latch = s.latch := rfl
@[simp] theorem noteEvent_oq (e : Event) (s : State) : (noteEvent e s).oq = s.oq := rfl
@[simp] theorem noteEvent_host (e : Event) (s : State) : (noteEvent e s).host = s.host := rfl
@[simp] theorem noteEvent_params (e : Event) (s : State) : (noteEvent e s).params = s.params := rfl

/-! ### `endCommand` -/

@[simp] theorem endCommand_regs_cmd (s : State) : (endCommand s).regs.cmd = s.regs.cmd := rfl
@[simp] theorem endCommand_regs_stat_busy (s : State) : (endCommand s).regs.stat.busy = false := rfl
@[simp] theorem endCommand_regs_stat_done (s : State) : (endCommand s).regs.stat.done = true := rfl
@[simp] theorem endCommand_regs_stat_fail (s : State) :
    (endCommand s).regs.stat.fail = s.regs.stat.fail := rfl
@[simp] theorem endCommand_regs_stat_matched (s : State) :
    (endCommand s).regs.stat.matched = s.regs.stat.matched := rfl
@[simp] theorem endCommand_regs_stat_hdrv (s : State) :
    (endCommand s).regs.stat.hdrv = s.regs.stat.hdrv := rfl
@[simp] theorem endCommand_regs_stat_unterm (s : State) :
    (endCommand s).regs.stat.unterm = s.regs.stat.unterm := rfl
@[simp] theorem endCommand_regs_err (s : State) : (endCommand s).regs.err = s.regs.err := rfl
@[simp] theorem endCommand_regs_cause (s : State) : (endCommand s).regs.cause = s.regs.cause := rfl
@[simp] theorem endCommand_regs_term (s : State) : (endCommand s).regs.term = s.regs.term := rfl
@[simp] theorem endCommand_regs_opa (s : State) : (endCommand s).regs.opa = s.regs.opa := rfl
@[simp] theorem endCommand_regs_opb (s : State) : (endCommand s).regs.opb = s.regs.opb := rfl
@[simp] theorem endCommand_regs_res0 (s : State) : (endCommand s).regs.res0 = s.regs.res0 := rfl
@[simp] theorem endCommand_regs_res1 (s : State) : (endCommand s).regs.res1 = s.regs.res1 := rfl
@[simp] theorem endCommand_regs_hdr (s : State) : (endCommand s).regs.hdr = s.regs.hdr := rfl
@[simp] theorem endCommand_regs_explo (s : State) : (endCommand s).regs.explo = s.regs.explo := rfl
@[simp] theorem endCommand_regs_exphi (s : State) : (endCommand s).regs.exphi = s.regs.exphi := rfl
@[simp] theorem endCommand_regs_cks (s : State) : (endCommand s).regs.cks = s.regs.cks := rfl
@[simp] theorem endCommand_regs_icnt (s : State) : (endCommand s).regs.icnt = s.regs.icnt := rfl
@[simp] theorem endCommand_regs_ocnt (s : State) : (endCommand s).regs.ocnt = s.regs.ocnt := rfl
@[simp] theorem endCommand_regs_segcnt (s : State) :
    (endCommand s).regs.segcnt = s.regs.segcnt := rfl
@[simp] theorem endCommand_latch (s : State) : (endCommand s).latch = s.latch := rfl
@[simp] theorem endCommand_oq (s : State) : (endCommand s).oq = s.oq := rfl
@[simp] theorem endCommand_host (s : State) : (endCommand s).host = s.host := rfl
@[simp] theorem endCommand_params (s : State) : (endCommand s).params = s.params := rfl

/-! ### `accept` -/

@[simp] theorem accept_regs_cmd (c : Byte) (s : State) : (accept c s).regs.cmd = c := rfl
@[simp] theorem accept_regs_stat_busy (c : Byte) (s : State) :
    (accept c s).regs.stat.busy = s.regs.stat.busy := rfl
@[simp] theorem accept_regs_stat_done (c : Byte) (s : State) :
    (accept c s).regs.stat.done = false := rfl
@[simp] theorem accept_regs_stat_fail (c : Byte) (s : State) :
    (accept c s).regs.stat.fail = false := rfl
@[simp] theorem accept_regs_stat_matched (c : Byte) (s : State) :
    (accept c s).regs.stat.matched = s.regs.stat.matched := rfl
@[simp] theorem accept_regs_stat_hdrv (c : Byte) (s : State) :
    (accept c s).regs.stat.hdrv = s.regs.stat.hdrv := rfl
@[simp] theorem accept_regs_stat_unterm (c : Byte) (s : State) :
    (accept c s).regs.stat.unterm = s.regs.stat.unterm := rfl
@[simp] theorem accept_regs_err (c : Byte) (s : State) : (accept c s).regs.err = s.regs.err := rfl
@[simp] theorem accept_regs_cause (c : Byte) (s : State) :
    (accept c s).regs.cause = s.regs.cause := rfl
@[simp] theorem accept_regs_term (c : Byte) (s : State) :
    (accept c s).regs.term = s.regs.term := rfl
@[simp] theorem accept_regs_opa (c : Byte) (s : State) : (accept c s).regs.opa = s.regs.opa := rfl
@[simp] theorem accept_regs_opb (c : Byte) (s : State) : (accept c s).regs.opb = s.regs.opb := rfl
@[simp] theorem accept_regs_res0 (c : Byte) (s : State) :
    (accept c s).regs.res0 = s.regs.res0 := rfl
@[simp] theorem accept_regs_res1 (c : Byte) (s : State) :
    (accept c s).regs.res1 = s.regs.res1 := rfl
@[simp] theorem accept_regs_hdr (c : Byte) (s : State) : (accept c s).regs.hdr = s.regs.hdr := rfl
@[simp] theorem accept_regs_explo (c : Byte) (s : State) :
    (accept c s).regs.explo = s.regs.explo := rfl
@[simp] theorem accept_regs_exphi (c : Byte) (s : State) :
    (accept c s).regs.exphi = s.regs.exphi := rfl
@[simp] theorem accept_regs_cks (c : Byte) (s : State) : (accept c s).regs.cks = s.regs.cks := rfl
@[simp] theorem accept_regs_icnt (c : Byte) (s : State) :
    (accept c s).regs.icnt = s.regs.icnt := rfl
@[simp] theorem accept_regs_ocnt (c : Byte) (s : State) :
    (accept c s).regs.ocnt = s.regs.ocnt := rfl
@[simp] theorem accept_regs_segcnt (c : Byte) (s : State) :
    (accept c s).regs.segcnt = s.regs.segcnt := rfl
@[simp] theorem accept_latch (c : Byte) (s : State) : (accept c s).latch = s.latch := rfl
@[simp] theorem accept_oq (c : Byte) (s : State) : (accept c s).oq = s.oq := rfl
@[simp] theorem accept_host (c : Byte) (s : State) : (accept c s).host = s.host := rfl
@[simp] theorem accept_params (c : Byte) (s : State) : (accept c s).params = s.params := rfl

/-! ### `setDone` -/

@[simp] theorem setDone_regs_cmd (s : State) : (setDone s).regs.cmd = s.regs.cmd := rfl
@[simp] theorem setDone_regs_stat_busy (s : State) :
    (setDone s).regs.stat.busy = s.regs.stat.busy := rfl
@[simp] theorem setDone_regs_stat_done (s : State) : (setDone s).regs.stat.done = true := rfl
@[simp] theorem setDone_regs_stat_fail (s : State) :
    (setDone s).regs.stat.fail = s.regs.stat.fail := rfl
@[simp] theorem setDone_regs_stat_matched (s : State) :
    (setDone s).regs.stat.matched = s.regs.stat.matched := rfl
@[simp] theorem setDone_regs_stat_hdrv (s : State) :
    (setDone s).regs.stat.hdrv = s.regs.stat.hdrv := rfl
@[simp] theorem setDone_regs_stat_unterm (s : State) :
    (setDone s).regs.stat.unterm = s.regs.stat.unterm := rfl
@[simp] theorem setDone_regs_err (s : State) : (setDone s).regs.err = s.regs.err := rfl
@[simp] theorem setDone_regs_cause (s : State) : (setDone s).regs.cause = s.regs.cause := rfl
@[simp] theorem setDone_regs_term (s : State) : (setDone s).regs.term = s.regs.term := rfl
@[simp] theorem setDone_regs_opa (s : State) : (setDone s).regs.opa = s.regs.opa := rfl
@[simp] theorem setDone_regs_opb (s : State) : (setDone s).regs.opb = s.regs.opb := rfl
@[simp] theorem setDone_regs_res0 (s : State) : (setDone s).regs.res0 = s.regs.res0 := rfl
@[simp] theorem setDone_regs_res1 (s : State) : (setDone s).regs.res1 = s.regs.res1 := rfl
@[simp] theorem setDone_regs_hdr (s : State) : (setDone s).regs.hdr = s.regs.hdr := rfl
@[simp] theorem setDone_regs_explo (s : State) : (setDone s).regs.explo = s.regs.explo := rfl
@[simp] theorem setDone_regs_exphi (s : State) : (setDone s).regs.exphi = s.regs.exphi := rfl
@[simp] theorem setDone_regs_cks (s : State) : (setDone s).regs.cks = s.regs.cks := rfl
@[simp] theorem setDone_regs_icnt (s : State) : (setDone s).regs.icnt = s.regs.icnt := rfl
@[simp] theorem setDone_regs_ocnt (s : State) : (setDone s).regs.ocnt = s.regs.ocnt := rfl
@[simp] theorem setDone_regs_segcnt (s : State) : (setDone s).regs.segcnt = s.regs.segcnt := rfl
@[simp] theorem setDone_latch (s : State) : (setDone s).latch = s.latch := rfl
@[simp] theorem setDone_oq (s : State) : (setDone s).oq = s.oq := rfl
@[simp] theorem setDone_host (s : State) : (setDone s).host = s.host := rfl
@[simp] theorem setDone_params (s : State) : (setDone s).params = s.params := rfl

/-! ### `setResults` -/

@[simp] theorem setResults_regs_cmd (r0 r1 : Byte) (s : State) :
    (setResults r0 r1 s).regs.cmd = s.regs.cmd := rfl
@[simp] theorem setResults_regs_stat (r0 r1 : Byte) (s : State) :
    (setResults r0 r1 s).regs.stat = s.regs.stat := rfl
@[simp] theorem setResults_regs_err (r0 r1 : Byte) (s : State) :
    (setResults r0 r1 s).regs.err = s.regs.err := rfl
@[simp] theorem setResults_regs_cause (r0 r1 : Byte) (s : State) :
    (setResults r0 r1 s).regs.cause = s.regs.cause := rfl
@[simp] theorem setResults_regs_term (r0 r1 : Byte) (s : State) :
    (setResults r0 r1 s).regs.term = s.regs.term := rfl
@[simp] theorem setResults_regs_opa (r0 r1 : Byte) (s : State) :
    (setResults r0 r1 s).regs.opa = s.regs.opa := rfl
@[simp] theorem setResults_regs_opb (r0 r1 : Byte) (s : State) :
    (setResults r0 r1 s).regs.opb = s.regs.opb := rfl
@[simp] theorem setResults_regs_res0 (r0 r1 : Byte) (s : State) :
    (setResults r0 r1 s).regs.res0 = r0 := rfl
@[simp] theorem setResults_regs_res1 (r0 r1 : Byte) (s : State) :
    (setResults r0 r1 s).regs.res1 = r1 := rfl
@[simp] theorem setResults_regs_hdr (r0 r1 : Byte) (s : State) :
    (setResults r0 r1 s).regs.hdr = s.regs.hdr := rfl
@[simp] theorem setResults_regs_explo (r0 r1 : Byte) (s : State) :
    (setResults r0 r1 s).regs.explo = s.regs.explo := rfl
@[simp] theorem setResults_regs_exphi (r0 r1 : Byte) (s : State) :
    (setResults r0 r1 s).regs.exphi = s.regs.exphi := rfl
@[simp] theorem setResults_regs_cks (r0 r1 : Byte) (s : State) :
    (setResults r0 r1 s).regs.cks = s.regs.cks := rfl
@[simp] theorem setResults_regs_icnt (r0 r1 : Byte) (s : State) :
    (setResults r0 r1 s).regs.icnt = s.regs.icnt := rfl
@[simp] theorem setResults_regs_ocnt (r0 r1 : Byte) (s : State) :
    (setResults r0 r1 s).regs.ocnt = s.regs.ocnt := rfl
@[simp] theorem setResults_regs_segcnt (r0 r1 : Byte) (s : State) :
    (setResults r0 r1 s).regs.segcnt = s.regs.segcnt := rfl
@[simp] theorem setResults_latch (r0 r1 : Byte) (s : State) :
    (setResults r0 r1 s).latch = s.latch := rfl
@[simp] theorem setResults_oq (r0 r1 : Byte) (s : State) : (setResults r0 r1 s).oq = s.oq := rfl
@[simp] theorem setResults_host (r0 r1 : Byte) (s : State) :
    (setResults r0 r1 s).host = s.host := rfl
@[simp] theorem setResults_params (r0 r1 : Byte) (s : State) :
    (setResults r0 r1 s).params = s.params := rfl

/-! ### `commonStart` -/

@[simp] theorem commonStart_regs_cmd (o : Bool) (s : State) :
    (commonStart o s).regs.cmd = s.regs.cmd := rfl
@[simp] theorem commonStart_regs_stat (o : Bool) (s : State) :
    (commonStart o s).regs.stat = s.regs.stat := rfl
@[simp] theorem commonStart_regs_err (o : Bool) (s : State) :
    (commonStart o s).regs.err = s.regs.err := rfl
@[simp] theorem commonStart_regs_cause (o : Bool) (s : State) :
    (commonStart o s).regs.cause = s.regs.cause := rfl
@[simp] theorem commonStart_regs_term (o : Bool) (s : State) :
    (commonStart o s).regs.term = s.regs.term := rfl
@[simp] theorem commonStart_regs_opa (o : Bool) (s : State) :
    (commonStart o s).regs.opa = s.regs.opa := rfl
@[simp] theorem commonStart_regs_opb (o : Bool) (s : State) :
    (commonStart o s).regs.opb = s.regs.opb := rfl
@[simp] theorem commonStart_regs_res0 (o : Bool) (s : State) :
    (commonStart o s).regs.res0 = s.regs.res0 := rfl
@[simp] theorem commonStart_regs_res1 (o : Bool) (s : State) :
    (commonStart o s).regs.res1 = s.regs.res1 := rfl
@[simp] theorem commonStart_regs_hdr (o : Bool) (s : State) :
    (commonStart o s).regs.hdr = s.regs.hdr := rfl
@[simp] theorem commonStart_regs_explo (o : Bool) (s : State) :
    (commonStart o s).regs.explo = s.regs.explo := rfl
@[simp] theorem commonStart_regs_exphi (o : Bool) (s : State) :
    (commonStart o s).regs.exphi = s.regs.exphi := rfl
@[simp] theorem commonStart_regs_cks (o : Bool) (s : State) :
    (commonStart o s).regs.cks = s.regs.cks := rfl
@[simp] theorem commonStart_regs_icnt (o : Bool) (s : State) :
    (commonStart o s).regs.icnt = 0 := rfl
@[simp] theorem commonStart_regs_ocnt (o : Bool) (s : State) :
    (commonStart o s).regs.ocnt = 0 := rfl
@[simp] theorem commonStart_regs_segcnt (o : Bool) (s : State) :
    (commonStart o s).regs.segcnt = s.regs.segcnt := rfl
@[simp] theorem commonStart_latch_hold (o : Bool) (s : State) :
    (commonStart o s).latch.hold = s.latch.hold := rfl
@[simp] theorem commonStart_latch_holdValid (o : Bool) (s : State) :
    (commonStart o s).latch.holdValid = false := rfl
@[simp] theorem commonStart_latch_sum (o : Bool) (s : State) :
    (commonStart o s).latch.sum = 0 := rfl
@[simp] theorem commonStart_latch_d0 (o : Bool) (s : State) :
    (commonStart o s).latch.d0 = s.latch.d0 := rfl
@[simp] theorem commonStart_latch_d1 (o : Bool) (s : State) :
    (commonStart o s).latch.d1 = s.latch.d1 := rfl
@[simp] theorem commonStart_latch_dcnt (o : Bool) (s : State) :
    (commonStart o s).latch.dcnt = 0 := rfl
@[simp] theorem commonStart_latch_segOpen (o : Bool) (s : State) :
    (commonStart o s).latch.segOpen = o := rfl
@[simp] theorem commonStart_latch_hpos (o : Bool) (s : State) :
    (commonStart o s).latch.hpos = 0 := rfl
@[simp] theorem commonStart_latch_hb (o : Bool) (s : State) :
    (commonStart o s).latch.hb = s.latch.hb := rfl
@[simp] theorem commonStart_latch_pass (o : Bool) (s : State) :
    (commonStart o s).latch.pass = false := rfl
@[simp] theorem commonStart_oq (o : Bool) (s : State) : (commonStart o s).oq = s.oq := rfl
@[simp] theorem commonStart_host (o : Bool) (s : State) : (commonStart o s).host = s.host := rfl
@[simp] theorem commonStart_params (o : Bool) (s : State) : (commonStart o s).params = s.params := rfl

/-! ### `setBusy` -/

@[simp] theorem setBusy_regs_cmd (s : State) : (setBusy s).regs.cmd = s.regs.cmd := rfl
@[simp] theorem setBusy_regs_stat_busy (s : State) : (setBusy s).regs.stat.busy = true := rfl
@[simp] theorem setBusy_regs_stat_done (s : State) :
    (setBusy s).regs.stat.done = s.regs.stat.done := rfl
@[simp] theorem setBusy_regs_stat_fail (s : State) :
    (setBusy s).regs.stat.fail = s.regs.stat.fail := rfl
@[simp] theorem setBusy_regs_stat_matched (s : State) :
    (setBusy s).regs.stat.matched = s.regs.stat.matched := rfl
@[simp] theorem setBusy_regs_stat_hdrv (s : State) :
    (setBusy s).regs.stat.hdrv = s.regs.stat.hdrv := rfl
@[simp] theorem setBusy_regs_stat_unterm (s : State) :
    (setBusy s).regs.stat.unterm = s.regs.stat.unterm := rfl
@[simp] theorem setBusy_regs_err (s : State) : (setBusy s).regs.err = s.regs.err := rfl
@[simp] theorem setBusy_regs_cause (s : State) : (setBusy s).regs.cause = s.regs.cause := rfl
@[simp] theorem setBusy_regs_term (s : State) : (setBusy s).regs.term = s.regs.term := rfl
@[simp] theorem setBusy_regs_opa (s : State) : (setBusy s).regs.opa = s.regs.opa := rfl
@[simp] theorem setBusy_regs_opb (s : State) : (setBusy s).regs.opb = s.regs.opb := rfl
@[simp] theorem setBusy_regs_res0 (s : State) : (setBusy s).regs.res0 = s.regs.res0 := rfl
@[simp] theorem setBusy_regs_res1 (s : State) : (setBusy s).regs.res1 = s.regs.res1 := rfl
@[simp] theorem setBusy_regs_hdr (s : State) : (setBusy s).regs.hdr = s.regs.hdr := rfl
@[simp] theorem setBusy_regs_explo (s : State) : (setBusy s).regs.explo = s.regs.explo := rfl
@[simp] theorem setBusy_regs_exphi (s : State) : (setBusy s).regs.exphi = s.regs.exphi := rfl
@[simp] theorem setBusy_regs_cks (s : State) : (setBusy s).regs.cks = s.regs.cks := rfl
@[simp] theorem setBusy_regs_icnt (s : State) : (setBusy s).regs.icnt = s.regs.icnt := rfl
@[simp] theorem setBusy_regs_ocnt (s : State) : (setBusy s).regs.ocnt = s.regs.ocnt := rfl
@[simp] theorem setBusy_regs_segcnt (s : State) : (setBusy s).regs.segcnt = s.regs.segcnt := rfl
@[simp] theorem setBusy_latch (s : State) : (setBusy s).latch = s.latch := rfl
@[simp] theorem setBusy_oq (s : State) : (setBusy s).oq = s.oq := rfl
@[simp] theorem setBusy_host (s : State) : (setBusy s).host = s.host := rfl
@[simp] theorem setBusy_params (s : State) : (setBusy s).params = s.params := rfl

/-! ### `setCks` -/

@[simp] theorem setCks_regs_cmd (c : Word) (s : State) : (setCks c s).regs.cmd = s.regs.cmd := rfl
@[simp] theorem setCks_regs_stat (c : Word) (s : State) :
    (setCks c s).regs.stat = s.regs.stat := rfl
@[simp] theorem setCks_regs_err (c : Word) (s : State) : (setCks c s).regs.err = s.regs.err := rfl
@[simp] theorem setCks_regs_cause (c : Word) (s : State) :
    (setCks c s).regs.cause = s.regs.cause := rfl
@[simp] theorem setCks_regs_term (c : Word) (s : State) :
    (setCks c s).regs.term = s.regs.term := rfl
@[simp] theorem setCks_regs_opa (c : Word) (s : State) : (setCks c s).regs.opa = s.regs.opa := rfl
@[simp] theorem setCks_regs_opb (c : Word) (s : State) : (setCks c s).regs.opb = s.regs.opb := rfl
@[simp] theorem setCks_regs_res0 (c : Word) (s : State) :
    (setCks c s).regs.res0 = s.regs.res0 := rfl
@[simp] theorem setCks_regs_res1 (c : Word) (s : State) :
    (setCks c s).regs.res1 = s.regs.res1 := rfl
@[simp] theorem setCks_regs_hdr (c : Word) (s : State) : (setCks c s).regs.hdr = s.regs.hdr := rfl
@[simp] theorem setCks_regs_explo (c : Word) (s : State) :
    (setCks c s).regs.explo = s.regs.explo := rfl
@[simp] theorem setCks_regs_exphi (c : Word) (s : State) :
    (setCks c s).regs.exphi = s.regs.exphi := rfl
@[simp] theorem setCks_regs_cks (c : Word) (s : State) : (setCks c s).regs.cks = c := rfl
@[simp] theorem setCks_regs_icnt (c : Word) (s : State) :
    (setCks c s).regs.icnt = s.regs.icnt := rfl
@[simp] theorem setCks_regs_ocnt (c : Word) (s : State) :
    (setCks c s).regs.ocnt = s.regs.ocnt := rfl
@[simp] theorem setCks_regs_segcnt (c : Word) (s : State) :
    (setCks c s).regs.segcnt = s.regs.segcnt := rfl
@[simp] theorem setCks_latch (c : Word) (s : State) : (setCks c s).latch = s.latch := rfl
@[simp] theorem setCks_oq (c : Word) (s : State) : (setCks c s).oq = s.oq := rfl
@[simp] theorem setCks_host (c : Word) (s : State) : (setCks c s).host = s.host := rfl
@[simp] theorem setCks_params (c : Word) (s : State) : (setCks c s).params = s.params := rfl

/-! ### `commitHeader` -/

@[simp] theorem commitHeader_regs_cmd (s : State) : (commitHeader s).regs.cmd = s.regs.cmd := rfl
@[simp] theorem commitHeader_regs_stat_busy (s : State) :
    (commitHeader s).regs.stat.busy = s.regs.stat.busy := rfl
@[simp] theorem commitHeader_regs_stat_done (s : State) :
    (commitHeader s).regs.stat.done = s.regs.stat.done := rfl
@[simp] theorem commitHeader_regs_stat_fail (s : State) :
    (commitHeader s).regs.stat.fail = s.regs.stat.fail := rfl
@[simp] theorem commitHeader_regs_stat_matched (s : State) :
    (commitHeader s).regs.stat.matched = s.regs.stat.matched := rfl
@[simp] theorem commitHeader_regs_stat_hdrv (s : State) :
    (commitHeader s).regs.stat.hdrv = true := rfl
@[simp] theorem commitHeader_regs_stat_unterm (s : State) :
    (commitHeader s).regs.stat.unterm = s.regs.stat.unterm := rfl
@[simp] theorem commitHeader_regs_err (s : State) : (commitHeader s).regs.err = s.regs.err := rfl
@[simp] theorem commitHeader_regs_cause (s : State) :
    (commitHeader s).regs.cause = s.regs.cause := rfl
@[simp] theorem commitHeader_regs_term (s : State) : (commitHeader s).regs.term = s.regs.term := rfl
@[simp] theorem commitHeader_regs_opa (s : State) : (commitHeader s).regs.opa = s.regs.opa := rfl
@[simp] theorem commitHeader_regs_opb (s : State) : (commitHeader s).regs.opb = s.regs.opb := rfl
@[simp] theorem commitHeader_regs_res0 (s : State) : (commitHeader s).regs.res0 = s.regs.res0 := rfl
@[simp] theorem commitHeader_regs_res1 (s : State) : (commitHeader s).regs.res1 = s.regs.res1 := rfl
@[simp] theorem commitHeader_regs_hdr (s : State) :
    (commitHeader s).regs.hdr = headerOf s.latch.hb := rfl
@[simp] theorem commitHeader_regs_explo (s : State) :
    (commitHeader s).regs.explo = s.regs.explo := rfl
@[simp] theorem commitHeader_regs_exphi (s : State) :
    (commitHeader s).regs.exphi = s.regs.exphi := rfl
@[simp] theorem commitHeader_regs_cks (s : State) : (commitHeader s).regs.cks = s.regs.cks := rfl
@[simp] theorem commitHeader_regs_icnt (s : State) : (commitHeader s).regs.icnt = s.regs.icnt := rfl
@[simp] theorem commitHeader_regs_ocnt (s : State) : (commitHeader s).regs.ocnt = s.regs.ocnt := rfl
@[simp] theorem commitHeader_regs_segcnt (s : State) :
    (commitHeader s).regs.segcnt = s.regs.segcnt := rfl
@[simp] theorem commitHeader_latch (s : State) : (commitHeader s).latch = s.latch := rfl
@[simp] theorem commitHeader_oq (s : State) : (commitHeader s).oq = s.oq := rfl
@[simp] theorem commitHeader_host (s : State) : (commitHeader s).host = s.host := rfl
@[simp] theorem commitHeader_params (s : State) : (commitHeader s).params = s.params := rfl

/-! ### `closeSegment` -/

@[simp] theorem closeSegment_regs_cmd (s : State) : (closeSegment s).regs.cmd = s.regs.cmd := rfl
@[simp] theorem closeSegment_regs_stat (s : State) : (closeSegment s).regs.stat = s.regs.stat := rfl
@[simp] theorem closeSegment_regs_err (s : State) : (closeSegment s).regs.err = s.regs.err := rfl
@[simp] theorem closeSegment_regs_cause (s : State) :
    (closeSegment s).regs.cause = s.regs.cause := rfl
@[simp] theorem closeSegment_regs_term (s : State) : (closeSegment s).regs.term = s.regs.term := rfl
@[simp] theorem closeSegment_regs_opa (s : State) : (closeSegment s).regs.opa = s.regs.opa := rfl
@[simp] theorem closeSegment_regs_opb (s : State) : (closeSegment s).regs.opb = s.regs.opb := rfl
@[simp] theorem closeSegment_regs_res0 (s : State) : (closeSegment s).regs.res0 = s.regs.res0 := rfl
@[simp] theorem closeSegment_regs_res1 (s : State) : (closeSegment s).regs.res1 = s.regs.res1 := rfl
@[simp] theorem closeSegment_regs_hdr (s : State) : (closeSegment s).regs.hdr = s.regs.hdr := rfl
@[simp] theorem closeSegment_regs_explo (s : State) :
    (closeSegment s).regs.explo = s.regs.explo := rfl
@[simp] theorem closeSegment_regs_exphi (s : State) :
    (closeSegment s).regs.exphi = s.regs.exphi := rfl
@[simp] theorem closeSegment_regs_cks (s : State) : (closeSegment s).regs.cks = s.regs.cks := rfl
@[simp] theorem closeSegment_regs_icnt (s : State) : (closeSegment s).regs.icnt = s.regs.icnt := rfl
@[simp] theorem closeSegment_regs_ocnt (s : State) : (closeSegment s).regs.ocnt = s.regs.ocnt := rfl
@[simp] theorem closeSegment_regs_segcnt (s : State) :
    (closeSegment s).regs.segcnt = s.regs.segcnt + 1 := rfl
@[simp] theorem closeSegment_latch_hold (s : State) :
    (closeSegment s).latch.hold = s.latch.hold := rfl
@[simp] theorem closeSegment_latch_holdValid (s : State) :
    (closeSegment s).latch.holdValid = s.latch.holdValid := rfl
@[simp] theorem closeSegment_latch_sum (s : State) : (closeSegment s).latch.sum = s.latch.sum := rfl
@[simp] theorem closeSegment_latch_d0 (s : State) : (closeSegment s).latch.d0 = s.latch.d0 := rfl
@[simp] theorem closeSegment_latch_d1 (s : State) : (closeSegment s).latch.d1 = s.latch.d1 := rfl
@[simp] theorem closeSegment_latch_dcnt (s : State) :
    (closeSegment s).latch.dcnt = s.latch.dcnt := rfl
@[simp] theorem closeSegment_latch_segOpen (s : State) :
    (closeSegment s).latch.segOpen = false := rfl
@[simp] theorem closeSegment_latch_hpos (s : State) :
    (closeSegment s).latch.hpos = s.latch.hpos := rfl
@[simp] theorem closeSegment_latch_hb (s : State) : (closeSegment s).latch.hb = s.latch.hb := rfl
@[simp] theorem closeSegment_latch_pass (s : State) :
    (closeSegment s).latch.pass = s.latch.pass := rfl
@[simp] theorem closeSegment_oq (s : State) : (closeSegment s).oq = s.oq ++ [.EOS codeOk] := rfl
@[simp] theorem closeSegment_host (s : State) : (closeSegment s).host = s.host := rfl
@[simp] theorem closeSegment_params (s : State) : (closeSegment s).params = s.params := rfl

/-! ### `resetKeepingQueue` -/

@[simp] theorem resetKeepingQueue_regs (s : State) : (resetKeepingQueue s).regs = Regs.reset s.params := rfl
@[simp] theorem resetKeepingQueue_latch (s : State) :
    (resetKeepingQueue s).latch = Latches.reset s.params := rfl
@[simp] theorem resetKeepingQueue_oq (s : State) : (resetKeepingQueue s).oq = s.oq := rfl
@[simp] theorem resetKeepingQueue_host (s : State) : (resetKeepingQueue s).host = s.host := rfl
@[simp] theorem resetKeepingQueue_params (s : State) : (resetKeepingQueue s).params = s.params := rfl

/-! ### `resetBlock` -/

@[simp] theorem resetBlock_regs (s : State) : (resetBlock s).regs = Regs.reset s.params := rfl
@[simp] theorem resetBlock_latch (s : State) : (resetBlock s).latch = Latches.reset s.params := rfl
@[simp] theorem resetBlock_oq (s : State) : (resetBlock s).oq = [] := rfl
@[simp] theorem resetBlock_host (s : State) : (resetBlock s).host = s.host := rfl
@[simp] theorem resetBlock_params (s : State) : (resetBlock s).params = s.params := rfl

end Sys2Proof.Machine
end

