-- ==== Sys2Proof/Laws/Ops.lean ====
section
/-! SUPPORT. What each shared operation does, said once: acceptance, the fatal fault, the accumulator, the header
engine, the register port, one step. Later proofs cite these instead of unfolding. -/

namespace Sys2Proof.Machine

/-! ### Tokens -/

/-- `emitBytes` appends its bytes in order, counts them, and touches nothing else. -/
theorem emitBytes_eq (bs : List Byte) (s : State) :
    emitBytes bs s = { s with
      oq := s.oq ++ bs.map .B
      regs.ocnt := s.regs.ocnt + BitVec.ofNat 16 bs.length } := by
  induction bs generalizing s with
  | nil => simp [emitBytes]
  | cons b bs ih =>
    rw [emitBytes, ih]
    simp [emitByte, BitVec.ofNat_add]
    ac_rfl

/-! ### Faults -/

/-- Taking a fatal fault, in one record (60_exceptions.md R245). -/
theorem raiseFatal_eq (e : Event) (s : State) :
    raiseFatal e s = { s with
      regs.err := s.regs.err ||| errMask e
      regs.cause := causeCode e
      regs.stat.fail := true
      regs.stat.busy := false
      regs.stat.done := true
      oq := s.oq ++ (if s.latch.segOpen then [.EOS (causeCode e)] else [])
      latch.segOpen := false } := by
  cases h : s.latch.segOpen
  · have : s.latch = { s.latch with segOpen := false } := by rw [← h]
    simp [raiseFatal, noteEvent, endCommand, h]
    exact this
  · simp [raiseFatal, noteEvent, endCommand, closeBuffer, h]

/-! ### Acceptance -/

theorem immediate_busy {s : State} (h : s.regs.stat.busy = true) (i : Instr) (f : State → State) :
    immediate i f s = .next (rejectBusy s) := by
  simp [immediate, h]

theorem immediate_idle {s : State} (h : s.regs.stat.busy = false) (i : Instr) (f : State → State) :
    immediate i f s = .next (setDone (f (accept (encode i) s))) := by
  simp [immediate, h]

theorem startStream_busy {s : State} (h : s.regs.stat.busy = true) (i : Instr) (o : Bool)
    (f : State → State) : startStream i o f s = .next (rejectBusy s) := by
  simp [startStream, h]

theorem startStream_idle {s : State} (h : s.regs.stat.busy = false) (i : Instr) (o : Bool)
    (f : State → State) :
    startStream i o f s = .next (setBusy (f (commonStart o (accept (encode i) s)))) := by
  simp [startStream, h]

/-- While busy every command but `CLR` is rejected (60_exceptions.md R250). -/
theorem exec_busy {s : State} (h : s.regs.stat.busy = true) {i : Instr} (hi : i ≠ .clr) :
    exec i s = .next (rejectBusy s) := by
  cases i <;>
    simp_all [exec, execNop, execBit, execWbit, execNyb, execBfn, execTos, execFrs, execExp, execCol,
      execCkc, execCkv, execCkt, execCka, execSpl, execPhd, execStr, execAtt, immediate, startStream]

/-- `CLR` in one record (44_control_and_system.md R222). -/
theorem execClr_eq (s : State) :
    execClr s = .next { s with
      regs := Regs.reset s.params
      latch := Latches.reset s.params
      oq := s.oq ++ (if s.latch.segOpen then [.EOS codeAbort] else []) } := by
  cases h : s.latch.segOpen <;> simp [execClr, h, resetKeepingQueue, emit]

/-! ### The register port -/

@[simp] theorem regAt_addr (r : Reg) : regAt (addr r) = some r := by cases r <;> rfl

/-- Two registers have two addresses. -/
theorem addr_injective {r r' : Reg} (h : addr r = addr r') : r = r' := by
  have := congrArg regAt h
  simpa using this

@[simp] theorem readPort_addr (s : State) (reg : Reg) :
    readPort s (addr reg) = readReg s.params s.regs reg := by
  simp [readPort]

/-- A host write in an `RW` register is read back from it. -/
theorem readReg_storeReg_same {reg : Reg} (h : access reg = .rw) (P : Params) (v : Byte) (r : Regs) :
    readReg P (storeReg v r reg) reg = v := by
  cases reg <;> first | rfl | cases h

/-- A host write in an `RW` register is seen at no other address but the two computed ones. -/
theorem readReg_storeReg_other {reg reg' : Reg} (h : access reg = .rw) (hne : reg' ≠ reg)
    (hs : reg' ≠ .stat) (hp : reg' ≠ .prog) (P : Params) (v : Byte) (r : Regs) :
    readReg P (storeReg v r reg) reg' = readReg P r reg' := by
  cases reg <;> simp [access] at h <;> cases reg' <;>
    first | rfl | exact absurd rfl hne | exact absurd rfl hs | exact absurd rfl hp

/-- A host write never touches the flags. -/
theorem storeReg_stat (v : Byte) (r : Regs) (reg : Reg) : (storeReg v r reg).stat = r.stat := by
  cases reg <;> rfl

theorem writePort_cmd (v : Byte) (s : State) : writePort 0x00 v s = writeCmd v s := rfl

/-- A write to a register other than `CMD`. -/
theorem writePort_addr {r : Reg} (h : r ≠ .cmd) (v : Byte) (s : State) :
    writePort (addr r) v s = .next (writeReg r v s) := by
  cases r <;> first | rfl | exact absurd rfl h

/-- An address is `CMD`'s, another register's, or reserved. -/
theorem writePort_cases (a : BitVec 5) (v : Byte) (s : State) :
    (a = 0x00 ∧ writePort a v s = writeCmd v s) ∨
    (∃ r, r ≠ .cmd ∧ a = addr r ∧ writePort a v s = .next (writeReg r v s)) ∨
    (0x1B ≤ a.toNat ∧ writePort a v s = .next s) := by
  have key : ∀ a : BitVec 5, (regAt a = none → 0x1B ≤ a.toNat) ∧
      (regAt a).all (fun r => addr r == a) = true := by
    decide
  cases hn : regAt a with
  | none => exact .inr (.inr ⟨(key a).1 hn, by simp [writePort, hn]⟩)
  | some r =>
    obtain rfl : addr r = a := by simpa [hn] using (key a).2
    by_cases hr : r = .cmd
    · subst hr
      exact .inl ⟨rfl, rfl⟩
    · exact .inr (.inl ⟨r, hr, rfl, writePort_addr hr v s⟩)

/-! ### Token rules by command byte -/

theorem acceptToken_exp {s : State} (h : s.regs.cmd = 0x40) (t : InToken) :
    acceptToken t s = .next (tokenExp t s) := by simp [acceptToken, h]
theorem acceptToken_col {s : State} (h : s.regs.cmd = 0x41) (t : InToken) :
    acceptToken t s = .next (tokenCol t s) := by simp [acceptToken, h]
theorem acceptToken_ckc {s : State} (h : s.regs.cmd = 0x50) (t : InToken) :
    acceptToken t s = .next (tokenCkc t s) := by simp [acceptToken, h]
theorem acceptToken_ckv {s : State} (h : s.regs.cmd = 0x51) (t : InToken) :
    acceptToken t s = .next (tokenCkv t s) := by simp [acceptToken, h]
theorem acceptToken_ckt {s : State} (h : s.regs.cmd = 0x52) (t : InToken) :
    acceptToken t s = .next (tokenCkt t s) := by simp [acceptToken, h]
theorem acceptToken_cka {s : State} (h : s.regs.cmd = 0x53) (t : InToken) :
    acceptToken t s = .next (tokenCka t s) := by simp [acceptToken, h]
theorem acceptToken_spl {s : State} (h : s.regs.cmd = 0x60) (t : InToken) :
    acceptToken t s = .next (tokenSpl t s) := by simp [acceptToken, h]
theorem acceptToken_phd {s : State} (h : s.regs.cmd = 0x61) (t : InToken) :
    acceptToken t s = .next (tokenPhd t s) := by simp [acceptToken, h]
theorem acceptToken_str {s : State} (h : s.regs.cmd = 0x62) (t : InToken) :
    acceptToken t s = .next (tokenStr t s) := by simp [acceptToken, h]
theorem acceptToken_att {s : State} (h : s.regs.cmd = 0x63) (t : InToken) :
    acceptToken t s = .next (tokenAtt t s) := by simp [acceptToken, h]

/-- A token is accepted by the rule of one of the ten stream commands, or `CMD` holds none of their bytes. -/
theorem acceptToken_cases {s t : State} {tok : InToken} (h : acceptToken tok s = .next t) :
    (s.regs.cmd = 0x40 ∧ t = tokenExp tok s) ∨ (s.regs.cmd = 0x41 ∧ t = tokenCol tok s) ∨
    (s.regs.cmd = 0x50 ∧ t = tokenCkc tok s) ∨ (s.regs.cmd = 0x51 ∧ t = tokenCkv tok s) ∨
    (s.regs.cmd = 0x52 ∧ t = tokenCkt tok s) ∨ (s.regs.cmd = 0x53 ∧ t = tokenCka tok s) ∨
    (s.regs.cmd = 0x60 ∧ t = tokenSpl tok s) ∨ (s.regs.cmd = 0x61 ∧ t = tokenPhd tok s) ∨
    (s.regs.cmd = 0x62 ∧ t = tokenStr tok s) ∨ (s.regs.cmd = 0x63 ∧ t = tokenAtt tok s) := by
  obtain ⟨h1, h2, h3, h4, h5, h6, h7, h8, h9, h10⟩ := decode_stream_iff s.regs.cmd
  unfold acceptToken at h
  split at h <;> rename_i hd <;> cases h <;> simp_all

/-! ### One step -/

/-- With nothing scheduled a step is the acceptance of a waiting token, if one can be (R289). -/
theorem step_quiet {s : State} (h : s.host.acts = []) : step s = inputTransfer s := by
  simp [step, runNext, h]

/-- With nothing scheduled and nothing to accept nothing happens (R70). -/
theorem step_idle {s : State} (h : s.host.acts = []) (hq : s.regs.stat.busy = false ∨ s.host.inq = []) :
    step s = .next s := by
  rw [step_quiet h]
  unfold inputTransfer
  cases hi : s.host.inq with
  | nil => rfl
  | cons t q => simp_all

theorem step_act {s : State} {act : HostAct} {rest : List HostAct} (h : s.host.acts = act :: rest) :
    step s = perform act { s with host.acts := rest } := by
  simp [step, runNext, h]

/-- What a command write does when idle or busy, by the three kinds of byte. -/
theorem writeCmd_cases (c : Byte) (s : State) :
    (∃ i, decode c = .command i ∧ writeCmd c s = exec i s) ∨
    (decode c = .reserved ∧ writeCmd c s = .next (rejectReserved s)) := by
  unfold writeCmd
  cases decode c with
  | command i => exact .inl ⟨i, rfl, rfl⟩
  | reserved => exact .inr ⟨rfl, rfl⟩

end Sys2Proof.Machine
end

