-- ==== Sys2Proof/Laws/PerInstr.lean ====
section
/-! SUPPORT. Statements made per command: the family `RowPattern`, that a well-formed command's byte matches the
row of the opcode table with the command's mnemonic (30_encoding.md R96). -/

namespace Sys2Proof.Laws.RowPattern

/-- The byte of a well-formed command matches its row of the table, and only that one. -/
def Statement (i : Instr) : Prop := i.wf = true → (rowsMatching (encode i)).map OpRow.mnemonic = [i.mnemonic]

theorem nop : Statement .nop := fun _ => by decide
theorem clr : Statement .clr := fun _ => by decide
theorem bit (i : Nat) : Statement (.bit i) := by
  intro h
  have hi : i < 8 := of_decide_eq_true h
  interval_cases i <;> decide
theorem wbit (i : Nat) (v : Bool) : Statement (.wbit i v) := by
  intro h
  have hi : i < 8 := of_decide_eq_true h
  interval_cases i <;> cases v <;> decide
theorem nyb : Statement .nyb := fun _ => by decide
theorem bfn : Statement .bfn := fun _ => by decide
theorem tos : Statement .tos := fun _ => by decide
theorem frs : Statement .frs := fun _ => by decide
theorem exp : Statement .exp := fun _ => by decide
theorem col : Statement .col := fun _ => by decide
theorem ckc : Statement .ckc := fun _ => by decide
theorem ckv : Statement .ckv := fun _ => by decide
theorem ckt : Statement .ckt := fun _ => by decide
theorem cka : Statement .cka := fun _ => by decide
theorem spl : Statement .spl := fun _ => by decide
theorem phd : Statement .phd := fun _ => by decide
theorem str : Statement .str := fun _ => by decide
theorem att : Statement .att := fun _ => by decide

end Sys2Proof.Laws.RowPattern
end

