-- ==== Sys2Proof/Laws/Tokens.lean ====
section
/-! SUPPORT. What the token rules do to a sequence of data bytes: for each stream command, the state after the
bytes of a buffer, before its end mark. -/

namespace Sys2Proof.Machine

/-- A sequence of tokens is consumed part by part. -/
theorem acceptTokens_append (ts us : List InToken) (s : State) :
    acceptTokens (ts ++ us) s =
      match acceptTokens ts s with
      | .next s' => acceptTokens us s'
      | .fault r => .fault r
      | .refused r => .refused r := by
  induction ts generalizing s with
  | nil => rfl
  | cons t ts ih =>
    simp only [List.cons_append, acceptTokens]
    cases acceptToken t s with
    | next s' => exact ih s'
    | fault r => rfl
    | refused r => rfl

/-- After a prefix that ends in `s'`, the rest is consumed from `s'`. -/
theorem acceptTokens_append_next {ts : List InToken} {s s' : State} (h : acceptTokens ts s = .next s')
    (us : List InToken) : acceptTokens (ts ++ us) s = acceptTokens us s' := by
  rw [acceptTokens_append, h]

/-- One more token in front. -/
theorem acceptTokens_cons_next {t : InToken} {s s' : State} (h : acceptToken t s = .next s')
    (us : List InToken) : acceptTokens (t :: us) s = acceptTokens us s' := by
  simp [acceptTokens, h]

/-- The last token alone. -/
theorem acceptTokens_one (t : InToken) (s : State) : acceptTokens [t] s = acceptToken t s := by
  simp only [acceptTokens]
  cases acceptToken t s <;> rfl

/-- A whole stream command, given the state after acceptance and the one after its data bytes. -/
theorem runCommand_eq {i : Instr} {x : List Byte} {s s1 s2 : State} (h1 : exec i s = .next s1)
    (h2 : acceptTokens (x.map .B) s1 = .next s2) : runCommand i x s = acceptToken .EOS s2 := by
  simp only [runCommand, h1]
  rw [acceptTokens_append_next h2, acceptTokens_one]

/-- `ICNT` after one more byte, as a count of bytes. -/
theorem count_succ (w : Word) (n : Nat) :
    w + 1#16 + BitVec.ofNat 16 n = w + BitVec.ofNat 16 (n + 1) := by
  rw [BitVec.ofNat_add]
  ac_rfl

/-! ### Transcoder -/

/-- `EXP` on data bytes. -/
theorem acceptTokens_exp (x : List Byte) (s : State) (hc : s.regs.cmd = 0x40) :
    acceptTokens (x.map .B) s = .next { s with
      oq := s.oq ++ (expand x).map .B
      regs.icnt := s.regs.icnt + BitVec.ofNat 16 x.length
      regs.ocnt := s.regs.ocnt + BitVec.ofNat 16 (2 * x.length) } := by
  induction x generalizing s with
  | nil => simp [acceptTokens, expand]
  | cons b x ih =>
    rw [List.map_cons, acceptTokens_cons_next (acceptToken_exp hc _), ih _ (by simpa [tokenExp] using hc)]
    have h1 := count_succ s.regs.icnt x.length
    have h2 : s.regs.ocnt + 1#16 + 1#16 + BitVec.ofNat 16 (2 * x.length) =
        s.regs.ocnt + BitVec.ofNat 16 (2 * (x.length + 1)) := by
      rw [count_succ, count_succ, show 2 * (x.length + 1) = 2 * x.length + 1 + 1 by omega]
    simp [tokenExp, expand, emitByte, countInput, h1, h2]

/-- `COL` on data bytes from an empty hold latch: the bytes of the complete pairs are emitted. -/
theorem acceptTokens_col : ∀ (y : List Byte) (s : State), s.regs.cmd = 0x41 → s.latch.holdValid = false →
    ∃ t x, acceptTokens (y.map .B) s = .next t ∧ t.oq = s.oq ++ x.map .B ∧ x.length = y.length / 2 ∧
      (∀ z, collapse y = .ok z → z = x) ∧
      (y.length % 2 = 1 → collapse y.dropLast = .ok x) ∧
      t.regs = { s.regs with
        icnt := s.regs.icnt + BitVec.ofNat 16 y.length
        ocnt := s.regs.ocnt + BitVec.ofNat 16 (y.length / 2) } ∧
      t.host = s.host ∧ t.latch.segOpen = s.latch.segOpen ∧
      t.latch.holdValid = decide (y.length % 2 = 1)
  | [], s, _, hh => ⟨s, [], by simp [acceptTokens, collapse, hh]⟩
  | [b], s, hc, hh => by
    refine ⟨tokenCol (.B b) s, [], ?_, ?_⟩
    · rw [List.map_singleton, acceptTokens_one, acceptToken_col hc]
    · simp [tokenCol, hh, collapse]
      rfl
  | h :: l :: y, s, hc, hh => by
    have e1 : acceptToken (.B h) s = .next (tokenCol (.B h) s) := acceptToken_col hc _
    have e2 : acceptToken (.B l) (tokenCol (.B h) s) =
        .next (tokenCol (.B l) (tokenCol (.B h) s)) := acceptToken_col (by simp [tokenCol, hh, hc]) _
    obtain ⟨t, x, ht, hoq, hlen, hcol, hodd, hregs, hhost, hseg, hval⟩ :=
      acceptTokens_col y (tokenCol (.B l) (tokenCol (.B h) s)) (by simp [tokenCol, hh, hc])
        (by simp [tokenCol, hh])
    refine ⟨t, byteFromNybbles h l :: x, ?_, ?_, ?_, ?_, ?_, ?_, ?_, ?_, ?_⟩
    · rw [List.map_cons, List.map_cons, acceptTokens_cons_next e1, acceptTokens_cons_next e2, ht]
    · simp [hoq, tokenCol, hh]
    · simp only [List.length_cons, hlen]; omega
    · intro z hz
      rw [collapse_pair] at hz
      cases hy : collapse y with
      | error e => simp [hy, Except.map] at hz
      | ok w =>
        rw [hy, Except.map] at hz
        cases hz
        rw [hcol w hy]
    · intro ho
      have ho' : y.length % 2 = 1 := by simp only [List.length_cons] at ho; omega
      have hy : y ≠ [] := by rintro rfl; simp at ho'
      rw [List.dropLast_cons_of_ne_nil (by simp), List.dropLast_cons_of_ne_nil hy, collapse_pair, hodd ho']
      rfl
    · have h1 : s.regs.icnt + 1#16 + 1#16 + BitVec.ofNat 16 y.length =
          s.regs.icnt + BitVec.ofNat 16 (y.length + 1 + 1) := by
        rw [count_succ, count_succ]
      have h2 : s.regs.ocnt + 1#16 + BitVec.ofNat 16 (y.length / 2) =
          s.regs.ocnt + BitVec.ofNat 16 ((y.length + 1 + 1) / 2) := by
        rw [count_succ, show (y.length + 1 + 1) / 2 = y.length / 2 + 1 by omega]
      simp [hregs, tokenCol, hh, emitByte, countInput, h1, h2]
    · simp [hhost, tokenCol, hh]
    · simp [hseg, tokenCol, hh]
    · rw [hval]
      simp only [List.length_cons, decide_eq_decide]
      omega

/-! ### Checksum -/

/-- The accumulator holds what feeding the bytes of `x` from the start leaves (43_checksum.md R203). -/
def Fed (x : List Byte) (l : Latches) : Prop :=
  (x.length % 2 = 0 ∧ l.holdValid = false ∧ l.sum = wordsum x) ∨
  (∃ y, x = y ++ [l.hold] ∧ y.length % 2 = 0 ∧ l.holdValid = true ∧ l.sum = wordsum y)

theorem Fed.start {l : Latches} (h : l.holdValid = false) (hs : l.sum = 0) : Fed [] l :=
  .inl ⟨rfl, h, hs⟩

/-- `feed(b)` adds one byte (43_checksum.md R203). -/
theorem Fed.feed {x : List Byte} {s : State} (h : Fed x s.latch) (b : Byte) :
    Fed (x ++ [b]) (feed b s).latch := by
  rcases h with ⟨hx, hv, hs⟩ | ⟨y, rfl, hy, hv, hs⟩
  · exact .inr ⟨x, by simp [Machine.feed, hv], hx, by simp [Machine.feed, hv], by simp [Machine.feed, hv, hs]⟩
  · refine .inl ⟨?_, by simp [Machine.feed, hv], ?_⟩
    · simp only [List.length_append, List.length_singleton]; omega
    · rw [List.append_assoc, wordsum_append _ _ hy]
      simp [Machine.feed, hv, hs, wordsum]

/-- The span fed is of odd length exactly when the hold latch is full. -/
theorem Fed.odd {x : List Byte} {l : Latches} (h : Fed x l) : l.holdValid = decide (x.length % 2 = 1) := by
  rcases h with ⟨hx, hv, _⟩ | ⟨y, rfl, hy, hv, _⟩
  · simp [hv, hx]
  · simp only [hv, List.length_append, List.length_singleton]
    symm
    rw [decide_eq_true_eq]
    omega

/-- The sum of an even-length span. -/
theorem Fed.sum {x : List Byte} {l : Latches} (h : Fed x l) (hx : x.length % 2 = 0) :
    l.sum = wordsum x := by
  rcases h with ⟨_, _, hs⟩ | ⟨y, rfl, hy, _, _⟩
  · exact hs
  · simp only [List.length_append, List.length_singleton] at hx; omega

@[simp] theorem feed_regs (b : Byte) (s : State) : (feed b s).regs = s.regs := by
  unfold feed; split <;> rfl
@[simp] theorem feed_oq (b : Byte) (s : State) : (feed b s).oq = s.oq := by
  unfold feed; split <;> rfl
@[simp] theorem feed_host (b : Byte) (s : State) : (feed b s).host = s.host := by
  unfold feed; split <;> rfl
@[simp] theorem feed_params (b : Byte) (s : State) : (feed b s).params = s.params := by
  unfold feed; split <;> rfl
@[simp] theorem feed_segOpen (b : Byte) (s : State) : (feed b s).latch.segOpen = s.latch.segOpen := by
  unfold feed; split <;> rfl

/-- `CKC` and `CKV` on data bytes: counted and fed. -/
theorem acceptTokens_feed {c : Byte}
    (hrule : ∀ (s : State) (b : Byte), s.regs.cmd = c → acceptToken (.B b) s = .next (feed b (countInput s)))
    (x : List Byte) (s : State) (hc : s.regs.cmd = c) (z : List Byte) (hf : Fed z s.latch) :
    ∃ t, acceptTokens (x.map .B) s = .next t ∧ Fed (z ++ x) t.latch ∧ t.oq = s.oq ∧
      t.regs = { s.regs with icnt := s.regs.icnt + BitVec.ofNat 16 x.length } ∧
      t.host = s.host ∧ t.latch.segOpen = s.latch.segOpen := by
  induction x generalizing s z with
  | nil => exact ⟨s, by simp [acceptTokens, hf]⟩
  | cons b x ih =>
    obtain ⟨t, ht, hfed, hoq, hregs, hhost, hseg⟩ :=
      ih (feed b (countInput s)) (by simpa using hc) (z ++ [b]) (Fed.feed (s := countInput s) hf b)
    refine ⟨t, ?_, by simpa using hfed, by simpa using hoq, ?_, by simpa using hhost, by simpa using hseg⟩
    · rw [List.map_cons, acceptTokens_cons_next (hrule s b hc), ht]
    · have h1 := count_succ s.regs.icnt x.length
      simp [hregs, countInput, h1]

/-- `CKA` on data bytes: counted, fed and copied. -/
theorem acceptTokens_cka (x : List Byte) (s : State) (hc : s.regs.cmd = 0x53) (z : List Byte)
    (hf : Fed z s.latch) :
    ∃ t, acceptTokens (x.map .B) s = .next t ∧ Fed (z ++ x) t.latch ∧ t.oq = s.oq ++ x.map .B ∧
      t.regs = { s.regs with
        icnt := s.regs.icnt + BitVec.ofNat 16 x.length
        ocnt := s.regs.ocnt + BitVec.ofNat 16 x.length } ∧
      t.host = s.host ∧ t.latch.segOpen = s.latch.segOpen := by
  induction x generalizing s z with
  | nil => exact ⟨s, by simp [acceptTokens, hf]⟩
  | cons b x ih =>
    obtain ⟨t, ht, hfed, hoq, hregs, hhost, hseg⟩ :=
      ih (emitByte b (feed b (countInput s))) (by simpa using hc) (z ++ [b])
        (Fed.feed (s := countInput s) hf b)
    refine ⟨t, ?_, by simpa using hfed, by simpa using hoq, ?_, by simpa using hhost, by simpa using hseg⟩
    · rw [List.map_cons, acceptTokens_cons_next (acceptToken_cka hc _), tokenCka, ht]
    · have h1 := count_succ s.regs.icnt x.length
      have h2 := count_succ s.regs.ocnt x.length
      simp [hregs, emitByte, countInput, h1, h2]

/-- The delay line of `CKT` once it is full (43_checksum.md R205): all but the last two bytes are fed. -/
theorem acceptTokens_ckt (y : List Byte) (s : State) (hc : s.regs.cmd = 0x52) (hd : s.latch.dcnt = 2)
    (z : List Byte) (hf : Fed z s.latch) :
    ∃ t x, acceptTokens (y.map .B) s = .next t ∧
      z ++ [s.latch.d0, s.latch.d1] ++ y = x ++ [t.latch.d0, t.latch.d1] ∧ Fed x t.latch ∧
      t.latch.dcnt = 2 ∧ t.oq = s.oq ∧
      t.regs = { s.regs with icnt := s.regs.icnt + BitVec.ofNat 16 y.length } ∧
      t.host = s.host ∧ t.latch.segOpen = s.latch.segOpen := by
  induction y generalizing s z with
  | nil => exact ⟨s, z, by simp [acceptTokens, hf, hd]⟩
  | cons b y ih =>
    have hrule : acceptToken (.B b) s = .next (tokenCkt (.B b) s) := acceptToken_ckt hc _
    have hlatch : (tokenCkt (.B b) s).latch =
        { (feed s.latch.d0 (countInput s)).latch with d0 := s.latch.d1, d1 := b } := by
      simp [tokenCkt, delayByte, hd, feed]
    have hd2 : (tokenCkt (.B b) s).latch.dcnt = 2 := by
      rw [hlatch]
      simp only [feed]
      split <;> simpa using hd
    have hregs' : (tokenCkt (.B b) s).regs = { s.regs with icnt := s.regs.icnt + 1 } := by
      simp [tokenCkt, delayByte, hd, countInput]
    have hfed : Fed (z ++ [s.latch.d0]) (tokenCkt (.B b) s).latch := by
      rw [hlatch]
      exact Fed.feed (s := countInput s) hf s.latch.d0
    obtain ⟨t, x, ht, hx, hfx, hdt, hoq, hregs, hhost, hseg⟩ :=
      ih (tokenCkt (.B b) s) (by simpa [hregs'] using hc) hd2 _ hfed
    refine ⟨t, x, ?_, ?_, hfx, hdt, ?_, ?_, ?_, ?_⟩
    · rw [List.map_cons, acceptTokens_cons_next hrule, ht]
    · rw [← hx, hlatch]
      simp
    · simpa [tokenCkt, delayByte, hd] using hoq
    · have h1 := count_succ s.regs.icnt y.length
      simp [hregs, hregs', h1]
    · simpa [tokenCkt, delayByte, hd] using hhost
    · rw [hseg, hlatch]
      simp

/-! ### Framer -/

/-- The tokens of closed segments. -/
def segmentTokens (gs : List (List Byte)) : List OutToken := gs.flatMap fun g => g.map .B ++ [.EOS 0x00]

/-- `SPL` on a whole input: the tokens emitted complete those of the piece already begun. -/
theorem acceptTokens_spl (x : List Byte) (s : State) (piece : List Byte) (hc : s.regs.cmd = 0x60)
    (ho : s.latch.segOpen = decide (piece ≠ [])) :
    ∃ t e, acceptTokens (x.map .B ++ [.EOS]) s = .next t ∧
      segmentTokens (splitFrom s.regs.term piece x) = piece.map .B ++ e ∧ t.oq = s.oq ++ e ∧
      t.regs = { s.regs with
        icnt := s.regs.icnt + BitVec.ofNat 16 x.length
        ocnt := s.regs.ocnt + BitVec.ofNat 16 (x.length - x.count s.regs.term)
        segcnt := s.regs.segcnt + BitVec.ofNat 16 (splitFrom s.regs.term piece x).length
        stat.busy := false
        stat.done := true
        stat.unterm := s.regs.stat.unterm || match x.getLast? with
          | none => decide (piece ≠ [])
          | some b => b != s.regs.term } ∧
      t.host = s.host ∧ t.latch.segOpen = false := by
  induction x generalizing s piece with
  | nil =>
    refine ⟨tokenSpl .EOS s, if piece = [] then [] else [.EOS 0x00], ?_, ?_⟩
    · rw [List.map_nil, List.nil_append, acceptTokens_one, acceptToken_spl hc]
    · by_cases hp : piece = [] <;>
        simp [tokenSpl, ho, hp, splitFrom_nil, segmentTokens, closeSegment, closeBuffer, endCommand, codeOk]
  | cons b x ih =>
    have hrule : acceptToken (.B b) s = .next (tokenSpl (.B b) s) := acceptToken_spl hc _
    have hlast : (b :: x).getLast? = some ((x.getLast?).getD b) := by
      cases x <;> simp [List.getLast?_cons]
    have hcount := List.count_le_length (a := s.regs.term) (l := x)
    have h1 := count_succ s.regs.icnt x.length
    by_cases hb : b = s.regs.term
    · have hregs' : (tokenSpl (.B b) s).regs = { s.regs with
          icnt := s.regs.icnt + 1
          segcnt := s.regs.segcnt + BitVec.ofNat 16 (if piece = [] then 0 else 1) } := by
        by_cases hp : piece = [] <;>
          simp [tokenSpl, ho, hp, hb, closeSegment, closeBuffer, countInput]
      obtain ⟨t, e, ht, he, hoq, hregs, hhost, hseg⟩ :=
        ih (tokenSpl (.B b) s) [] (by simpa [hregs'] using hc)
          (by by_cases hp : piece = [] <;> simp [tokenSpl, ho, hp, hb])
      refine ⟨t, (if piece = [] then [] else [.EOS 0x00]) ++ e, ?_, ?_, ?_, ?_, ?_, hseg⟩
      · rw [List.map_cons, List.cons_append, acceptTokens_cons_next hrule, ht]
      · rw [hregs'] at he
        rw [hb, splitFrom_terminator]
        by_cases hp : piece = [] <;> simp_all [segmentTokens]
      · by_cases hp : piece = [] <;> simp [hoq, tokenSpl, ho, hp, hb, codeOk]
      · rw [hregs, hregs', hlast]
        have h2 : (x.length + 1) - (x.count s.regs.term + 1) = x.length - x.count s.regs.term := by omega
        have h3 : s.regs.segcnt + BitVec.ofNat 16 (if piece = [] then 0 else 1) +
            BitVec.ofNat 16 (splitFrom s.regs.term [] x).length =
            s.regs.segcnt +
              BitVec.ofNat 16 (splitFrom s.regs.term piece (s.regs.term :: x)).length := by
          rw [splitFrom_terminator, List.length_append, BitVec.ofNat_add, BitVec.add_assoc]
          by_cases hp : piece = [] <;> simp [hp]
        have h4 : (match x.getLast? with
            | none => decide (([] : List Byte) ≠ [])
            | some b => b != s.regs.term) = ((x.getLast?).getD b != s.regs.term) := by
          cases x.getLast? <;> simp [hb]
        simp [h1, h2, h3, hb]
        exact h4 ▸ (by simp [hb])
      · by_cases hp : piece = [] <;> simp [hhost, tokenSpl, ho, hp, hb]
    · have hregs' : (tokenSpl (.B b) s).regs = { s.regs with
          icnt := s.regs.icnt + 1, ocnt := s.regs.ocnt + 1 } := by
        simp [tokenSpl, hb, emitByte, countInput]
      obtain ⟨t, e, ht, he, hoq, hregs, hhost, hseg⟩ :=
        ih (tokenSpl (.B b) s) (piece ++ [b]) (by simpa [hregs'] using hc) (by simp [tokenSpl, hb])
      refine ⟨t, .B b :: e, ?_, ?_, ?_, ?_, ?_, hseg⟩
      · rw [List.map_cons, List.cons_append, acceptTokens_cons_next hrule, ht]
      · rw [hregs'] at he
        rw [splitFrom_byte hb, he]
        simp
      · simp [hoq, tokenSpl, hb]
      · rw [hregs, hregs', hlast, splitFrom_byte hb]
        have h2 : s.regs.ocnt + 1#16 + BitVec.ofNat 16 (x.length - x.count s.regs.term) =
            s.regs.ocnt + BitVec.ofNat 16 (x.length + 1 - (b :: x).count s.regs.term) := by
          rw [count_succ, List.count_cons_of_ne hb, Nat.succ_sub hcount]
        have h4 : (match x.getLast? with
            | none => decide (piece ++ [b] ≠ [])
            | some b => b != s.regs.term) = ((x.getLast?).getD b != s.regs.term) := by
          cases x.getLast? <;> simp [hb]
        simp only [List.length_cons, h4, ← h1, ← h2]
        rfl
      · simp [hhost, tokenSpl, hb]

/-- One place written reads back there, and no other place changes. -/
theorem getD_place (b : Byte) (k : Nat) (l : List Byte) (j : Nat) :
    (place b k l).getD j 0 = if j = k then b else l.getD j 0 := by
  induction k generalizing l j with
  | zero => cases l <;> cases j <;> simp [place]
  | succ k ih =>
    cases l with
    | nil =>
      cases j with
      | zero => simp [place]
      | succ j => simpa [place] using ih [] j
    | cons a l =>
      cases j with
      | zero => simp [place]
      | succ j => simpa [place] using ih l j

/-- The header latches hold the bytes of `m` and their number (10_state.md R43). -/
def Filled (m : List Byte) (l : Latches) : Prop :=
  l.hpos = m.length ∧ ∀ k, k < m.length → l.hb.getD k 0 = m.getD k 0

theorem Filled.start {l : Latches} (h : l.hpos = 0) : Filled [] l :=
  ⟨h, fun k hk => absurd hk (Nat.not_lt_zero k)⟩

/-- One more byte kept at the place `s.hpos` (42_message_framer.md R169). -/
theorem Filled.place {m : List Byte} {l l' : Latches} (h : Filled m l) (b : Byte)
    (hp : l'.hpos = l.hpos + 1) (hb : l'.hb = Machine.place b l.hpos l.hb) : Filled (m ++ [b]) l' := by
  obtain ⟨h1, h2⟩ := h
  refine ⟨by simp [hp, h1], fun k hk => ?_⟩
  rw [hb, getD_place, h1]
  rw [List.length_append, List.length_singleton] at hk
  by_cases hkm : k = m.length
  · subst hkm; simp
  · have hlt : k < m.length := by omega
    simp only [hkm, if_false, h2 k hlt]
    rw [List.getD_append _ _ _ _ hlt]

/-- The header is that of the bytes kept, once there are eight of them. -/
theorem Filled.header {m : List Byte} {l : Latches} (h : Filled m l) (h8 : 8 ≤ m.length) :
    headerOf l.hb = headerOf m :=
  headerOf_congr fun k hk => h.2 k (by omega)

@[simp] theorem length_keptBytes (P : Params) (hb : List Byte) : (keptBytes P hb).length = P.msgMin := by
  simp [keptBytes]

/-- All places filled are the bytes kept. -/
theorem Filled.kept {m : List Byte} {l : Latches} {P : Params} (h : Filled m l) (hm : m.length = P.msgMin) :
    keptBytes P l.hb = m := by
  apply List.ext_getElem
  · simp [keptBytes, hm]
  · intro k h1 h2
    simp only [keptBytes, List.getElem_map, List.getElem_range]
    rw [h.2 k h2, List.getD_eq_getElem _ _ h2]

/-- Before the last of the first `MSG_MIN` bytes the header engine fills one more place and nothing else. -/
theorem headerEngine_fill {m : List Byte} {s : State} (hf : Filled m s.latch)
    (hm : m.length + 1 < s.params.msgMin) (b : Byte) :
    headerEngine b s = { s with
      latch.hb := place b s.latch.hpos s.latch.hb, latch.hpos := s.latch.hpos + 1 } := by
  have h1 : s.latch.hpos < s.params.msgMin := by rw [hf.1]; omega
  have h2 : ¬ s.latch.hpos + 1 = s.params.msgMin := by rw [hf.1]; omega
  simp only [headerEngine, h1, h2, if_true, if_false]

/-- The last of the first `MSG_MIN` bytes commits the header (42_message_framer.md R170). -/
theorem headerEngine_commit {m : List Byte} {s : State} (hf : Filled m s.latch)
    (hm : m.length + 1 = s.params.msgMin) (h8 : 8 ≤ s.params.msgMin) (b : Byte) :
    headerEngine b s = { s with
      regs.hdr := headerOf (m ++ [b])
      regs.stat.hdrv := true
      latch.hb := place b s.latch.hpos s.latch.hb
      latch.hpos := s.latch.hpos + 1 } := by
  have h1 : s.latch.hpos < s.params.msgMin := by rw [hf.1]; omega
  have h2 : s.latch.hpos + 1 = s.params.msgMin := by rw [hf.1]; omega
  have h3 : headerOf (place b s.latch.hpos s.latch.hb) = headerOf (m ++ [b]) := by
    have := (hf.place (l' := { s.latch with
      hpos := s.latch.hpos + 1, hb := place b s.latch.hpos s.latch.hb }) b rfl rfl)
    exact this.header (by simp only [List.length_append, List.length_singleton]; omega)
  simp only [headerEngine, h1, h2, if_true, commitHeader, h3]

theorem headerEngine_full {s : State} (h : s.params.msgMin ≤ s.latch.hpos) (b : Byte) :
    headerEngine b s = s := by
  simp [headerEngine, h]

/-- What bytes before the header commit leave: counted and kept, nothing else. -/
def KeptOnly (z m : List Byte) (s t : State) : Prop :=
  Filled (z ++ m) t.latch ∧ t.params = s.params ∧ t.oq = s.oq ∧
    t.regs = { s.regs with icnt := s.regs.icnt + BitVec.ofNat 16 m.length } ∧
    t.host = s.host ∧ t.latch.segOpen = s.latch.segOpen ∧ t.latch.pass = s.latch.pass

/-- `PHD` and `STR` on fewer than `MSG_MIN` bytes: counted and kept, nothing emitted. -/
theorem acceptTokens_keep {c : Byte}
    (hrule : ∀ (s : State) (b : Byte) (z : List Byte), s.regs.cmd = c → Filled z s.latch →
      z.length + 1 < s.params.msgMin → acceptToken (.B b) s = .next (headerEngine b (countInput s)))
    (m : List Byte) (s : State) (z : List Byte) (hc : s.regs.cmd = c)
    (hf : Filled z s.latch) (hz : z.length + m.length < s.params.msgMin) :
    ∃ t, acceptTokens (m.map .B) s = .next t ∧ KeptOnly z m s t := by
  induction m generalizing s z with
  | nil => exact ⟨s, by simp [acceptTokens], by simp [KeptOnly, hf]⟩
  | cons b m ih =>
    rw [List.length_cons] at hz
    have he := headerEngine_fill (s := countInput s) hf (by simpa using by omega) b
    have hf' : Filled (z ++ [b]) (headerEngine b (countInput s)).latch := by
      rw [he]; exact hf.place b rfl rfl
    obtain ⟨t, ht, hft, hpar, hoq, hregs, hhost, hseg, hpass⟩ :=
      ih (headerEngine b (countInput s)) (z ++ [b]) (by rw [he]; exact hc) hf'
        (by rw [he]; simp only [List.length_append, List.length_singleton, countInput_params]; omega)
    refine ⟨t, ?_, by simpa using hft, ?_, ?_, ?_, ?_, ?_, ?_⟩
    · rw [List.map_cons, acceptTokens_cons_next (hrule s b z hc hf (by omega)), ht]
    · rw [hpar, he]; rfl
    · rw [hoq, he]; rfl
    · have h1 := count_succ s.regs.icnt m.length
      rw [hregs, he]
      simp [countInput, h1]
    · rw [hhost, he]; rfl
    · rw [hseg, he]; rfl
    · rw [hpass, he]; rfl

/-- `PHD` before the header commit. -/
theorem acceptTokens_phd_short (m : List Byte) (s : State) (z : List Byte) (hc : s.regs.cmd = 0x61)
    (hf : Filled z s.latch) (hz : z.length + m.length < s.params.msgMin) :
    ∃ t, acceptTokens (m.map .B) s = .next t ∧ KeptOnly z m s t :=
  acceptTokens_keep (fun _ _ _ hc _ _ => acceptToken_phd hc _) m s z hc hf hz

/-- `PHD` past the header: counted. -/
theorem acceptTokens_phd_payload (m : List Byte) (s : State) (hc : s.regs.cmd = 0x61)
    (hp : s.params.msgMin ≤ s.latch.hpos) :
    acceptTokens (m.map .B) s = .next { s with regs.icnt := s.regs.icnt + BitVec.ofNat 16 m.length } := by
  induction m generalizing s with
  | nil => simp [acceptTokens]
  | cons b m ih =>
    have hr : tokenPhd (.B b) s = countInput s := headerEngine_full (s := countInput s) hp b
    rw [List.map_cons, acceptTokens_cons_next (acceptToken_phd hc _), hr, ih (countInput s) hc hp]
    have h1 := count_succ s.regs.icnt m.length
    simp [countInput, h1]

/-- `STR` before the header commit. -/
theorem acceptTokens_str_short (m : List Byte) (s : State) (z : List Byte) (hc : s.regs.cmd = 0x62)
    (hf : Filled z s.latch) (hz : z.length + m.length < s.params.msgMin) :
    ∃ t, acceptTokens (m.map .B) s = .next t ∧ KeptOnly z m s t := by
  refine acceptTokens_keep (fun s b z hc hf hz => ?_) m s z hc hf hz
  have he := headerEngine_fill (s := countInput s) hf (by simpa using hz) b
  have h1 : s.latch.hpos < s.params.msgMin := by rw [hf.1]; omega
  have h2 : ¬ s.latch.hpos + 1 = s.params.msgMin := by rw [hf.1]; omega
  rw [acceptToken_str hc]
  simp [tokenStr, he, h1, h2]

/-- The last of the first `MSG_MIN` bytes of `STR`: the header is committed, and a message without a patch is
passed through; of a patch message what was kept behind the header is payload. -/
theorem tokenStr_commit {m : List Byte} {s : State} (hf : Filled m s.latch)
    (hm : m.length + 1 = s.params.msgMin) (h8 : 8 ≤ s.params.msgMin) (b : Byte) :
    tokenStr (.B b) s = { s with
      regs.hdr := headerOf (m ++ [b])
      regs.stat.hdrv := true
      regs.icnt := s.regs.icnt + 1
      regs.ocnt := s.regs.ocnt + BitVec.ofNat 16
        (if carriesPatch s.params (headerOf (m ++ [b])) then (m ++ [b]).drop s.params.headerLen
          else m ++ [b]).length
      latch.hb := place b s.latch.hpos s.latch.hb
      latch.hpos := s.latch.hpos + 1
      latch.pass := !carriesPatch s.params (headerOf (m ++ [b]))
      oq := s.oq ++ (if carriesPatch s.params (headerOf (m ++ [b])) then (m ++ [b]).drop s.params.headerLen
        else m ++ [b]).map .B } := by
  have hlt : s.latch.hpos < s.params.msgMin := by rw [hf.1]; omega
  have hpos : s.latch.hpos + 1 = s.params.msgMin := by rw [hf.1]; omega
  have he := headerEngine_commit (s := countInput s) hf (by simpa using hm) (by simpa using h8) b
  have hfl : Filled (m ++ [b]) (headerEngine b (countInput s)).latch := by
    rw [he]; exact hf.place b rfl rfl
  have hh := hfl.header (by simp only [List.length_append, List.length_singleton]; omega)
  have hk : keptBytes s.params (headerEngine b (countInput s)).latch.hb = m ++ [b] := hfl.kept (by simpa using hm)
  have hp' : (headerEngine b (countInput s)).params = s.params := by rw [he]; rfl
  have hq : (headerEngine b (countInput s)).latch.hpos = s.params.msgMin := by rw [he]; exact hpos
  have e : tokenStr (.B b) s = routeMessage (headerEngine b (countInput s)) := by
    simp only [tokenStr, countInput_latch, countInput_params, hlt, if_true, hq, hp']
  rw [e]
  simp only [routeMessage, hk, hh, hp', emitBytes_eq]
  rw [he]
  cases carriesPatch s.params (headerOf (m ++ [b])) <;> simp only [Bool.not_false, Bool.not_true, if_true] <;> rfl

/-- `STR` past the header: counted and emitted. -/
theorem acceptTokens_str_payload (m : List Byte) (s : State) (hc : s.regs.cmd = 0x62)
    (hp : s.params.msgMin ≤ s.latch.hpos) :
    acceptTokens (m.map .B) s = .next { s with
      oq := s.oq ++ m.map .B
      regs.icnt := s.regs.icnt + BitVec.ofNat 16 m.length
      regs.ocnt := s.regs.ocnt + BitVec.ofNat 16 m.length } := by
  induction m generalizing s with
  | nil => simp [acceptTokens]
  | cons b m ih =>
    have hr : tokenStr (.B b) s = emitByte b (countInput s) := by
      simp [tokenStr, Nat.not_lt.mpr hp]
    rw [List.map_cons, acceptTokens_cons_next (acceptToken_str hc _), hr, ih (emitByte b (countInput s)) hc hp]
    have h1 := count_succ s.regs.icnt m.length
    have h2 := count_succ s.regs.ocnt m.length
    simp [countInput, emitByte, h1, h2]

/-- `ATT` on data bytes: counted and copied. -/
theorem acceptTokens_att (p : List Byte) (s : State) (hc : s.regs.cmd = 0x63) :
    acceptTokens (p.map .B) s = .next { s with
      oq := s.oq ++ p.map .B
      regs.icnt := s.regs.icnt + BitVec.ofNat 16 p.length
      regs.ocnt := s.regs.ocnt + BitVec.ofNat 16 p.length } := by
  induction p generalizing s with
  | nil => simp [acceptTokens]
  | cons b p ih =>
    rw [List.map_cons, acceptTokens_cons_next (acceptToken_att hc _), ih _ (by simpa [tokenAtt] using hc)]
    have h1 := count_succ s.regs.icnt p.length
    have h2 := count_succ s.regs.ocnt p.length
    simp [tokenAtt, countInput, emitByte, h1, h2]
end Sys2Proof.Machine
end

