-- ==== Sys2Proof/Laws/Steps.lean ====
section
/-! SUPPORT. Everything a step can do, said once: the cases of `step`, of a command's acceptance and of an accepted
token. Proofs about every step cite these instead of unfolding the machine. -/

namespace Sys2Proof.Machine

/-! ### One step -/

/-- Everything a step can do (20_memory.md R70). -/
theorem step_cases {s t : State} (h : step s = .next t) :
    (s.host.acts = [] ∧ t = s) ∨
    (s.host.acts = [] ∧ ∃ tok q, s.host.inq = tok :: q ∧ s.regs.stat.busy = true ∧
      acceptToken tok { s with host.inq := q } = .next t) ∨
    ∃ act rest s0, s.host.acts = act :: rest ∧ s0 = { s with host.acts := rest } ∧
      ((act = .reset ∧ t = resetBlock s0) ∨
       (∃ c i, act = .regWrite 0x00 c ∧ decode c = .command i ∧ exec i s0 = .next t) ∨
       (∃ c, act = .regWrite 0x00 c ∧ decode c = .reserved ∧ t = rejectReserved s0) ∨
       (∃ r v, r ≠ .cmd ∧ act = .regWrite (addr r) v ∧ t = writeReg r v s0) ∨
       (∃ a v, 0x1B ≤ a.toNat ∧ act = .regWrite a v ∧ t = s0) ∨
       (∃ a, act = .regRead a ∧ t = readTransfer a s0) ∨
       (∃ item, act = .offer item ∧ t = offerItem item s0) ∨
       (act = .input ∧ t = s0) ∨
       (∃ tok q, act = .input ∧ s.host.inq = tok :: q ∧ s.regs.stat.busy = true ∧
          acceptToken tok { s0 with host.inq := q } = .next t) ∨
       (act = .output ∧ t = outputTransfer s0)) := by
  cases ha : s.host.acts with
  | nil =>
    rw [step_quiet ha, inputTransfer] at h
    cases hq : s.host.inq with
    | nil => simp only [hq] at h; cases h; exact .inl ⟨rfl, rfl⟩
    | cons tok q =>
      cases hb : s.regs.stat.busy with
      | false => simp only [hq, hb, Bool.false_eq_true, if_false] at h; cases h; exact .inl ⟨rfl, rfl⟩
      | true => simp only [hq, hb, if_true] at h; exact .inr (.inl ⟨rfl, tok, q, rfl, rfl, h⟩)
  | cons act rest =>
    rw [step_act ha] at h
    refine .inr (.inr ⟨act, rest, _, rfl, rfl, ?_⟩)
    cases act with
    | reset => cases h; simp
    | regRead a => cases h; simp
    | offer item => cases h; simp
    | output => cases h; simp
    | regWrite a v =>
      simp only [perform] at h
      rcases writePort_cases a v { s with host.acts := rest } with ⟨rfl, he⟩ | ⟨r, hr, rfl, he⟩ | ⟨ha, he⟩
      · rw [he] at h
        rcases writeCmd_cases v { s with host.acts := rest } with ⟨i, hd, hw⟩ | ⟨hd, hw⟩
        · rw [hw] at h
          exact .inr (.inl ⟨v, i, rfl, hd, h⟩)
        · rw [hw] at h
          cases h
          exact .inr (.inr (.inl ⟨v, rfl, hd, rfl⟩))
      · rw [he] at h
        cases h
        exact .inr (.inr (.inr (.inl ⟨r, v, hr, rfl, rfl⟩)))
      · rw [he] at h
        cases h
        exact .inr (.inr (.inr (.inr (.inl ⟨a, v, ha, rfl, rfl⟩))))
    | input =>
      simp only [perform, inputTransfer] at h
      refine .inr (.inr (.inr (.inr (.inr (.inr (.inr ?_))))))
      cases hq : s.host.inq with
      | nil => simp only [hq] at h; cases h; exact .inl ⟨rfl, by rw [← hq]⟩
      | cons tok q =>
        cases hb : s.regs.stat.busy with
        | false =>
          simp only [hq, hb, Bool.false_eq_true, if_false] at h
          cases h
          exact .inl ⟨rfl, by rw [← hq]⟩
        | true =>
          simp only [hq, hb, if_true] at h
          exact .inr (.inl ⟨tok, q, rfl, rfl, rfl, h⟩)

/-- `Out` on an empty and on a non-empty queue (44_control_and_system.md R226). -/
theorem outputTransfer_cases (s : State) :
    (s.oq = [] ∧ outputTransfer s = s) ∨
    ∃ t q, s.oq = t :: q ∧
      outputTransfer s = { s with oq := q, host.taken := s.host.taken ++ [t] } := by
  cases h : s.oq with
  | nil => exact .inl ⟨rfl, by simp [outputTransfer, h]⟩
  | cons t q => exact .inr ⟨t, q, rfl, by simp [outputTransfer, h]⟩

/-! ### Acceptance -/

/-- What is the same after every accepted command of another kind than `CLR`: the byte is in `CMD`, `FAIL` is
clear, and the registers that no command's acceptance writes are as before (44_control_and_system.md R216). -/
structure Accepted (i : Instr) (s t : State) : Prop where
  cmd : t.regs.cmd = encode i
  fail : t.regs.stat.fail = false
  err : t.regs.err = s.regs.err
  cause : t.regs.cause = s.regs.cause
  term : t.regs.term = s.regs.term
  hdr : t.regs.hdr = s.regs.hdr
  explo : t.regs.explo = s.regs.explo
  exphi : t.regs.exphi = s.regs.exphi
  cks : t.regs.cks = s.regs.cks
  host : t.host = s.host
  params : t.params = s.params

/-- A started stream command: the common start (44_control_and_system.md R219). -/
structure Started (i : Instr) (s t : State) : Prop where
  accepted : Accepted i s t
  busy : t.regs.stat.busy = true
  done : t.regs.stat.done = false
  icnt : t.regs.icnt = 0
  ocnt : t.regs.ocnt = if i = .att then 8 else 0
  oq : t.oq = s.oq ++
    if i = .att then (s.params.sox :: headerBytes s.regs.hdr).map .B else []
  holdValid : t.latch.holdValid = false
  sum : t.latch.sum = 0
  dcnt : t.latch.dcnt = 0
  hpos : t.latch.hpos = 0
  pass : t.latch.pass = false
  opens : opensAtStart i → t.latch.segOpen = true
  closed : ¬ opensAtStart i → t.latch.segOpen = false
  matched : t.regs.stat.matched = if i = .ckv ∨ i = .ckt then false else s.regs.stat.matched
  hdrv : t.regs.stat.hdrv = if i = .phd ∨ i = .str then false else s.regs.stat.hdrv
  unterm : t.regs.stat.unterm = if i = .spl then false else s.regs.stat.unterm
  segcnt : t.regs.segcnt = if i = .spl then 0 else s.regs.segcnt

/-- An idle block starts every stream command. -/
theorem exec_stream {i : Instr} (hi : i.isStream = true) {s : State} (h : s.Idle) :
    ∃ t, exec i s = .next t ∧ Started i s t := by
  cases i <;> first | (exfalso; simp [Instr.isStream] at hi; done) | skip
  all_goals
    simp only [exec, execExp, execCol, execCkc, execCkv, execCkt, execCka, execSpl, execPhd, execStr,
      execAtt, startStream_idle h, emitBytes_eq]
    refine ⟨_, rfl, ⟨by constructor <;> rfl, ?_, ?_, ?_, ?_, ?_, ?_, ?_, ?_, ?_, ?_, ?_, ?_, ?_, ?_, ?_, ?_⟩⟩
    all_goals simp [setBusy, commonStart, accept, opensAtStart, headerBytes]

/-- A finished immediate command: completion and the result registers (44_control_and_system.md R217). -/
structure Finished (i : Instr) (s t : State) : Prop where
  accepted : Accepted i s t
  done : t.regs.stat.done = true
  busy : t.regs.stat.busy = s.regs.stat.busy
  matched : t.regs.stat.matched = s.regs.stat.matched
  hdrv : t.regs.stat.hdrv = s.regs.stat.hdrv
  unterm : t.regs.stat.unterm = s.regs.stat.unterm
  icnt : t.regs.icnt = s.regs.icnt
  ocnt : t.regs.ocnt = s.regs.ocnt
  segcnt : t.regs.segcnt = s.regs.segcnt
  opa : t.regs.opa = s.regs.opa
  opb : t.regs.opb = s.regs.opb
  latch : t.latch = s.latch
  oq : t.oq = s.oq

/-- An idle block performs every immediate command at once. -/
theorem exec_immediate {i : Instr} (hi : i.isStream = false) (hc : i ≠ .clr) {s : State} (h : s.Idle) :
    ∃ t, exec i s = .next t ∧ Finished i s t := by
  cases i <;> first | (exfalso; simp [Instr.isStream] at hi; done) | (exfalso; exact hc rfl) | skip
  all_goals
    simp only [exec, execNop, execBit, execWbit, execNyb, execBfn, execTos, execFrs, immediate_idle h]
    exact ⟨_, rfl, ⟨by constructor <;> rfl, rfl, rfl, rfl, rfl, rfl, rfl, rfl, rfl, rfl, rfl, rfl, rfl⟩⟩

/-- Everything a command write can do (44_control_and_system.md R216). -/
theorem exec_cases {i : Instr} {s t : State} (h : exec i s = .next t) :
    (i ≠ .clr ∧ s.regs.stat.busy = true ∧ t = rejectBusy s) ∨
    (i = .clr ∧ t = { s with
      regs := Regs.reset s.params
      latch := Latches.reset s.params
      oq := s.oq ++ (if s.latch.segOpen then [.EOS codeAbort] else []) }) ∨
    (i.isStream = false ∧ i ≠ .clr ∧ s.Idle ∧ Finished i s t) ∨
    (i.isStream = true ∧ s.Idle ∧ Started i s t) := by
  by_cases hc : i = .clr
  · subst hc
    rw [exec, execClr_eq] at h
    cases h
    exact .inr (.inl ⟨rfl, rfl⟩)
  · cases hb : s.regs.stat.busy with
    | true =>
      rw [exec_busy hb hc] at h
      cases h
      exact .inl ⟨hc, rfl, rfl⟩
    | false =>
      cases hi : i.isStream with
      | true =>
        obtain ⟨u, hu, hs⟩ := exec_stream hi (s := s) hb
        rw [hu] at h
        cases h
        exact .inr (.inr (.inr ⟨rfl, hb, hs⟩))
      | false =>
        obtain ⟨u, hu, hs⟩ := exec_immediate hi hc (s := s) hb
        rw [hu] at h
        cases h
        exact .inr (.inr (.inl ⟨rfl, hc, hb, hs⟩))

/-- A command write always has a next state. -/
theorem exec_next (i : Instr) (s : State) : ∃ t, exec i s = .next t := by
  by_cases hc : i = .clr
  · subst hc; exact ⟨_, execClr_eq s⟩
  · cases hb : s.regs.stat.busy with
    | true => exact ⟨_, exec_busy hb hc⟩
    | false =>
      cases hi : i.isStream with
      | true => exact (exec_stream hi (s := s) hb).imp fun _ h => h.1
      | false => exact (exec_immediate hi hc (s := s) hb).imp fun _ h => h.1

/-! ### Token rules -/

/-- What the header engine leaves alone (42_message_framer.md R169). -/
theorem headerEngine_frame (b : Byte) (s : State) :
    headerEngine b s = { s with
      regs.hdr := (headerEngine b s).regs.hdr
      regs.stat.hdrv := (headerEngine b s).regs.stat.hdrv
      latch.hb := (headerEngine b s).latch.hb
      latch.hpos := (headerEngine b s).latch.hpos } := by
  unfold headerEngine
  split
  · simp only
    split <;> rfl
  · rfl

/-- A running stream command has a token rule. -/
theorem acceptToken_next {i : Instr} (hi : i.isStream = true) {s : State} (hc : s.regs.cmd = encode i)
    (tok : InToken) : ∃ t, acceptToken tok s = .next t := by
  cases i <;> first | (exfalso; simp [Instr.isStream] at hi; done) | skip
  · exact ⟨_, acceptToken_exp hc tok⟩
  · exact ⟨_, acceptToken_col hc tok⟩
  · exact ⟨_, acceptToken_ckc hc tok⟩
  · exact ⟨_, acceptToken_ckv hc tok⟩
  · exact ⟨_, acceptToken_ckt hc tok⟩
  · exact ⟨_, acceptToken_cka hc tok⟩
  · exact ⟨_, acceptToken_spl hc tok⟩
  · exact ⟨_, acceptToken_phd hc tok⟩
  · exact ⟨_, acceptToken_str hc tok⟩
  · exact ⟨_, acceptToken_att hc tok⟩

/-- What every accepted data byte does and leaves alone (44_control_and_system.md R225, 60_exceptions.md R238). -/
structure ByteTaken (s t : State) : Prop where
  cmd : t.regs.cmd = s.regs.cmd
  busy : t.regs.stat.busy = s.regs.stat.busy
  done : t.regs.stat.done = s.regs.stat.done
  fail : t.regs.stat.fail = s.regs.stat.fail
  matched : t.regs.stat.matched = s.regs.stat.matched
  unterm : t.regs.stat.unterm = s.regs.stat.unterm
  err : t.regs.err = s.regs.err
  cause : t.regs.cause = s.regs.cause
  term : t.regs.term = s.regs.term
  explo : t.regs.explo = s.regs.explo
  exphi : t.regs.exphi = s.regs.exphi
  cks : t.regs.cks = s.regs.cks
  icnt : t.regs.icnt = s.regs.icnt + 1
  host : t.host = s.host
  params : t.params = s.params
  segOpen : s.regs.cmd ≠ 0x60 → t.latch.segOpen = s.latch.segOpen
  oq : ∃ e : List OutToken, e.length ≤ max 8 s.params.msgMin ∧ t.oq = s.oq ++ e

theorem acceptToken_byte {b : Byte} {s t : State} (h : acceptToken (.B b) s = .next t) : ByteTaken s t := by
  have hh := headerEngine_frame b (countInput s)
  rcases acceptToken_cases h with ⟨hc, rfl⟩ | ⟨hc, rfl⟩ | ⟨hc, rfl⟩ | ⟨hc, rfl⟩ | ⟨hc, rfl⟩ | ⟨hc, rfl⟩ |
    ⟨hc, rfl⟩ | ⟨hc, rfl⟩ | ⟨hc, rfl⟩ | ⟨hc, rfl⟩
  · constructor <;> simp [tokenExp]
  · constructor <;> simp only [tokenCol] <;> split <;> simp
  · constructor <;> simp [tokenCkc]
  · constructor <;> simp [tokenCkv]
  · constructor <;> simp only [tokenCkt, delayByte] <;> split_ifs <;> simp
  · constructor <;> simp [tokenCka]
  · constructor <;> simp only [tokenSpl, closeSegment] <;> split_ifs <;> simp [hc]
  · constructor <;> simp only [tokenPhd] <;> rw [hh] <;> simp
  · constructor <;> simp only [tokenStr, routeMessage, emitBytes_eq] <;> rw [hh] <;> split_ifs <;> simp
  · constructor <;> simp [tokenAtt]

/-- What every accepted end mark does and leaves alone: the command ends (44_control_and_system.md R220,
60_exceptions.md R245). -/
structure EndTaken (s t : State) : Prop where
  cmd : t.regs.cmd = s.regs.cmd
  busy : t.regs.stat.busy = false
  done : t.regs.stat.done = true
  hdrv : t.regs.stat.hdrv = s.regs.stat.hdrv
  hdr : t.regs.hdr = s.regs.hdr
  term : t.regs.term = s.regs.term
  icnt : t.regs.icnt = s.regs.icnt
  host : t.host = s.host
  hpos : t.latch.hpos = s.latch.hpos
  hb : t.latch.hb = s.latch.hb
  pass : t.latch.pass = s.latch.pass
  params : t.params = s.params
  event : (t.regs.err = s.regs.err ∧ t.regs.cause = s.regs.cause) ∨
    ∃ e, t.regs.err = s.regs.err ||| errMask e ∧ t.regs.cause = causeCode e
  oq : ∃ e : List OutToken, e.length ≤ 8 ∧ t.oq = s.oq ++ e

/-- A fatal fault ends the command. -/
theorem EndTaken.fatal (e : Event) (s : State) : EndTaken s (raiseFatal e s) := by
  rw [raiseFatal_eq]
  refine ⟨rfl, rfl, rfl, rfl, rfl, rfl, rfl, rfl, rfl, rfl, rfl, rfl, .inr ⟨e, rfl, rfl⟩, _, ?_, rfl⟩
  split <;> simp

theorem acceptToken_eos {s t : State} (h : acceptToken .EOS s = .next t) : EndTaken s t := by
  rcases acceptToken_cases h with ⟨hc, rfl⟩ | ⟨hc, rfl⟩ | ⟨hc, rfl⟩ | ⟨hc, rfl⟩ | ⟨hc, rfl⟩ | ⟨hc, rfl⟩ |
    ⟨hc, rfl⟩ | ⟨hc, rfl⟩ | ⟨hc, rfl⟩ | ⟨hc, rfl⟩
  · constructor <;> simp [tokenExp]
  · simp only [tokenCol]
    split
    · exact EndTaken.fatal _ s
    · constructor <;> simp
  · simp only [tokenCkc]
    split
    · exact EndTaken.fatal _ s
    · constructor <;> simp
  · simp only [tokenCkv, settleMatch, reportMismatch]
    split_ifs
    · exact EndTaken.fatal _ s
    · constructor <;> simp
    · constructor <;> simp
      exact .inr ⟨.cksum, rfl, rfl⟩
  · simp only [tokenCkt, settleMatch, reportMismatch]
    split_ifs
    · exact EndTaken.fatal _ s
    · exact EndTaken.fatal _ s
    · constructor <;> simp
    · constructor <;> simp
      exact .inr ⟨.cksum, rfl, rfl⟩
  · simp only [tokenCka, emitBytes_eq]
    split
    · exact EndTaken.fatal _ s
    · constructor <;> simp
  · simp only [tokenSpl, closeSegment]
    split
    · constructor <;> simp
    · constructor <;> simp
  · simp only [tokenPhd]
    split
    · exact EndTaken.fatal _ s
    · constructor <;> simp
  · simp only [tokenStr]
    split
    · exact EndTaken.fatal _ s
    · constructor <;> simp
  · constructor <;> simp [tokenAtt]

/-- `feed` does not look at the outside world. -/
theorem feed_withHost (b : Byte) (s : State) (h : HostSide) :
    feed b { s with host := h } = { feed b s with host := h } := by
  unfold feed
  cases hv : s.latch.holdValid <;> rfl

/-- The header engine does not look at the outside world. -/
theorem headerEngine_withHost (b : Byte) (s : State) (h : HostSide) :
    headerEngine b { s with host := h } = { headerEngine b s with host := h } := by
  by_cases hp : s.latch.hpos < s.params.msgMin
  · simp only [headerEngine, hp, if_true]
    split <;> rfl
  · simp only [headerEngine, hp, if_false]

/-- No token rule looks at the outside world: accepting a token and changing the outside world commute. -/
theorem acceptToken_withHost {t : InToken} {s u : State} (hs : acceptToken t s = .next u) (h : HostSide) :
    acceptToken t { s with host := h } = .next { u with host := h } := by
  rcases acceptToken_cases hs with ⟨hc, rfl⟩ | ⟨hc, rfl⟩ | ⟨hc, rfl⟩ | ⟨hc, rfl⟩ | ⟨hc, rfl⟩ | ⟨hc, rfl⟩ |
    ⟨hc, rfl⟩ | ⟨hc, rfl⟩ | ⟨hc, rfl⟩ | ⟨hc, rfl⟩
  · rw [acceptToken_exp (s := { s with host := h }) hc]
    cases t <;> rfl
  · rw [acceptToken_col (s := { s with host := h }) hc]
    cases t <;> cases hv : s.latch.holdValid <;>
      simp [tokenCol, hv, raiseFatal_eq, emitByte, closeBuffer, endCommand, countInput]
  · rw [acceptToken_ckc (s := { s with host := h }) hc]
    cases t with
    | B b => exact congrArg _ (feed_withHost b (countInput s) h)
    | EOS => cases hv : s.latch.holdValid <;> simp [tokenCkc, hv, raiseFatal_eq, endCommand, setCks, finish]
  · rw [acceptToken_ckv (s := { s with host := h }) hc]
    cases t with
    | B b => exact congrArg _ (feed_withHost b (countInput s) h)
    | EOS =>
      cases hv : s.latch.holdValid
      · simp only [tokenCkv, hv, settleMatch, Bool.false_eq_true, if_false]
        by_cases hm : finish s == expected s.regs
        · have hm' : finish { s with host := h } == expected s.regs := hm
          simp only [setCks, hm, hm', if_true]
          rfl
        · have hm' : ¬ finish { s with host := h } == expected s.regs := hm
          simp only [setCks, hm, hm']
          rfl
      · simp [tokenCkv, hv, raiseFatal_eq]
  · rw [acceptToken_ckt (s := { s with host := h }) hc]
    cases t with
    | B b =>
      by_cases h0 : s.latch.dcnt = 0
      · simp [tokenCkt, delayByte, countInput, h0]
      by_cases h1 : s.latch.dcnt = 1
      · simp [tokenCkt, delayByte, countInput, h1]
      · simp only [tokenCkt, delayByte, countInput_latch, h0, h1, if_false]
        exact congrArg _ (congrArg (fun u : State => { u with latch.d0 := s.latch.d1, latch.d1 := b })
            (feed_withHost s.latch.d0 (countInput s) h))
    | EOS =>
      simp only [tokenCkt, raiseFatal_eq, settleMatch]
      by_cases hd : s.latch.dcnt.val < 2
      · simp [hd]
      · cases hv : s.latch.holdValid
        · simp only [hd, if_false, Bool.false_eq_true]
          by_cases hm : finish s == wordOf s.latch.d1 s.latch.d0
          · have hm' : finish { s with host := h } == wordOf s.latch.d1 s.latch.d0 := hm
            simp only [setCks, hm, hm', if_true]
            rfl
          · have hm' : ¬ finish { s with host := h } == wordOf s.latch.d1 s.latch.d0 := hm
            simp only [setCks, hm, hm']
            rfl
        · simp [hd]
  · rw [acceptToken_cka (s := { s with host := h }) hc]
    cases t with
    | B b => exact congrArg _ (congrArg (emitByte b) (feed_withHost b (countInput s) h))
    | EOS =>
      cases hv : s.latch.holdValid <;>
        simp [tokenCka, hv, raiseFatal_eq, endCommand, setCks, finish, closeBuffer, emitBytes_eq]
  · rw [acceptToken_spl (s := { s with host := h }) hc]
    cases t with
    | B b =>
      by_cases hb : b = s.regs.term
      · cases hv : s.latch.segOpen <;> simp [tokenSpl, hb, hv, closeSegment, closeBuffer, countInput]
      · simp [tokenSpl, hb, emitByte, countInput]
    | EOS => cases hv : s.latch.segOpen <;> simp [tokenSpl, hv, endCommand, closeSegment, closeBuffer]
  · rw [acceptToken_phd (s := { s with host := h }) hc]
    cases t with
    | B b => exact congrArg _ (headerEngine_withHost b (countInput s) h)
    | EOS => by_cases hp : s.latch.hpos < s.params.msgMin <;> simp [tokenPhd, hp, raiseFatal_eq, endCommand]
  · rw [acceptToken_str (s := { s with host := h }) hc]
    cases t with
    | B b =>
      have he := headerEngine_withHost b (countInput s) h
      by_cases hp : s.latch.hpos < s.params.msgMin
      · have e1 : tokenStr (.B b) { s with host := h } =
            if (headerEngine b (countInput s)).latch.hpos = (headerEngine b (countInput s)).params.msgMin then
              routeMessage { headerEngine b (countInput s) with host := h }
            else { headerEngine b (countInput s) with host := h } := by
          have he' : headerEngine b (countInput { s with host := h }) =
              { headerEngine b (countInput s) with host := h } := he
          simp only [tokenStr, countInput_latch, countInput_params, hp, if_true, he']
        have e2 : tokenStr (.B b) s =
            if (headerEngine b (countInput s)).latch.hpos = (headerEngine b (countInput s)).params.msgMin then
              routeMessage (headerEngine b (countInput s))
            else headerEngine b (countInput s) := by
          simp only [tokenStr, countInput_latch, countInput_params, hp, if_true]
        rw [e1, e2]
        split_ifs
        · simp only [routeMessage, emitBytes_eq]
        · rfl
      · simp [tokenStr, hp, emitByte, countInput]
    | EOS =>
      by_cases hp : s.latch.hpos < s.params.msgMin <;>
        simp [tokenStr, hp, raiseFatal_eq, endCommand, closeBuffer]
  · rw [acceptToken_att (s := { s with host := h }) hc]
    cases t <;> rfl

/-! ### The parameters are no state -/

/-- A token changes no parameter. -/
theorem acceptToken_params {tok : InToken} {s t : State} (h : acceptToken tok s = .next t) :
    t.params = s.params := by
  cases tok with
  | B b => exact (acceptToken_byte h).params
  | EOS => exact (acceptToken_eos h).params

/-- A command changes no parameter. -/
theorem exec_params {i : Instr} {s t : State} (h : exec i s = .next t) : t.params = s.params := by
  rcases exec_cases h with ⟨_, _, rfl⟩ | ⟨_, rfl⟩ | ⟨_, _, _, hf⟩ | ⟨_, _, hf⟩
  · rfl
  · rfl
  · exact hf.accepted.params
  · exact hf.accepted.params

/-- A sequence of tokens changes no parameter. -/
theorem acceptTokens_params {ts : List InToken} {s t : State} (h : acceptTokens ts s = .next t) :
    t.params = s.params := by
  induction ts generalizing s with
  | nil => cases h; rfl
  | cons tok ts ih =>
    rw [acceptTokens] at h
    split at h
    · rename_i u hu
      rw [ih h, acceptToken_params hu]
    · cases h
    · cases h

/-- A whole stream command changes no parameter. -/
theorem runCommand_params {i : Instr} {x : List Byte} {s t : State} (h : runCommand i x s = .next t) :
    t.params = s.params := by
  rw [runCommand] at h
  split at h
  · rename_i u hu
    rw [acceptTokens_params h, exec_params hu]
  · cases h
  · cases h

/-- A register write changes no parameter. -/
theorem writeReg_params (r : Reg) (v : Byte) (s : State) : (writeReg r v s).params = s.params := by
  unfold writeReg
  split <;> try rfl
  split <;> rfl

/-- No step changes a parameter (00_scope.md R6). -/
theorem step_params {s t : State} (h : step s = .next t) : t.params = s.params := by
  rcases step_cases h with ⟨_, rfl⟩ | ⟨_, _, _, _, _, he⟩ | ⟨_, _, _, _, rfl, hc⟩
  · rfl
  · exact (acceptToken_params he :)
  · rcases hc with ⟨_, rfl⟩ | ⟨_, _, _, _, he⟩ | ⟨_, _, _, rfl⟩ | ⟨r, v, _, _, rfl⟩ | ⟨_, _, _, _, rfl⟩ |
      ⟨_, _, rfl⟩ | ⟨_, _, rfl⟩ | ⟨_, rfl⟩ | ⟨_, _, _, _, _, he⟩ | ⟨_, rfl⟩
    · rfl
    · exact (exec_params he :)
    · unfold rejectReserved
      split <;> rfl
    · exact writeReg_params r v _
    · rfl
    · rfl
    · rfl
    · rfl
    · exact (acceptToken_params he :)
    · unfold outputTransfer
      split <;> rfl

/-! ### Runs -/

/-- The first step of a run. -/
theorem run_succ {k : Nat} {s t : State} (h : step s = .next t) :
    Host.Core.run core (k + 1) s = Host.Core.run core k t := by
  have h' : core.step s = .next t := h
  simp only [Host.Core.run, h']

end Sys2Proof.Machine
end

