-- ==== Sys2Proof/Tests/Slice0.lean ====
section
/-! SUPPORT. The model's own tests: ill-formed terms refused, words written out from the encoding tables, one step
per test with the values of 95_test_vectors.md, and for every statement with hypotheses a witness that meets them
(`witness_<statement>`). -/

namespace Sys2Proof.Tests

open Sys2Proof Sys2Proof.Machine

/-! ### Well-formedness -/

theorem test_wf_bit_8_refused : Instr.wf (.bit 8) = false := by decide
theorem test_wf_wbit_8_refused : Instr.wf (.wbit 8 true) = false := by decide
theorem test_wf_bit_7 : Instr.wf (.bit 7) = true := by decide

/-! ### Decoding: words from the pattern column of 30_encoding.md R96 -/

theorem test_decode_nop : decode 0b00000000 = .command .nop := by decide
theorem test_decode_clr : decode 0b00000001 = .command .clr := by decide
theorem test_decode_bit_0 : decode 0b00010000 = .command (.bit 0) := by decide
theorem test_decode_bit_7 : decode 0b00010111 = .command (.bit 7) := by decide
theorem test_decode_wbit_7_1 : decode 0b00101111 = .command (.wbit 7 true) := by decide
theorem test_decode_wbit_7_0 : decode 0b00100111 = .command (.wbit 7 false) := by decide
theorem test_decode_wbit_0_1 : decode 0b00101000 = .command (.wbit 0 true) := by decide
theorem test_decode_nyb : decode 0b00110000 = .command .nyb := by decide
theorem test_decode_bfn : decode 0b00110001 = .command .bfn := by decide
theorem test_decode_tos : decode 0b00110010 = .command .tos := by decide
theorem test_decode_frs : decode 0b00110011 = .command .frs := by decide
theorem test_decode_exp : decode 0b01000000 = .command .exp := by decide
theorem test_decode_col : decode 0b01000001 = .command .col := by decide
theorem test_decode_ckc : decode 0b01010000 = .command .ckc := by decide
theorem test_decode_ckv : decode 0b01010001 = .command .ckv := by decide
theorem test_decode_ckt : decode 0b01010010 = .command .ckt := by decide
theorem test_decode_cka : decode 0b01010011 = .command .cka := by decide
theorem test_decode_spl : decode 0b01100000 = .command .spl := by decide
theorem test_decode_phd : decode 0b01100001 = .command .phd := by decide
theorem test_decode_str : decode 0b01100010 = .command .str := by decide
theorem test_decode_att : decode 0b01100011 = .command .att := by decide
/-- One byte from each reserved range of 30_encoding.md R97. -/
theorem test_decode_reserved :
    [0x02, 0x0F, 0x18, 0x1F, 0x34, 0x3F, 0x42, 0x54, 0x64, 0x70, 0xFF].all
      (fun c : Byte => decode c == .reserved) = true := by decide
theorem test_table_word_too_wide : decodeTableWord 16 0x40 = none := by decide

/-! ### One step per test -/

/-- The state after one step meets a test. -/
def after (s : State) (f : State → Bool) : Bool :=
  match step s with
  | .next t => f t
  | .fault _ => false
  | .refused _ => false

/-- The host writes a command byte next, with the operand registers set. -/
def issue (c : Byte) (opa opb : Byte) : State :=
  { State.reset with host.acts := [.regWrite 0x00 c], regs.opa := opa, regs.opb := opb }

/-- A running stream command, as its acceptance from reset leaves it, with a token at the input port and an `In`
next. -/
def feeding (i : Instr) (segOpen : Bool) (t : InToken) : State :=
  { State.reset with
    regs.cmd := encode i
    regs.stat.busy := true
    latch.segOpen := segOpen
    host.acts := [.input]
    host.inq := [t] }

/-- The two result registers. -/
def results (s : State) : Byte × Byte := (s.regs.res0, s.regs.res1)

/-- R221: `CMD NOP` after a fault gives `STAT = 0x02`. -/
theorem test_nop : after { issue 0x00 0 0 with regs.stat.done := true, regs.stat.fail := true }
    (fun t => statByte t.params t.regs == 0x02) = true := by decide
/-- R222: `CMD EXP`, `IN A5`, `CMD CLR`. -/
theorem test_clr : after { feeding .exp true .EOS with
      oq := [.B 0x0A, .B 0x05], host.acts := [.regWrite 0x00 0x01] }
    (fun t => t.oq == [.B 0x0A, .B 0x05, .EOS 0x1F] && statByte t.params t.regs == 0x00) = true := by decide
/-- V2.1. -/
theorem test_bit_7 : after (issue 0x17 0xA5 0) (fun t => results t == (0x01, 0x00)) = true := by decide
theorem test_bit_6 : after (issue 0x16 0xA5 0) (fun t => results t == (0x00, 0x00)) = true := by decide
/-- V2.2. -/
theorem test_wbit_set : after (issue 0x2F 0x5A 0) (fun t => results t == (0xDA, 0x00)) = true := by decide
theorem test_wbit_clear : after (issue 0x21 0x5A 0)
    (fun t => results t == (0x58, 0x00) && t.regs.opa == 0x5A) = true := by decide
/-- V2.4. -/
theorem test_nyb : after (issue 0x30 0xA5 0) (fun t => results t == (0x0A, 0x05)) = true := by decide
theorem test_bfn_masks : after (issue 0x31 0x1F 0x23) (fun t => results t == (0xF3, 0x00)) = true := by decide
theorem test_tos_negative : after (issue 0x32 0x80 0) (fun t => results t == (0x80, 0xFF)) = true := by decide
theorem test_tos_positive : after (issue 0x32 0x7F 0) (fun t => results t == (0x7F, 0x00)) = true := by decide
theorem test_frs_masks : after (issue 0x33 0x7F 0xFF) (fun t => results t == (0x7F, 0x00)) = true := by decide
/-- V3.7: `EXP` of `FF`. -/
theorem test_exp_byte : after (feeding .exp true (.B 0xFF))
    (fun t => t.oq == [.B 0x0F, .B 0x0F] && t.regs.ocnt == 2) = true := by decide
theorem test_exp_start : after (issue 0x40 0 0)
    (fun t => statByte t.params t.regs == 0x01 && t.latch.segOpen) = true := by decide
/-- V3.14: `COL` of the pair `1F 23`, its second byte. -/
theorem test_col_masks : after { feeding .col true (.B 0x23) with latch.hold := 0x1F, latch.holdValid := true }
    (fun t => t.oq == [.B 0xF3] && t.regs.ocnt == 1) = true := by decide
/-- V3.17: odd length. -/
theorem test_col_odd : after { feeding .col true .EOS with latch.hold := 0x0A, latch.holdValid := true }
    (fun t => t.oq == [.EOS 0x12] && statByte t.params t.regs == 0x06 && t.regs.err == 0x04 &&
      t.regs.cause == 0x12) = true := by decide
/-- V5.2.1: the empty span. -/
theorem test_ckc_empty : after (feeding .ckc false .EOS)
    (fun t => t.regs.cks == 0x5A3C && t.oq == [] && statByte t.params t.regs == 0x02) = true := by decide
/-- R203: the second byte of a word is its high byte. -/
theorem test_ckc_word : after { feeding .ckc false (.B 0x34) with latch.hold := 0x12, latch.holdValid := true }
    (fun t => t.latch.sum == 0x3412 && !t.latch.holdValid) = true := by decide
/-- V5.2.6 and V5.2.7 at their end marks. -/
theorem test_ckv_match : after { feeding .ckv false .EOS with
      latch.sum := 0x3412, regs.explo := 0x2A, regs.exphi := 0x26 }
    (fun t => statByte t.params t.regs == 0x0A && t.regs.err == 0x00 && t.regs.cks == 0x262A) = true := by decide
theorem test_ckv_mismatch : after { feeding .ckv false .EOS with
      latch.sum := 0x3412, regs.explo := 0x2B, regs.exphi := 0x26 }
    (fun t => statByte t.params t.regs == 0x02 && t.regs.err == 0x10 && t.regs.cause == 0x14) = true := by decide
/-- V5.2.11 at its end mark. -/
theorem test_ckt_match : after { feeding .ckt false .EOS with
      latch.sum := 0x3412, latch.dcnt := 2, latch.d0 := 0x2A, latch.d1 := 0x26 }
    (fun t => statByte t.params t.regs == 0x0A && t.regs.explo == 0x2A && t.regs.exphi == 0x26) = true := by decide
/-- V5.2.18: one byte. -/
theorem test_ckt_short : after { feeding .ckt false .EOS with latch.dcnt := 1, latch.d0 := 0x3C }
    (fun t => statByte t.params t.regs == 0x06 && t.regs.err == 0x08 && t.regs.cause == 0x13) = true := by decide
/-- V5.2.22 at its end mark: the low byte of the checksum comes first. -/
theorem test_cka_end : after { feeding .cka true .EOS with latch.sum := 0x3412 }
    (fun t => t.oq == [.B 0x2A, .B 0x26, .EOS 0x00] && t.regs.cks == 0x262A) = true := by decide
/-- V5.2.25 at its end mark. -/
theorem test_cka_odd : after { feeding .cka true .EOS with latch.hold := 0x12, latch.holdValid := true }
    (fun t => t.oq == [.EOS 0x15] && t.regs.cks == 0x0000 && t.regs.err == 0x20) = true := by decide
/-- R168: a terminator closes an open segment and drops an empty one. -/
theorem test_spl_terminator : after (feeding .spl true (.B 0xF7))
    (fun t => t.oq == [.EOS 0x00] && t.regs.segcnt == 1 && t.regs.icnt == 1 && t.regs.ocnt == 0) = true := by
  decide
/-- V4.1, a last segment without terminator: `STAT = 0x42`. -/
theorem test_spl_unterminated : after (feeding .spl true .EOS)
    (fun t => t.oq == [.EOS 0x00] && statByte t.params t.regs == 0x42) = true := by decide
/-- V4.2.1, the eighth byte. -/
theorem test_phd_commit : after { feeding .phd false (.B 0x05) with
      latch.hpos := 7, latch.hb := [0xF0, 0x40, 0x00, 0x20, 0x00, 0x02, 0x00, 0x00] }
    (fun t => t.regs.hdr == ⟨0x40, 0x00, 0x20, 0x00, 0x02, 0x00, 0x05⟩ && progByte t.params t.regs == 0x06 &&
      statByte t.params t.regs == 0x31) = true := by decide
/-- V4.2.3: seven bytes. -/
theorem test_phd_short : after { feeding .phd false .EOS with latch.hpos := 7 }
    (fun t => statByte t.params t.regs == 0x06 && t.oq == []) = true := by decide
/-- V4.3.3, the eighth byte: eight tokens at once. -/
theorem test_str_pass : after { feeding .str true (.B 0x05) with
      latch.hpos := 7, latch.hb := [0xF0, 0x40, 0x00, 0x21, 0x00, 0x02, 0x00, 0x00] }
    (fun t => t.oq == [.B 0xF0, .B 0x40, .B 0x00, .B 0x21, .B 0x00, .B 0x02, .B 0x00, .B 0x05] &&
      t.regs.ocnt == 8) = true := by decide
/-- V4.3.7: an empty message. -/
theorem test_str_empty : after (feeding .str true .EOS)
    (fun t => t.oq == [.EOS 0x13] && t.regs.err == 0x08) = true := by decide
/-- V4.4.5: the header tokens at acceptance. -/
theorem test_att_start : after { issue 0x63 0 0 with regs.hdr := ⟨0x40, 0x00, 0x20, 0x00, 0x02, 0x00, 0x05⟩ }
    (fun t => t.oq == [.B 0xF0, .B 0x40, .B 0x00, .B 0x20, .B 0x00, .B 0x02, .B 0x00, .B 0x05] &&
      statByte t.params t.regs == 0x11 && t.regs.ocnt == 8) = true := by decide
/-- V4.4.6: the end marker is `F7` whatever `TERM` holds. -/
theorem test_att_end : after { feeding .att true .EOS with regs.term := 0x00 }
    (fun t => t.oq == [.B 0xF7, .EOS 0x00]) = true := by decide
/-- V6.8: the reserved bits of `ERR`. -/
theorem test_err_w1c : after { State.reset with regs.err := 0x01, host.acts := [.regWrite 0x02 0xC0] }
    (fun t => t.regs.err == 0x01) = true := by decide
/-- P3: a configuration write while busy. -/
theorem test_busywr : after { feeding .exp true .EOS with host.acts := [.regWrite 0x04 0x00] }
    (fun t => t.regs.err == 0x02 && t.regs.cause == 0x11 && t.regs.term == 0xF7) = true := by decide
/-- V4.5. -/
theorem test_prog :
    [(0x00, 0x01), (0x0B, 0x0C), (0x0C, 0x11), (0x2F, 0x3C), (0x30, 0x41), (0x5F, 0x7C), (0x60, 0x80),
      (0xFF, 0x80)].all (fun p : Byte × Byte => progDecode Config.params p.1 == p.2) = true := by decide
/-- V4.1.1 of R168: the example of `split`. -/
theorem test_split : split [0xF7, 0x01, 0x02, 0xF7, 0xF7, 0x03, 0xF7, 0x04, 0x05] 0xF7 =
    [[0x01, 0x02], [0x03], [0x04, 0x05]] := by decide
/-- V5.1. -/
theorem test_compute : compute Config.params [0xFF, 0xFF, 0xFF, 0xFF] = .ok 0x5A3E := by rfl
/-- 10_state.md R23, R31: a read of `OPB`, of `CAUSE`, of `HDR_GROUP`, each at its address. -/
theorem test_read_registers : after { State.reset with
      regs.opa := 0x01, regs.opb := 0x02, regs.res0 := 0x03, regs.cause := 0x04
      regs.hdr := ⟨0x11, 0x12, 0x13, 0x14, 0x15, 0x16, 0x17⟩
      host.acts := [.regRead 0x06] }
    (fun t => t.host.rdata == [(0x06, 0x02)] && readPort t 0x03 == 0x04 && readPort t 0x0C == 0x14) = true := by
  decide
/-- 70_reset_and_hazards.md R289: a busy block accepts a waiting token without a scheduled `In`. -/
theorem test_accepts_unscheduled : after { feeding .exp true (.B 0xA5) with host.acts := [] }
    (fun t => t.oq == [.B 0x0A, .B 0x05] && t.host.inq == []) = true := by decide

/-! ### Witnesses: the hypotheses of each statement, met together -/

/-- An idle block with a past: operands, a header, a set flag of `ERR`, a queued token. -/
def used : State :=
  { State.reset with
    regs.opa := 0x80
    regs.opb := 0xFF
    regs.err := 0x01
    regs.cause := 0x10
    regs.hdr := ⟨0x40, 0x00, 0x20, 0x00, 0x02, 0x00, 0x05⟩
    oq := [.EOS 0x00] }

/-- `EXP` running with a byte offered and an `In` next. -/
def running : State := feeding .exp true (.B 0xA5)

/-- `used` with a schedule. -/
def scheduled (acts : List HostAct) : State := { used with host.acts := acts }

theorem witness_DecodeEncodeAgree :
    Instr.wf (.wbit 7 true) = true ∧ decode 0x2F = .command (.wbit 7 true) := by decide

theorem witness_ReservedBytesRejected :
    (0x02 : Byte).toNat = 0x02 ∧ decode 0x02 = .reserved ∧ decode 0xFF = .reserved ∧
      used.Idle ∧ ¬ running.Idle := by
  refine ⟨rfl, by decide, by decide, rfl, ?_⟩
  simp [State.Idle, running, feeding]

theorem witness_StepRunsDecodedCommand :
    (scheduled [.regWrite 0x00 0x63, .input]).host.acts = .regWrite 0x00 0x63 :: [.input] ∧
      decode 0x63 = .command .att ∧ 0x63 < 256 ∧ decodeTableWord 8 0x63 = some .att := by decide

/-- One state for each clause. -/
theorem witness_StepPerformsScheduledTransition :
    ((scheduled []).host.acts = [] ∧ (scheduled []).Idle) ∧
    ({ running with host.acts := [], host.inq := [] } : State).host.inq = [] ∧
    (scheduled [.regWrite 0x1F 0xFF]).host.acts = [.regWrite 0x1F 0xFF] ∧
    (scheduled [.regRead 0x00]).host.acts = [.regRead 0x00] ∧
    (scheduled [.reset]).host.acts = [.reset] ∧
    (running.host.acts = [.input] ∧ running.host.inq = [.B 0xA5] ∧ running.regs.stat.busy = true) ∧
    ((scheduled [.output]).host.acts = [.output] ∧ (scheduled [.output]).oq = [.EOS 0x00]) :=
  ⟨⟨rfl, rfl⟩, rfl, rfl, rfl, rfl, ⟨rfl, rfl, rfl⟩, rfl, rfl⟩

/-- The schedule `CMD SPL`, `In` with an end mark waiting. -/
def waiting : State := { scheduled [.regWrite 0x00 0x60, .input] with host.inq := [.EOS] }

theorem witness_TokenWaitsWhileIdle :
    ((scheduled [.input]).host.acts = [.input] ∧ (scheduled [.input]).Idle) ∧
    (Instr.spl.isStream = true ∧ waiting.Idle ∧
      waiting.host.acts = .regWrite 0x00 (encode .spl) :: .input :: [] ∧ waiting.host.inq = [.EOS]) :=
  ⟨⟨rfl, rfl⟩, rfl, rfl, rfl, rfl⟩

theorem witness_PortItemsCarryTokens : (scheduled [.offer 0x1FF]).host.acts = [.offer 0x1FF] := rfl

/-- The lowest address of the last clause, and the highest. -/
theorem witness_ResetState :
    used.params = Config.params ∧ 0x05 ≤ (0x05 : BitVec 5).toNat ∧ (0x05 : BitVec 5) ≠ 0x10 ∧
      0x05 ≤ (0x1F : BitVec 5).toNat ∧ (0x1F : BitVec 5) ≠ 0x10 := by decide

/-- The default parameters, and others that fit: another constant, another marker, a longer least message. -/
theorem witness_ResetIsTheResetState :
    Config.params.Fits ∧
      ({ Config.params with cksConst := 0x1234, sox := 0xF1, msgMin := 10 } : Params).Fits :=
  ⟨⟨rfl, by decide⟩, rfl, by decide⟩

theorem controlInv_used : used.ControlInv := by
  constructor <;> simp [used, State.reset, State.resetWith, Regs.reset, Latches.reset, State.Runs]
  exact ⟨.illCmd, rfl⟩

theorem witness_ReservedAndReadOnlyLocations :
    0x1B ≤ (0x1B : BitVec 5).toNat ∧ 0x1B ≤ (0x1F : BitVec 5).toNat ∧ access .stat = .ro ∧
      access .seghi = .ro ∧ used.ControlInv :=
  ⟨by decide, by decide, rfl, rfl, controlInv_used⟩

theorem witness_ConfigurationWrites :
    access .hdrFunc = .rw ∧ access .exphi = .rw ∧ used.Idle ∧ Reg.term ≠ .hdrFunc ∧ Reg.term ≠ .stat ∧
      Reg.term ≠ .prog :=
  ⟨rfl, rfl, rfl, by decide, by decide, by decide⟩

theorem busy_running : ¬ running.Idle := by simp [State.Idle, running, feeding]

theorem witness_BusyWritesRejected : ¬ running.Idle ∧ (0x40 : Byte) ≠ 0x01 := ⟨busy_running, by decide⟩

/-- The lowest and the highest reserved address. -/
theorem witness_RegisterLayout : 0x1B ≤ (0x1B : BitVec 5).toNat ∧ 0x1B ≤ (0x1F : BitVec 5).toNat := by decide

/-- Program 95 of the wire is the last one; 96 is the first that is none. -/
theorem witness_ProgramNumberDecoded :
    (used.params.bankSize ≤ 15 ∧ used.params.banks ≤ 4 ∧
      used.params.extBase = used.params.banks * used.params.bankSize) ∧
    (3 < 4 ∧ 1 ≤ 12 ∧ 12 ≤ 12 ∧
      ({ used with regs.hdr.ss2 := 0x5F }).regs.hdr.ss2 =
        BitVec.ofNat 8 (48 * true.toNat + 12 * 3 + (12 - 1))) ∧
    96 ≤ ({ used with regs.hdr.ss2 := 0x60 }).regs.hdr.ss2.toNat := by decide

theorem witness_NopOnlyCompletes : used.Idle ∧ ¬ running.Idle := ⟨rfl, busy_running⟩
theorem witness_BitCommandResults : 7 < 8 ∧ used.Idle := ⟨by decide, rfl⟩
theorem witness_NybbleCommandResults : used.Idle := rfl
theorem witness_SignCommandResults : used.Idle := rfl

/-- The ends of the signed range: -128 and 127. -/
theorem witness_UtilityRoundTrips :
    used.Idle ∧ -128 ≤ signedOperand { used.regs with opa := 0x80, opb := 0xFF } ∧
      signedOperand { used.regs with opa := 0x80, opb := 0xFF } = -128 ∧
      signedOperand { used.regs with opa := 0x7F, opb := 0x00 } = 127 :=
  ⟨rfl, by decide, by decide, by decide⟩

theorem witness_UtilityFunctionLaws :
    7 < 8 ∧ 0 < 8 ∧ 0 ≠ 7 ∧ (127 : Byte).toNat ≤ 127 ∧ 128 ≤ (128 : Byte).toNat ∧
      (-128 : Int) ≤ -128 ∧ (127 : Int) ≤ 127 := by decide

theorem witness_TranscoderCommandsStart : used.Idle := rfl
theorem witness_ChecksumCommandsStart : used.Idle := rfl
theorem witness_FramerCommandsStart : used.Idle := rfl
theorem witness_ExpandContract : used.Idle := rfl

/-- An even length and an odd one. -/
theorem witness_CollapseContract :
    used.Idle ∧ collapse [0x0A, 0x05] = .ok [0xA5] ∧ collapse [0x0A] = .error .length := ⟨rfl, rfl, rfl⟩

theorem witness_SplitContract : used.Idle := rfl

/-- Eight bytes, the shortest message with a header; and seven. -/
theorem witness_ParseHeaderContract :
    used.Idle ∧ used.params.Fits ∧
      parseHeader used.params [0xF0, 0x40, 0, 0x20, 0, 2, 0, 5] = .ok ⟨0x40, 0, 0x20, 0, 2, 0, 5⟩ ∧
      parseHeader used.params [0xF0, 0x40, 0, 0x20, 0, 2, 0] = .error .truncatedMessage :=
  ⟨rfl, ⟨rfl, by decide⟩, rfl, rfl⟩

theorem witness_StripContract :
    used.Idle ∧ used.params.Fits ∧
      strip used.params [0xF0, 0x40, 0, 0x20, 0, 2, 0, 5] = .ok (.patch ⟨0x40, 0, 0x20, 0, 2, 0, 5⟩ []) ∧
      strip used.params [0xF0, 0x40, 0, 0x21, 0, 2, 0, 5] =
        .ok (.pass ⟨0x40, 0, 0x21, 0, 2, 0, 5⟩ [0xF0, 0x40, 0, 0x21, 0, 2, 0, 5]) ∧
      strip used.params [0xF0, 0x40, 0, 0x20, 0, 2, 0] = .error .truncatedMessage :=
  ⟨rfl, ⟨rfl, by decide⟩, rfl, rfl, rfl⟩

theorem witness_AttachContract : used.Idle := rfl

theorem witness_ComputeContract :
    used.Idle ∧ compute used.params [] = .ok 0x5A3C ∧ compute used.params [0x12] = .error .oddSpan :=
  ⟨rfl, rfl, rfl⟩

theorem witness_VerifyContract :
    used.Idle ∧ compute used.params [0x12, 0x34] = .ok 0x262A ∧
      compute used.params [0x12] = .error .oddSpan := ⟨rfl, rfl, rfl⟩

/-- Two bytes, one byte and three bytes. -/
theorem witness_VerifyTrailingContract :
    used.Idle ∧ ([0x3C, 0x5A] : List Byte) = [] ++ [0x3C, 0x5A] ∧ compute used.params [] = .ok 0x5A3C ∧
      ([0x3C] : List Byte).length < 2 ∧
      3 ≤ ([1, 2, 3] : List Byte).length ∧ ([1, 2, 3] : List Byte).length % 2 = 1 :=
  ⟨rfl, rfl, rfl, by decide, by decide, by decide⟩

theorem witness_AppendContract :
    used.Idle ∧ appendChecksum used.params [0x12, 0x34] = .ok [0x12, 0x34, 0x2A, 0x26] ∧
      compute used.params [0x12, 0x34] = .ok 0x262A ∧
      appendChecksum used.params [0x12] = .error .oddSpan := ⟨rfl, rfl, rfl, rfl⟩

theorem witness_ConsumerSeesPureFunctions : used.Idle ∧ used.params.Fits := ⟨rfl, rfl, by decide⟩

theorem witness_CheckAcceptsAppended : used.Idle ∧ ([] : List Byte).length % 2 = 0 ∧
    ([0x12, 0x34] : List Byte).length % 2 = 0 := ⟨rfl, rfl, rfl⟩

theorem witness_CollapseUndoesExpand : used.Idle := rfl

theorem witness_ReceivePathUndoesTransmitPath :
    used.Idle ∧ used.params.sox ≠ used.params.eox ∧ used.regs.term = used.params.eox ∧
      used.params.eox ∉ headerBytes used.regs.hdr ∧ used.params.eox ∉ ([0x01, 0xF0] : List Byte) ∧
      used.params.Fits ∧ used.params.msgMin = 8 ∧ carriesPatch used.params used.regs.hdr = true ∧
      ∀ w ∈ [attach used.params used.regs.hdr [0x01], attach used.params used.regs.hdr []],
        ∃ (t : State) (p : List Byte), used.params.eox ∉ p ∧ runCommand .att p used = .next t ∧
          t.oq = used.oq ++ w.map .B ++ [.EOS 0x00] := by
  refine ⟨rfl, by decide, rfl, by decide, by decide, ⟨rfl, by decide⟩, rfl, by decide, fun w hw => ?_⟩
  simp only [List.mem_cons, List.not_mem_nil, or_false] at hw
  rcases hw with rfl | rfl
  · exact ⟨_, [0x01], by decide, rfl, rfl⟩
  · exact ⟨_, [], by decide, rfl, rfl⟩

/-- `EXP` running, a byte and the end mark waiting. -/
theorem witness_InputStepsFeedTheCommand :
    ({ running with host.inq := [.B 0xA5, .EOS, .B 0x01], host.acts := [.input, .input, .output] } :
      State).regs.stat.busy = true ∧
    ([.B 0xA5, .EOS, .B 0x01] : List InToken) = (([0xA5] : List Byte).map .B ++ [.EOS]) ++ [.B 0x01] ∧
    ([.input, .input, .output] : List HostAct) =
      List.replicate (([0xA5] : List Byte).length + 1) .input ++ [.output] := ⟨rfl, rfl, rfl⟩

theorem witness_TranscoderLaws :
    0 < ([0xA5] : List Byte).length ∧ ([] : List Byte).length % 2 = 0 ∧
      ([0x0A] : List Byte).length % 2 = 1 := by decide

theorem witness_SplitLaws :
    (0xF7 : Byte) ∉ ([0x01] : List Byte) ∧ ([0x01] : List Byte) ≠ [] ∧
      [0x01] ∈ split [0xF7, 0x01] 0xF7 := by decide

theorem witness_FramerFunctionLaws :
    ([1, 2, 3, 4, 5, 6, 7] : List Byte).length < Config.params.msgMin ∧
      Config.params.msgMin ≤ ([1, 2, 3, 4, 5, 6, 7, 8] : List Byte).length ∧
      parseHeader Config.params [1, 2, 3, 4, 5, 6, 7, 8] = .ok ⟨2, 3, 4, 5, 6, 7, 8⟩ :=
  ⟨by decide, by decide, rfl⟩

theorem witness_SplitAndStripUndoAttach :
    (∀ b ∈ ([0x00, 0x0F] : List Byte), b.toNat ≤ 15) ∧
    Config.params.Fits ∧ Config.params.msgMin = 8 ∧ Config.params.sox ≠ Config.params.eox ∧
      ∀ m ∈ [(used.regs.hdr, ([0x01] : List Byte)), (used.regs.hdr, [])],
        carriesPatch Config.params m.1 = true ∧ Config.params.eox ∉ headerBytes m.1 ∧
          Config.params.eox ∉ m.2 :=
  ⟨by decide, ⟨rfl, by decide⟩, rfl, by decide, by decide⟩

theorem witness_ChecksumLaws :
    ([] : List Byte).length % 2 = 0 ∧ ([0x12] : List Byte).length % 2 = 1 ∧
      ([0x12] : List Byte).length < 2 ∧ 3 ≤ ([1, 2, 3] : List Byte).length ∧
      ([1, 2, 3] : List Byte).length % 2 = 1 := by decide

theorem witness_ChecksumSeesEveryBitFlip :
    1 < ([0x12, 0x34] : List Byte).length ∧ ([0x12, 0x34] : List Byte).length % 2 = 0 ∧ 7 < 8 := by decide

/-- One running state for each condition. -/
theorem witness_FatalFaultEntry :
    (({ feeding .col true .EOS with latch.holdValid := true }).Runs .col) ∧
    (({ feeding .str true .EOS with latch.hpos := 7 }).Runs .str ∧ 7 < used.params.msgMin) ∧
    (({ feeding .phd false .EOS with latch.hpos := 0 }).Runs .phd ∧ 0 < used.params.msgMin) ∧
    (({ feeding .ckt false .EOS with latch.dcnt := 1 }).Runs .ckt ∧ (1 : Fin 3).val < 2) ∧
    (({ feeding .ckt false .EOS with latch.dcnt := 2, latch.holdValid := true }).Runs .ckt ∧
      (2 : Fin 3).val = 2) ∧
    (({ feeding .ckc false .EOS with latch.holdValid := true }).Runs .ckc) ∧
    (({ feeding .ckv false .EOS with latch.holdValid := true }).Runs .ckv) ∧
    (({ feeding .cka true .EOS with latch.holdValid := true }).Runs .cka) :=
  ⟨⟨rfl, rfl⟩, ⟨⟨rfl, rfl⟩, by decide⟩, ⟨⟨rfl, rfl⟩, by decide⟩, ⟨⟨rfl, rfl⟩, by decide⟩,
    ⟨⟨rfl, rfl⟩, by decide⟩, ⟨rfl, rfl⟩, ⟨rfl, rfl⟩, ⟨rfl, rfl⟩⟩

theorem witness_MismatchIsReported :
    ((feeding .ckv false .EOS).Runs .ckv ∧ (feeding .ckv false .EOS).latch.holdValid = false ∧
      Config.params.cksConst - (feeding .ckv false .EOS).latch.sum ≠
        (feeding .ckv false .EOS).regs.exphi ++ (feeding .ckv false .EOS).regs.explo) ∧
    (({ feeding .ckt false .EOS with latch.dcnt := 2 }).Runs .ckt ∧
      ({ feeding .ckt false .EOS with latch.dcnt := 2 }).latch.holdValid = false ∧
      Config.params.cksConst - ({ feeding .ckt false .EOS with latch.dcnt := 2 }).latch.sum ≠
        ({ feeding .ckt false .EOS with latch.dcnt := 2 }).latch.d1 ++
          ({ feeding .ckt false .EOS with latch.dcnt := 2 }).latch.d0) :=
  ⟨⟨⟨rfl, rfl⟩, rfl, by decide⟩, ⟨rfl, rfl⟩, rfl, by decide⟩

theorem witness_DataTokenRaisesNothing : Instr.exp.isStream = true ∧ running.Runs .exp := ⟨rfl, rfl, rfl⟩

/-- `ERR.ILLCMD` set and cleared by each of the three. -/
theorem witness_ErrorFlagsAreSticky :
    (∃ t, step (scheduled [.reset]) = .next t ∧ t.regs.err.getLsbD 0 = false) ∧
    (∃ t, step (scheduled [.regWrite 0x00 0x01]) = .next t ∧ t.regs.err.getLsbD 0 = false) ∧
    (∃ t, step (scheduled [.regWrite 0x02 0x01]) = .next t ∧ t.regs.err.getLsbD 0 = false) ∧
    used.regs.err.getLsbD 0 = true := ⟨⟨_, rfl, rfl⟩, ⟨_, rfl, rfl⟩, ⟨_, rfl, rfl⟩, rfl⟩

/-- Idle to busy by `CMD EXP`; busy to idle by the end mark, with and without a scheduled `In`. -/
theorem witness_ModeChangesOnlyAsSpecified :
    (∃ t, step (scheduled [.regWrite 0x00 0x40]) = .next t ∧ t.regs.stat.busy = true) ∧
    (∃ t, step (feeding .exp true .EOS) = .next t ∧ t.Idle) ∧
    (∃ t, step { feeding .exp true .EOS with host.acts := [] } = .next t ∧ t.Idle) :=
  ⟨⟨_, rfl, rfl⟩, ⟨_, rfl, rfl⟩, _, rfl, rfl⟩

theorem witness_OutputIsEmissionOrder :
    (∃ t, step running = .next t) ∧ running.host.acts.head? ≠ some .reset := ⟨⟨_, rfl⟩, by decide⟩

/-- `STR` behind the header of a message that it passes, and of one it strips; the end mark is next. -/
def stripping (func : Byte) (pass : Bool) : State :=
  { feeding .str true .EOS with
    regs.hdr := ⟨0x40, 0, func, 0, 2, 0, 5⟩
    regs.stat.hdrv := true
    regs.icnt := 8
    regs.ocnt := if pass then 8 else 0
    latch.hpos := 8
    latch.hb := [0xF0, 0x40, 0, func, 0, 2, 0, 5]
    latch.pass := pass }

theorem headerInv_stripping :
    (stripping 0x21 true).HeaderInv ∧ (stripping 0x20 false).HeaderInv := by
  refine ⟨⟨⟨rfl, by decide⟩, by decide, ?_, ?_, ?_, ?_⟩, ⟨⟨rfl, by decide⟩, by decide, ?_, ?_, ?_, ?_⟩⟩ <;>
    simp [stripping, feeding, State.Runs, encode, headerOf, route, carriesPatch, State.reset, State.resetWith,
      Config.params]

theorem witness_RouteShownByStatus :
    ∀ f ∈ [(0x21, true), (0x20, false)], (stripping f.1 f.2).Runs .str ∧
      (stripping f.1 f.2).latch.hpos = (stripping f.1 f.2).params.msgMin ∧ (stripping f.1 f.2).HeaderInv ∧
      ∃ t, acceptToken .EOS (stripping f.1 f.2) = .next t := by
  intro f hf
  simp only [List.mem_cons, List.not_mem_nil, or_false] at hf
  rcases hf with rfl | rfl
  · exact ⟨⟨rfl, rfl⟩, rfl, headerInv_stripping.1, _, rfl⟩
  · exact ⟨⟨rfl, rfl⟩, rfl, headerInv_stripping.2, _, rfl⟩

/-- Two idle states that differ in latches, queue and other registers. -/
theorem witness_NoStateLeaksBetweenCommands :
    Instr.att.isStream = true ∧ used.Idle ∧ used.params.Fits ∧
      used.params = ({ used with latch.hold := 0xAA, regs.opa := 0x11 }).params ∧
      ({ used with latch.hold := 0xAA, regs.opa := 0x11, oq := [], regs.err := 0x3F }).Idle ∧
      used.regs.term = ({ used with latch.hold := 0xAA, regs.opa := 0x11 }).regs.term ∧
      used.regs.hdr = ({ used with latch.hold := 0xAA, regs.opa := 0x11 }).regs.hdr ∧
      used.regs.explo = ({ used with latch.hold := 0xAA, regs.opa := 0x11 }).regs.explo ∧
      used.regs.exphi = ({ used with latch.hold := 0xAA, regs.opa := 0x11 }).regs.exphi :=
  ⟨rfl, rfl, ⟨rfl, by decide⟩, rfl, rfl, rfl, rfl, rfl, rfl⟩

theorem controlInv_running : running.ControlInv where
  running _ := ⟨.exp, rfl, rfl⟩
  pending _ := ⟨rfl, rfl⟩
  failed h := by cases h
  closed h := by cases h
  opened _ _ _ := rfl
  silent i h he := by
    rcases he with rfl | rfl | rfl | rfl <;> exact absurd h.2 (by decide)
  errReserved := rfl
  causeListed := .inl rfl
  errCaused h := absurd rfl h

theorem headerInv_running : running.HeaderInv := by
  refine ⟨⟨rfl, by decide⟩, by decide, ?_, ?_, ?_, ?_⟩ <;> simp [running, feeding, State.Runs, encode]

theorem counterInv_running : running.CounterInv where
  control := controlInv_running
  header := headerInv_running
  running := by constructor <;> simp [running, feeding, State.Runs, encode, State.reset, State.resetWith, Regs.reset]
  final := by constructor <;> simp [running, feeding, State.Ended]

theorem witness_StepKeepsControlInvariant : running.ControlInv ∧ ∃ t, step running = .next t :=
  ⟨controlInv_running, _, rfl⟩

theorem witness_StepKeepsHeaderInvariant :
    (stripping 0x21 true).HeaderInv ∧ ∃ t, step (stripping 0x21 true) = .next t :=
  ⟨headerInv_stripping.1, _, rfl⟩

theorem witness_StepKeepsCounterInvariant : running.CounterInv ∧ ∃ t, step running = .next t :=
  ⟨counterInv_running, _, rfl⟩

theorem witness_EveryStepCompletes : running.ControlInv := controlInv_running

/-- The state after `CMD EXP` from reset is reachable. -/
theorem witness_ReachableStatesAreSafe :
    ∃ t : State, t.Reachable ∧ t.regs.stat.busy = true :=
  ⟨_, .next { State.reset with host := { HostSide.quiet with acts := [.regWrite 0x00 0x40] } } _ (.start Config.params _ ⟨rfl, by decide⟩)
    rfl, rfl⟩

/-- `EXP` running with a byte waiting and nothing scheduled; a queued token before a register read. -/
theorem witness_OfferedTokenIsAccepted :
    (({ running with host.acts := [] } : State).host.acts = [] ∧
      ({ running with host.acts := [] } : State).host.inq = [.B 0xA5]) ∧
    (running.ControlInv ∧ running.regs.stat.busy = true ∧ running.host.inq ≠ []) ∧
    ((scheduled [.regRead 0x00]).oq = [.EOS 0x00] ∧ (∃ t, step (scheduled [.regRead 0x00]) = .next t) ∧
      (scheduled [.regRead 0x00]).host.acts.head? ≠ some .output ∧
      (scheduled [.regRead 0x00]).host.acts.head? ≠ some .reset) :=
  ⟨⟨rfl, rfl⟩, ⟨controlInv_running, rfl, by decide⟩, rfl, ⟨_, rfl⟩, by decide, by decide⟩

end Sys2Proof.Tests
end

section
/-! PROOFS. The control invariant (10_state.md R24 to R28): it is kept by every step, and from every state that has
it a step has a next state. -/

namespace Sys2Proof.Machine

/-! ### `ERR` and `CAUSE` -/

/-- What the control invariant says of the values of `ERR` and `CAUSE` (10_state.md R24, R27, R28). -/
structure EventsListed (err cause : Byte) : Prop where
  reserved : err &&& 0xC0 = 0
  listed : cause = 0x00 ∨ ∃ e, cause = causeCode e
  caused : err ≠ 0x00 → cause ≠ 0x00

theorem EventsListed.reset : EventsListed 0x00 0x00 := ⟨by decide, .inl rfl, fun h => absurd rfl h⟩

theorem errMask_reserved (e : Event) : errMask e &&& 0xC0 = 0 := by cases e <;> decide

theorem errMask_ne_zero (e : Event) : errMask e ≠ 0 := by cases e <;> decide

theorem causeCode_ne_zero (e : Event) : causeCode e ≠ 0x00 := by cases e <;> decide

/-- An event sets one of the six flags and its own code (10_state.md R27, R28). -/
theorem EventsListed.note {err cause : Byte} (h : EventsListed err cause) (e : Event) :
    EventsListed (err ||| errMask e) (causeCode e) where
  reserved := by rw [BitVec.and_or_distrib_right, h.reserved, errMask_reserved]; exact BitVec.or_zero
  listed := .inr ⟨e, rfl⟩
  caused _ := causeCode_ne_zero e

/-- Clearing flags of `ERR` leaves `CAUSE` (10_state.md R27). -/
theorem EventsListed.clear {err cause : Byte} (h : EventsListed err cause) (v : Byte) :
    EventsListed (err &&& ~~~v) cause where
  reserved := by rw [BitVec.and_assoc, BitVec.and_comm (~~~v), ← BitVec.and_assoc, h.reserved]; exact BitVec.zero_and
  listed := h.listed
  caused hne := h.caused fun h0 => hne (by rw [h0]; exact BitVec.zero_and)

theorem State.ControlInv.events {s : State} (h : s.ControlInv) : EventsListed s.regs.err s.regs.cause :=
  ⟨h.errReserved, h.causeListed, h.errCaused⟩

/-! ### The running command -/

theorem decode_encode_stream {i : Instr} (hi : i.isStream = true) : decode (encode i) = .command i := by
  cases i <;> simp_all [Instr.isStream, encode]

/-- Different stream commands have different bytes (30_encoding.md R96). -/
theorem encode_stream_injective {i j : Instr} (hi : i.isStream = true) (hj : j.isStream = true)
    (h : encode i = encode j) : i = j := by
  have hd := decode_encode_stream hi
  rw [h, decode_encode_stream hj] at hd
  exact (Decoded.command.inj hd).symm

theorem opensAtStart.isStream {i : Instr} (h : opensAtStart i) : i.isStream = true := by
  rcases h with rfl | rfl | rfl | rfl | rfl <;> rfl

theorem emitsNothing.isStream {i : Instr} (h : emitsNothing i) : i.isStream = true := by
  rcases h with rfl | rfl | rfl | rfl <;> rfl

theorem emitsNothing.not_opensAtStart {i : Instr} (h : emitsNothing i) : ¬ opensAtStart i := by
  rcases h with rfl | rfl | rfl | rfl <;> simp [opensAtStart]

theorem State.Idle.not_runs {s : State} (h : s.Idle) (i : Instr) : ¬ s.Runs i :=
  fun hr => Bool.false_ne_true (h.symm.trans hr.1)

/-! ### The control invariant of an idle and of a running block -/

theorem State.ControlInv.of_idle {s : State} (hidle : s.Idle)
    (hfail : s.regs.stat.fail = true → s.regs.stat.done = true) (hseg : s.latch.segOpen = false)
    (hev : EventsListed s.regs.err s.regs.cause) : s.ControlInv where
  running hb := absurd (hidle.symm.trans hb) Bool.false_ne_true
  pending hb := absurd (hidle.symm.trans hb) Bool.false_ne_true
  failed := hfail
  closed _ := hseg
  opened i hr _ := absurd hr (hidle.not_runs i)
  silent i hr _ := absurd hr (hidle.not_runs i)
  errReserved := hev.reserved
  causeListed := hev.listed
  errCaused := hev.caused

theorem State.ControlInv.of_runs {s : State} {i : Instr} (hi : i.isStream = true) (hr : s.Runs i)
    (hdone : s.regs.stat.done = false) (hfail : s.regs.stat.fail = false)
    (hopen : opensAtStart i → s.latch.segOpen = true) (hsilent : emitsNothing i → s.latch.segOpen = false)
    (hev : EventsListed s.regs.err s.regs.cause) : s.ControlInv where
  running _ := ⟨i, hi, hr.2⟩
  pending _ := ⟨hdone, hfail⟩
  failed h := absurd (hfail.symm.trans h) Bool.false_ne_true
  closed h := absurd (h.symm.trans hr.1) Bool.false_ne_true
  opened _ hj ho := hopen (encode_stream_injective ho.isStream hi (hj.2.symm.trans hr.2) ▸ ho)
  silent _ hj he := hsilent (encode_stream_injective he.isStream hi (hj.2.symm.trans hr.2) ▸ he)
  errReserved := hev.reserved
  causeListed := hev.listed
  errCaused := hev.caused

/-- Whatever leaves `CMD`, the mode and completion flags and the open buffer alone keeps the invariant, if it keeps
the events listed. A running `SPL` may open and close its buffer. -/
theorem State.ControlInv.keep {s t : State} (h : s.ControlInv) (hcmd : t.regs.cmd = s.regs.cmd)
    (hbusy : t.regs.stat.busy = s.regs.stat.busy) (hdone : t.regs.stat.done = s.regs.stat.done)
    (hfail : t.regs.stat.fail = s.regs.stat.fail)
    (hseg : t.latch.segOpen = s.latch.segOpen ∨ s.Runs .spl)
    (hev : EventsListed t.regs.err t.regs.cause) : t.ControlInv := by
  cases hb : s.regs.stat.busy with
  | false =>
    have hseg' := hseg.resolve_right (State.Idle.not_runs hb .spl)
    exact .of_idle (hbusy.trans hb) (by rw [hfail, hdone]; exact h.failed) (hseg'.trans (h.closed hb)) hev
  | true =>
    obtain ⟨i, hi, hc⟩ := h.running hb
    obtain ⟨hd, hf⟩ := h.pending hb
    have hseg' (hne : i ≠ .spl) : t.latch.segOpen = s.latch.segOpen :=
      hseg.resolve_right fun hspl => hne (encode_stream_injective hi rfl (hc.symm.trans hspl.2))
    refine .of_runs hi ⟨hbusy.trans hb, hcmd.trans hc⟩ (hdone.trans hd) (hfail.trans hf) ?_ ?_ hev
    · intro ho
      exact (hseg' (by rintro rfl; simp [opensAtStart] at ho)).trans (h.opened i ⟨hb, hc⟩ ho)
    · intro he
      exact (hseg' (by rintro rfl; simp [emitsNothing] at he)).trans (h.silent i ⟨hb, hc⟩ he)

/-- The invariant speaks of the registers and latches only. -/
theorem State.ControlInv.congr {s t : State} (h : s.ControlInv) (hregs : t.regs = s.regs)
    (hlatch : t.latch = s.latch) : t.ControlInv := by
  apply h.keep <;> simp only [hregs, hlatch, true_or]
  exact h.events

theorem State.ControlInv.of_reset {s : State} {P : Params} (hregs : s.regs = Regs.reset P)
    (hlatch : s.latch = Latches.reset P) : s.ControlInv := by
  apply State.ControlInv.of_idle <;> simp [State.Idle, hregs, hlatch, Regs.reset, Latches.reset]
  exact .reset

/-! ### The operations -/

theorem State.ControlInv.noteEvent {s : State} (h : s.ControlInv) (e : Event) :
    (Machine.noteEvent e s).ControlInv :=
  h.keep rfl rfl rfl rfl (.inl rfl) (h.events.note e)

theorem State.ControlInv.rejectReserved {s : State} (h : s.ControlInv) :
    (Machine.rejectReserved s).ControlInv := by
  unfold Machine.rejectReserved
  split
  · exact h.noteEvent .busyWr
  · exact h.noteEvent .illCmd

/-- A host write to an `RW` register touches neither `CMD` nor the events. -/
theorem storeReg_control (v : Byte) (r : Regs) (reg : Reg) : (storeReg v r reg).cmd = r.cmd ∧
    (storeReg v r reg).err = r.err ∧ (storeReg v r reg).cause = r.cause := by
  cases reg <;> exact ⟨rfl, rfl, rfl⟩

theorem State.ControlInv.writeReg {s : State} (h : s.ControlInv) (r : Reg) (v : Byte) :
    (Machine.writeReg r v s).ControlInv := by
  obtain ⟨hcmd, herr, hcause⟩ := storeReg_control v s.regs r
  unfold Machine.writeReg
  split
  · exact h.keep rfl rfl rfl rfl (.inl rfl) (h.events.clear v)
  · split
    · exact h.noteEvent .busyWr
    · refine h.keep hcmd ?_ ?_ ?_ (.inl rfl) (by simpa only [herr, hcause] using h.events) <;>
        simp only [storeReg_stat]
  · exact h
  · exact h

theorem State.ControlInv.outputTransfer {s : State} (h : s.ControlInv) :
    (Machine.outputTransfer s).ControlInv := by
  rcases outputTransfer_cases s with ⟨_, he⟩ | ⟨_, _, _, he⟩
  · rwa [he]
  · rw [he]
    exact h.congr rfl rfl

/-- A command write: rejected, `CLR`, a finished immediate command, or a started stream command. -/
theorem State.ControlInv.exec {s t : State} (h : s.ControlInv) {i : Instr} (he : exec i s = .next t) :
    t.ControlInv := by
  rcases exec_cases he with ⟨_, _, rfl⟩ | ⟨_, rfl⟩ | ⟨_, _, hidle, hf⟩ | ⟨hi, _, hs⟩
  · exact h.noteEvent .busyWr
  · exact .of_reset rfl rfl
  · refine .of_idle (hf.busy.trans hidle) (fun _ => hf.done) ?_ ?_
    · rw [hf.latch]
      exact h.closed hidle
    · rw [hf.accepted.err, hf.accepted.cause]
      exact h.events
  · refine .of_runs hi ⟨hs.busy, hs.accepted.cmd⟩ hs.done hs.accepted.fail hs.opens
      (fun hn => hs.closed hn.not_opensAtStart) ?_
    rw [hs.accepted.err, hs.accepted.cause]
    exact h.events

/-! ### Tokens -/

@[simp] theorem raiseFatal_latch_segOpen (e : Event) (s : State) :
    (raiseFatal e s).latch.segOpen = false := by
  rw [raiseFatal_eq]

@[simp] theorem settleMatch_latch (b : Bool) (s : State) : (settleMatch b s).latch = s.latch := by
  cases b <;> rfl

/-- After an end mark no buffer is open: a writing command closes it, the others have none. -/
theorem acceptToken_eos_segOpen {s t : State}
    (hsilent : ∀ i, emitsNothing i → s.regs.cmd = encode i → s.latch.segOpen = false)
    (h : acceptToken .EOS s = .next t) : t.latch.segOpen = false := by
  rcases acceptToken_cases h with ⟨_, rfl⟩ | ⟨_, rfl⟩ | ⟨hc, rfl⟩ | ⟨hc, rfl⟩ | ⟨hc, rfl⟩ | ⟨_, rfl⟩ |
    ⟨_, rfl⟩ | ⟨hc, rfl⟩ | ⟨_, rfl⟩ | ⟨_, rfl⟩
  · rfl
  · simp only [tokenCol]
    split <;> simp
  · have hs := hsilent .ckc (by simp [emitsNothing]) hc
    simp only [tokenCkc]
    split <;> simp [hs]
  · have hs := hsilent .ckv (by simp [emitsNothing]) hc
    simp only [tokenCkv]
    split <;> simp [hs]
  · have hs := hsilent .ckt (by simp [emitsNothing]) hc
    simp only [tokenCkt]
    split_ifs <;> simp [hs]
  · simp only [tokenCka]
    split <;> simp
  · simp only [tokenSpl]
    split <;> simp_all
  · have hs := hsilent .phd (by simp [emitsNothing]) hc
    simp only [tokenPhd]
    split <;> simp [hs]
  · simp only [tokenStr]
    split <;> simp
  · rfl

/-- An accepted token: a data byte leaves the mode alone, an end mark ends the command. -/
theorem State.ControlInv.acceptToken {s t : State} {tok : InToken} (h : s.ControlInv)
    (hb : s.regs.stat.busy = true) (ht : acceptToken tok s = .next t) : t.ControlInv := by
  cases tok with
  | B b =>
    have k := acceptToken_byte ht
    have hseg : t.latch.segOpen = s.latch.segOpen ∨ s.Runs .spl := by
      by_cases hspl : s.regs.cmd = 0x60
      · exact .inr ⟨hb, hspl⟩
      · exact .inl (k.segOpen hspl)
    refine h.keep k.cmd k.busy k.done k.fail hseg ?_
    rw [k.err, k.cause]
    exact h.events
  | EOS =>
    have k := acceptToken_eos ht
    refine .of_idle k.busy (fun _ => k.done)
      (acceptToken_eos_segOpen (fun i hi hc => h.silent i ⟨hb, hc⟩ hi) ht) ?_
    rcases k.event with ⟨herr, hcause⟩ | ⟨e, herr, hcause⟩
    · rw [herr, hcause]
      exact h.events
    · rw [herr, hcause]
      exact h.events.note e

/-! ### One step -/

/-- Every step keeps the control invariant. -/
theorem State.ControlInv.step {s t : State} (h : s.ControlInv) (hst : step s = .next t) : t.ControlInv := by
  rcases step_cases hst with ⟨_, rfl⟩ | ⟨_, _, q, _, hb, ht⟩ | ⟨act, rest, s0, _, rfl, hc⟩
  · exact h
  · exact State.ControlInv.acceptToken (s := { s with host.inq := q }) (h.congr rfl rfl) hb ht
  · have h0 : ({ s with host.acts := rest } : State).ControlInv := h.congr rfl rfl
    rcases hc with ⟨_, rfl⟩ | ⟨_, _, _, _, he⟩ | ⟨_, _, _, rfl⟩ | ⟨r, v, _, _, rfl⟩ | ⟨_, _, _, _, rfl⟩ |
      ⟨_, _, rfl⟩ | ⟨_, _, rfl⟩ | ⟨_, rfl⟩ | ⟨_, q, _, _, hb, ht⟩ | ⟨_, rfl⟩
    · exact .of_reset rfl rfl
    · exact h0.exec he
    · exact h0.rejectReserved
    · exact h0.writeReg r v
    · exact h0
    · exact h.congr rfl rfl
    · exact h.congr rfl rfl
    · exact h0
    · exact State.ControlInv.acceptToken (s := { s with host := { s.host with acts := rest, inq := q } })
        (h.congr rfl rfl) hb ht
    · exact h0.outputTransfer

/-- Settles O56: by the cases of `step`, each kept by the lemma of its operation. -/
theorem stepKeepsControlInvariant : Obligations.StepKeepsControlInvariant :=
  fun _ _ h hst => ⟨h.step hst, step_params hst⟩

/-! ### Progress -/

/-- `In` has a next state: a busy block runs a stream command, which has a token rule (10_state.md R25). -/
theorem State.ControlInv.inputTransfer_next {s : State} (h : s.ControlInv) :
    ∃ t, inputTransfer s = .next t := by
  unfold inputTransfer
  split
  · exact ⟨_, rfl⟩
  · split
    · rename_i hb
      obtain ⟨i, hi, hc⟩ := h.running hb
      exact acceptToken_next hi (by exact hc) _
    · exact ⟨_, rfl⟩

theorem writePort_next (a : BitVec 5) (v : Byte) (s : State) : ∃ t, writePort a v s = .next t := by
  rcases writePort_cases a v s with ⟨_, he⟩ | ⟨r, _, _, he⟩ | ⟨_, he⟩
  · rw [he]
    rcases writeCmd_cases v s with ⟨i, _, hw⟩ | ⟨_, hw⟩
    · rw [hw]
      exact exec_next i s
    · exact ⟨_, hw⟩
  · exact ⟨_, he⟩
  · exact ⟨_, he⟩

/-- Every action of the outside world has a next state. -/
theorem State.ControlInv.perform_next {s : State} (h : s.ControlInv) (act : HostAct) :
    ∃ t, perform act s = .next t := by
  cases act with
  | regWrite a v => exact writePort_next a v s
  | input => exact h.inputTransfer_next
  | reset => exact ⟨_, rfl⟩
  | regRead a => exact ⟨_, rfl⟩
  | offer item => exact ⟨_, rfl⟩
  | output => exact ⟨_, rfl⟩

theorem State.ControlInv.step_next {s : State} (h : s.ControlInv) : ∃ t, Machine.step s = .next t := by
  cases ha : s.host.acts with
  | nil =>
    rw [step_quiet ha]
    exact h.inputTransfer_next
  | cons act rest =>
    rw [step_act ha]
    exact (h.congr rfl rfl : ({ s with host.acts := rest } : State).ControlInv).perform_next act

/-- Settles O59: every action has a next state, and the step keeps the invariant. -/
theorem everyStepCompletes : Obligations.EveryStepCompletes := by
  intro s h
  obtain ⟨t, ht⟩ := h.step_next
  exact ⟨t, ht, h.step ht⟩

end Sys2Proof.Machine
end

section
/-! PROOFS. The registers: the reset state and its invariants (10_state.md R50), what each address of the register
port reads (R23 to R36), and the sticky flags of `ERR` (R27). -/

namespace Sys2Proof.Machine

/-! ### The reset state -/

theorem resetWith_idle (P : Params) : (State.resetWith P).Idle := rfl

theorem resetWith_controlInv (P : Params) : (State.resetWith P).ControlInv := .of_reset rfl rfl

/-- An idle block runs no command: of the header invariant only the parameters and the bound of `s.hpos` are left. -/
theorem State.Idle.headerInv {s : State} (h : s.Idle) (hfits : s.params.Fits)
    (hpos : s.latch.hpos ≤ s.params.msgMin) : s.HeaderInv where
  fits := hfits
  saturating := hpos
  valid hr := (hr.elim (h.not_runs _) (h.not_runs _)).elim
  committed hr := (hr.elim (h.not_runs _) (h.not_runs _)).elim
  routed hr := (h.not_runs _ hr).elim
  unrouted hr := (h.not_runs _ hr).elim

theorem State.Idle.runningCounts {s : State} (h : s.Idle) : s.RunningCounts := by
  constructor <;> exact fun hr => (h.not_runs _ hr).elim

/-- Before any command has ended the equations of R261 say nothing. -/
theorem finalCounts_of_not_done {s : State} (h : s.regs.stat.done = false) : s.FinalCounts := by
  have hne (i : Instr) : ¬ s.Ended i := fun he => Bool.false_ne_true (h.symm.trans he.2.1)
  constructor <;> exact fun he => (hne _ he).elim

theorem resetWith_headerInv {P : Params} (h : P.Fits) : (State.resetWith P).HeaderInv :=
  (resetWith_idle P).headerInv h (Nat.zero_le _)

theorem resetWith_counterInv {P : Params} (h : P.Fits) : (State.resetWith P).CounterInv where
  control := resetWith_controlInv P
  header := resetWith_headerInv h
  running := (resetWith_idle P).runningCounts
  final := finalCounts_of_not_done rfl

/-- Settles O11: the record field by field, and the three invariants of an idle block that has run nothing. -/
theorem resetIsTheResetState : Obligations.ResetIsTheResetState :=
  ⟨rfl, rfl, rfl,
    fun P h => ⟨resetWith_idle P, resetWith_controlInv P, resetWith_headerInv h, resetWith_counterInv h⟩,
    rfl, by decide⟩

/-! ### The register port -/

theorem regAt_reserved {a : BitVec 5} (h : 0x1B ≤ a.toNat) : regAt a = none := by
  decide +revert

theorem readPort_reserved {a : BitVec 5} (h : 0x1B ≤ a.toNat) (s : State) : readPort s a = 0x00 := by
  simp only [readPort, regAt_reserved h]

theorem writePort_reserved {a : BitVec 5} (h : 0x1B ≤ a.toNat) (v : Byte) (s : State) :
    writePort a v s = .next s := by
  simp only [writePort, regAt_reserved h]

theorem writeReg_ro {r : Reg} (h : access r = .ro) (v : Byte) (s : State) : writeReg r v s = s := by
  simp only [writeReg, h]

theorem writePort_ro {r : Reg} (h : access r = .ro) (v : Byte) (s : State) :
    writePort (addr r) v s = .next s := by
  rw [writePort_addr (by rintro rfl; cases h), writeReg_ro h]

/-- The bits of `STAT` (10_state.md R26). -/
theorem statByte_bits (P : Params) (r : Regs) :
    (statByte P r).getLsbD 0 = r.stat.busy ∧ (statByte P r).getLsbD 1 = r.stat.done ∧
    (statByte P r).getLsbD 2 = r.stat.fail ∧ (statByte P r).getLsbD 3 = r.stat.matched ∧
    (statByte P r).getLsbD 4 = route P r ∧ (statByte P r).getLsbD 5 = r.stat.hdrv ∧
    (statByte P r).getLsbD 6 = r.stat.unterm ∧ (statByte P r).getLsbD 7 = false := by
  simp only [statByte]
  generalize r.stat.unterm = b6, r.stat.hdrv = b5, route P r = b4, r.stat.matched = b3, r.stat.fail = b2,
    r.stat.done = b1, r.stat.busy = b0
  decide +revert

theorem and_0x80_of_bit7 {b : Byte} (h : b.getLsbD 7 = false) : b &&& 0x80 = 0 := by
  decide +revert

theorem statByte_reserved (P : Params) (r : Regs) : statByte P r &&& 0x80 = 0 := by
  obtain ⟨_, _, _, _, _, _, _, h7⟩ := statByte_bits P r
  exact and_0x80_of_bit7 h7

/-- `STAT.ROUTE` is 1 exactly on the header of a one-block dump of a single patch (10_state.md R32). -/
theorem route_iff (P : Params) (r : Regs) :
    route P r = true ↔ r.hdr.func = P.funcOneBlock ∧ r.hdr.ss1 = P.ss1Single := by
  simp [route, carriesPatch]

/-- Settles O12: a reserved address has no register, and a read-only register takes no write. -/
theorem reservedAndReadOnlyLocations : Obligations.ReservedAndReadOnlyLocations :=
  ⟨fun s _ h => readPort_reserved h s, fun s _ v h => writePort_reserved h v s,
    fun s _ v h => writePort_ro h v s, fun s h => ⟨statByte_reserved s.params s.regs, h.errReserved⟩⟩

/-- Settles O15: each address by its register, `STAT` by its bits, and the pairs by their halves. -/
theorem registerLayout : Obligations.RegisterLayout := by
  refine ⟨⟨rfl, rfl, by decide⟩, fun s => ?_⟩
  obtain ⟨h0, h1, h2, h3, h4, h5, h6, h7⟩ := statByte_bits s.params s.regs
  have hroute := h4 ▸ route_iff s.params s.regs
  exact ⟨rfl, h0, h1, h2, h3, hroute, h5, h6, h7, rfl, rfl, rfl, rfl, rfl, rfl, rfl, rfl, rfl, rfl, rfl, rfl, rfl,
    rfl, rfl, rfl, rfl, wordOf_hiByte_loByte _, wordOf_hiByte_loByte _, wordOf_hiByte_loByte _,
    wordOf_hiByte_loByte _, fun _ h => readPort_reserved h s⟩

/-! ### The sticky flags -/

/-- The flags set before stay set. -/
def KeepsFlags (err err' : Byte) : Prop := ∀ k, err.getLsbD k = true → err'.getLsbD k = true

theorem KeepsFlags.of_eq {err err' : Byte} (h : err' = err) : KeepsFlags err err' := fun _ hk => h ▸ hk

theorem KeepsFlags.of_or {err err' m : Byte} (h : err' = err ||| m) : KeepsFlags err err' :=
  fun k hk => by rw [h, BitVec.getLsbD_or, hk, Bool.true_or]

theorem rejectReserved_keepsFlags (s : State) : KeepsFlags s.regs.err (rejectReserved s).regs.err := by
  unfold rejectReserved
  split <;> exact .of_or rfl

/-- A command write clears no flag, but for `CLR`. -/
theorem exec_keepsFlags {i : Instr} {s t : State} (h : exec i s = .next t) (hi : i ≠ .clr) :
    KeepsFlags s.regs.err t.regs.err := by
  rcases exec_cases h with ⟨_, _, rfl⟩ | ⟨rfl, _⟩ | ⟨_, _, _, hf⟩ | ⟨_, _, hs⟩
  · exact .of_or rfl
  · exact absurd rfl hi
  · exact .of_eq hf.accepted.err
  · exact .of_eq hs.accepted.err

theorem acceptToken_keepsFlags {tok : InToken} {s t : State} (h : acceptToken tok s = .next t) :
    KeepsFlags s.regs.err t.regs.err := by
  cases tok with
  | B b => exact .of_eq (acceptToken_byte h).err
  | EOS =>
    rcases (acceptToken_eos h).event with ⟨he, _⟩ | ⟨_, he, _⟩
    · exact .of_eq he
    · exact .of_or he

theorem access_w1c_iff (r : Reg) : access r = .w1c ↔ r = .err := by cases r <;> decide

/-- A register write clears no flag, but for one to `ERR`. -/
theorem writeReg_keepsFlags {r : Reg} (hr : r ≠ .err) (v : Byte) (s : State) : 
    KeepsFlags s.regs.err (writeReg r v s).regs.err := by
  unfold writeReg
  split
  · rename_i hacc
    exact absurd ((access_w1c_iff r).1 hacc) hr
  · split
    · exact .of_or rfl
    · exact .of_eq (storeReg_control v s.regs r).2.1
  · exact .of_eq rfl
  · exact .of_eq rfl

/-- A write to `ERR` clears the flags written as 1 only (10_state.md R27). -/
theorem writeReg_err_cleared {v : Byte} {s : State} {k : Nat} (hs : s.regs.err.getLsbD k = true)
    (ht : (writeReg .err v s).regs.err.getLsbD k = false) : v.getLsbD k = true := by
  have hk : k < 8 := BitVec.lt_of_getLsbD hs
  have he : (writeReg .err v s).regs.err = s.regs.err &&& ~~~v := rfl
  simpa [he, hs, hk] using ht

/-- Settles O51: of the cases of `step` only `Reset`, `CLR` and a write to `ERR` can clear a flag. -/
theorem errorFlagsAreSticky : Obligations.ErrorFlagsAreSticky := by
  intro s t k hst hs ht
  have hkeep (h : KeepsFlags s.regs.err t.regs.err) : False := Bool.false_ne_true (ht.symm.trans (h k hs))
  rcases step_cases hst with ⟨_, rfl⟩ | ⟨_, _, _, _, _, ha⟩ | ⟨act, rest, s0, hact, rfl, hc⟩
  · exact (hkeep (.of_eq rfl)).elim
  · exact (hkeep (acceptToken_keepsFlags ha :)).elim
  · refine ⟨act, rest, hact, ?_⟩
    rcases hc with ⟨rfl, _⟩ | ⟨c, i, rfl, hd, he⟩ | ⟨_, _, _, rfl⟩ | ⟨r, v, _, rfl, rfl⟩ | ⟨_, _, _, _, rfl⟩ |
      ⟨_, _, rfl⟩ | ⟨_, _, rfl⟩ | ⟨_, rfl⟩ | ⟨_, _, _, _, _, ha⟩ | ⟨_, rfl⟩
    · exact .inl rfl
    · by_cases hi : i = .clr
      · subst hi
        rw [(decode_clr_iff c).1 hd]
        exact .inr (.inl rfl)
      · exact (hkeep (exec_keepsFlags he hi :)).elim
    · exact (hkeep (rejectReserved_keepsFlags { s with host.acts := rest })).elim
    · by_cases hr : r = .err
      · subst hr
        exact .inr (.inr ⟨v, rfl, writeReg_err_cleared (s := { s with host.acts := rest }) hs ht⟩)
      · exact (hkeep (writeReg_keepsFlags hr v { s with host.acts := rest })).elim
    · exact (hkeep (.of_eq rfl)).elim
    · exact (hkeep (.of_eq rfl)).elim
    · exact (hkeep (.of_eq rfl)).elim
    · exact (hkeep (.of_eq rfl)).elim
    · exact (hkeep (acceptToken_keepsFlags ha :)).elim
    · refine (hkeep (.of_eq ?_)).elim
      rcases outputTransfer_cases { s with host.acts := rest } with ⟨_, he⟩ | ⟨_, _, _, he⟩ <;> rw [he]

end Sys2Proof.Machine
end

section
/-! PROOFS. No state leaks between commands (10_state.md R49): two runs of one stream command that start from the
same named registers move in lockstep. One rule per shared operation says that it keeps the relation; the token
rules are compositions of these. -/

namespace Sys2Proof.Machine

/-! ### What two runs share -/

/-- The registers that a run of `i` has read or written agree. -/
structure RegsAgree (i : Instr) (r r' : Regs) : Prop where
  cmd : r.cmd = encode i
  cmd' : r'.cmd = encode i
  fail : r.stat.fail = r'.stat.fail
  icnt : r.icnt = r'.icnt
  ocnt : r.ocnt = r'.ocnt
  term : r.term = r'.term
  hdr : r.hdr = r'.hdr
  explo : r.explo = r'.explo
  exphi : r.exphi = r'.exphi
  matched : i = .ckv ∨ i = .ckt → r.stat.matched = r'.stat.matched
  hdrv : i = .phd ∨ i = .str → r.stat.hdrv = r'.stat.hdrv
  segcnt : i = .spl → r.segcnt = r'.segcnt
  unterm : i = .spl → r.stat.unterm = r'.stat.unterm

/-- The latches agree where a token rule looks at them: a byte latch that its count or its valid flag does not yet
cover may hold what an earlier command left there. -/
structure LatchesAgree (l l' : Latches) : Prop where
  holdValid : l.holdValid = l'.holdValid
  hold : l.holdValid = true → l.hold = l'.hold
  sum : l.sum = l'.sum
  dcnt : l.dcnt = l'.dcnt
  d0 : l.dcnt ≠ 0 → l.d0 = l'.d0
  d1 : l.dcnt ≠ 0 → l.dcnt ≠ 1 → l.d1 = l'.d1
  hpos : l.hpos = l'.hpos
  hb : ∀ k, k < l.hpos → l.hb.getD k 0 = l'.hb.getD k 0
  pass : l.pass = l'.pass
  segOpen : l.segOpen = l'.segOpen

/-- The same tokens were appended to both queues. -/
def SameTokens (q q' r r' : List OutToken) : Prop := ∃ e, r = q ++ e ∧ r' = q' ++ e

/-- The same flags were set in both `ERR`; `CAUSE` agrees where one was set and is as before where none was. -/
def SameEvents (r r' u u' : Regs) : Prop :=
  ∃ bits : Byte, u.err = r.err ||| bits ∧ u'.err = r'.err ||| bits ∧
    (bits = 0 → u.cause = r.cause ∧ u'.cause = r'.cause) ∧ (bits ≠ 0 → u.cause = u'.cause)

/-- Two runs of the stream command `i`, accepted in the states `o` and `o'`, have come equally far, to `s` and
`s'`. -/
structure Lockstep (i : Instr) (o o' s s' : State) : Prop where
  params : s.params = s'.params
  fits : i = .phd ∨ i = .str → s.params.Fits
  regs : RegsAgree i s.regs s'.regs
  latch : LatchesAgree s.latch s'.latch
  tokens : SameTokens o.oq o'.oq s.oq s'.oq
  events : SameEvents o.regs o'.regs s.regs s'.regs

theorem SameTokens.append {q q' r r' : List OutToken} (h : SameTokens q q' r r') (e : List OutToken) :
    SameTokens q q' (r ++ e) (r' ++ e) := by
  obtain ⟨d, rfl, rfl⟩ := h
  exact ⟨d ++ e, List.append_assoc .., List.append_assoc ..⟩

theorem SameEvents.note {r r' u u' v v' : Regs} (h : SameEvents r r' u u') (e : Event)
    (herr : v.err = u.err ||| errMask e) (herr' : v'.err = u'.err ||| errMask e)
    (hcause : v.cause = causeCode e) (hcause' : v'.cause = causeCode e) : SameEvents r r' v v' := by
  obtain ⟨bits, hu, hu', _, _⟩ := h
  refine ⟨bits ||| errMask e, ?_, ?_, fun h0 => ?_, fun _ => hcause.trans hcause'.symm⟩
  · rw [herr, hu, BitVec.or_assoc]
  · rw [herr', hu', BitVec.or_assoc]
  · exact absurd (BitVec.or_eq_zero_iff.1 h0).2 (errMask_ne_zero e)

/-! ### The latches of the header engine -/

theorem eight_le_msgMin {P : Params} (h : P.Fits) : 8 ≤ P.msgMin := by
  obtain ⟨hf, hm⟩ := h
  simp only [Params.headerLen, hf] at hm
  exact hm

theorem LatchesAgree.place {l l' : Latches} (h : LatchesAgree l l') (b : Byte) :
    LatchesAgree { l with hb := Machine.place b l.hpos l.hb, hpos := l.hpos + 1 }
      { l' with hb := Machine.place b l'.hpos l'.hb, hpos := l'.hpos + 1 } :=
  { h with
    hpos := congrArg (· + 1) h.hpos
    hb := fun k hk => by
      rw [getD_place, getD_place, ← h.hpos]
      by_cases hkl : k = l.hpos
      · simp only [hkl, if_true]
      · simp only [hkl, if_false]
        exact h.hb k (by simp only at hk; omega) }

theorem LatchesAgree.headerOf {l l' : Latches} (h : LatchesAgree l l') (h8 : 8 ≤ l.hpos) :
    Machine.headerOf l.hb = Machine.headerOf l'.hb :=
  headerOf_congr fun k hk => h.hb k (by omega)

theorem LatchesAgree.keptBytes {l l' : Latches} {P : Params} (h : LatchesAgree l l') (hp : P.msgMin ≤ l.hpos) :
    Machine.keptBytes P l.hb = Machine.keptBytes P l'.hb :=
  List.map_congr_left fun k hk => h.hb k ((List.mem_range.1 hk).trans_le hp)

/-! ### The shared operations keep the lockstep -/

section
variable {i : Instr} {o o' s s' : State} (h : Lockstep i o o' s s')
include h

theorem Lockstep.countInput : Lockstep i o o' (countInput s) (countInput s') :=
  { h with regs := { h.regs with icnt := congrArg (· + 1) h.regs.icnt } }

theorem Lockstep.emitByte (b : Byte) : Lockstep i o o' (emitByte b s) (emitByte b s') :=
  { h with
    regs := { h.regs with ocnt := congrArg (· + 1) h.regs.ocnt }
    tokens := h.tokens.append [.B b] }

theorem Lockstep.emitBytes (bs : List Byte) : Lockstep i o o' (emitBytes bs s) (emitBytes bs s') := by
  induction bs generalizing s s' with
  | nil => exact h
  | cons b bs ih => exact ih (h.emitByte b)

theorem Lockstep.closeBuffer (code : Byte) : Lockstep i o o' (closeBuffer code s) (closeBuffer code s') :=
  { h with latch := { h.latch with segOpen := rfl }, tokens := h.tokens.append [.EOS code] }

theorem Lockstep.noteEvent (e : Event) : Lockstep i o o' (noteEvent e s) (noteEvent e s') :=
  { h with regs := { h.regs with }, events := h.events.note e rfl rfl rfl rfl }

theorem Lockstep.endCommand : Lockstep i o o' (endCommand s) (endCommand s') :=
  { h with regs := { h.regs with } }

theorem Lockstep.raiseFatal (e : Event) : Lockstep i o o' (raiseFatal e s) (raiseFatal e s') := by
  rw [raiseFatal_eq, raiseFatal_eq, ← h.latch.segOpen]
  exact { h with
    regs := { h.regs with fail := rfl }
    latch := { h.latch with segOpen := rfl }
    tokens := h.tokens.append _
    events := h.events.note e rfl rfl rfl rfl }

theorem Lockstep.setCks (c c' : Word) : Lockstep i o o' (setCks c s) (setCks c' s') :=
  { h with regs := { h.regs with } }

theorem Lockstep.settleMatch (equal : Bool) : Lockstep i o o' (settleMatch equal s) (settleMatch equal s') := by
  cases equal with
  | true => exact { h with regs := { h.regs with matched := fun _ => rfl } }
  | false =>
    exact Lockstep.noteEvent (s := { s with regs.stat.matched := false })
      (s' := { s' with regs.stat.matched := false })
      { h with regs := { h.regs with matched := fun _ => rfl } } .cksum

theorem Lockstep.withExp (lo hi : Byte) :
    Lockstep i o o' { s with regs.explo := lo, regs.exphi := hi } { s' with regs.explo := lo, regs.exphi := hi } :=
  { h with regs := { h.regs with explo := rfl, exphi := rfl } }

theorem Lockstep.withPass (pass : Bool) :
    Lockstep i o o' { s with latch.pass := pass } { s' with latch.pass := pass } :=
  { h with latch := { h.latch with pass := rfl } }

theorem Lockstep.emptyHold :
    Lockstep i o o' { s with latch.holdValid := false } { s' with latch.holdValid := false } :=
  { h with latch := { h.latch with holdValid := rfl, hold := fun hv => absurd hv Bool.false_ne_true } }

theorem Lockstep.fillHold (b : Byte) :
    Lockstep i o o' { s with latch.hold := b, latch.holdValid := true }
      { s' with latch.hold := b, latch.holdValid := true } :=
  { h with latch := { h.latch with holdValid := rfl, hold := fun _ => rfl } }

theorem Lockstep.finish : finish s = finish s' := by
  rw [Machine.finish, Machine.finish, h.params, h.latch.sum]

theorem Lockstep.feed (b : Byte) : Lockstep i o o' (feed b s) (feed b s') := by
  unfold Machine.feed
  rw [← h.latch.holdValid]
  split
  · rename_i hv
    have he := h.emptyHold
    exact { he with latch := { he.latch with sum := by rw [h.latch.sum, h.latch.hold hv] } }
  · exact h.fillHold b

theorem Lockstep.delayByte (b : Byte) : Lockstep i o o' (delayByte b s) (delayByte b s') := by
  unfold Machine.delayByte
  rw [← h.latch.dcnt]
  split
  · exact { h with latch := { h.latch with
      dcnt := rfl, d0 := fun _ => rfl, d1 := fun _ h1 => absurd rfl h1 } }
  · rename_i h0
    split
    · exact { h with latch := { h.latch with dcnt := rfl, d0 := fun _ => h.latch.d0 h0, d1 := fun _ _ => rfl } }
    · rename_i h1
      have hf := h.feed s.latch.d0
      rw [← h.latch.d0 h0]
      exact { hf with latch := { hf.latch with d0 := fun _ => h.latch.d1 h0 h1, d1 := fun _ _ => rfl } }

theorem Lockstep.closeSegment : Lockstep i o o' (closeSegment s) (closeSegment s') :=
  { h.closeBuffer codeOk with
    regs := { h.regs with segcnt := fun hi => congrArg (· + 1) (h.regs.segcnt hi) } }

theorem Lockstep.commitHeader (h8 : 8 ≤ s.latch.hpos) : Lockstep i o o' (commitHeader s) (commitHeader s') :=
  { h with regs := { h.regs with hdr := h.latch.headerOf h8, hdrv := fun _ => rfl } }

theorem Lockstep.headerEngine (hi : i = .phd ∨ i = .str) (b : Byte) :
    Lockstep i o o' (headerEngine b s) (headerEngine b s') := by
  have hplaced : Lockstep i o o'
      { s with latch.hb := place b s.latch.hpos s.latch.hb, latch.hpos := s.latch.hpos + 1 }
      { s' with latch.hb := place b s'.latch.hpos s'.latch.hb, latch.hpos := s'.latch.hpos + 1 } :=
    { h with latch := h.latch.place b }
  have h8 := eight_le_msgMin (h.fits hi)
  unfold Machine.headerEngine
  simp only [← h.params, ← h.latch.hpos] at hplaced ⊢
  split_ifs with _ hpos
  · exact hplaced.commitHeader (h8.trans_eq hpos.symm)
  · exact hplaced
  · exact h

theorem Lockstep.routeMessage (hi : i = .phd ∨ i = .str) (hpos : s.latch.hpos = s.params.msgMin) :
    Lockstep i o o' (routeMessage s) (routeMessage s') := by
  have h8 := eight_le_msgMin (h.fits hi)
  have hpatch : carriesPatch s'.params (headerOf s'.latch.hb) = carriesPatch s.params (headerOf s.latch.hb) := by
    rw [h.params, h.latch.headerOf (by omega)]
  have hkept : keptBytes s'.params s'.latch.hb = keptBytes s.params s.latch.hb := by
    rw [h.latch.keptBytes hpos.ge, h.params]
  have hlen : s'.params.headerLen = s.params.headerLen := by rw [h.params]
  simp only [Machine.routeMessage, hpatch, hkept, hlen]
  exact (h.withPass _).emitBytes _

/-! ### The token rules keep the lockstep -/

theorem Lockstep.tokenExp (tok : InToken) : Lockstep i o o' (tokenExp tok s) (tokenExp tok s') := by
  cases tok with
  | B b => exact (h.countInput.emitByte _).emitByte _
  | EOS => exact (h.closeBuffer codeOk).endCommand

theorem Lockstep.tokenCol (tok : InToken) : Lockstep i o o' (tokenCol tok s) (tokenCol tok s') := by
  cases tok with
  | B b =>
    have hc := h.countInput
    simp only [Machine.tokenCol, ← hc.latch.holdValid]
    split
    · rename_i hv
      have hbyte : byteFromNybbles (Machine.countInput s').latch.hold b =
          byteFromNybbles (Machine.countInput s).latch.hold b := by rw [hc.latch.hold hv]
      rw [hbyte]
      exact hc.emptyHold.emitByte _
    · exact hc.fillHold b
  | EOS =>
    simp only [Machine.tokenCol, ← h.latch.holdValid]
    split
    · exact h.raiseFatal .length
    · exact (h.closeBuffer codeOk).endCommand

theorem Lockstep.tokenCkc (tok : InToken) : Lockstep i o o' (tokenCkc tok s) (tokenCkc tok s') := by
  cases tok with
  | B b => exact h.countInput.feed b
  | EOS =>
    simp only [Machine.tokenCkc, ← h.latch.holdValid]
    split
    · exact h.raiseFatal .oddSpan
    · exact (h.setCks _ _).endCommand

theorem Lockstep.tokenCkv (tok : InToken) : Lockstep i o o' (tokenCkv tok s) (tokenCkv tok s') := by
  cases tok with
  | B b => exact h.countInput.feed b
  | EOS =>
    have hexp : expected s.regs = expected s'.regs := by
      rw [expected, expected, h.regs.exphi, h.regs.explo]
    simp only [Machine.tokenCkv, ← h.latch.holdValid, ← h.finish, ← hexp]
    split
    · exact h.raiseFatal .oddSpan
    · exact ((h.setCks _ _).settleMatch _).endCommand

theorem Lockstep.tokenCkt (tok : InToken) : Lockstep i o o' (tokenCkt tok s) (tokenCkt tok s') := by
  cases tok with
  | B b => exact h.countInput.delayByte b
  | EOS =>
    simp only [Machine.tokenCkt, ← h.latch.holdValid, ← h.latch.dcnt]
    split_ifs with htrunc
    · exact h.raiseFatal .trunc
    · exact h.raiseFatal .oddSpan
    · have hd0 : s.latch.d0 = s'.latch.d0 := h.latch.d0 (by rintro h0; simp [h0] at htrunc)
      have hd1 : s.latch.d1 = s'.latch.d1 :=
        h.latch.d1 (by rintro h0; simp [h0] at htrunc) (by rintro h1; simp [h1] at htrunc)
      rw [← h.finish, ← hd0, ← hd1]
      exact (((h.setCks _ _).withExp _ _).settleMatch _).endCommand

theorem Lockstep.tokenCka (tok : InToken) : Lockstep i o o' (tokenCka tok s) (tokenCka tok s') := by
  cases tok with
  | B b => exact (h.countInput.feed b).emitByte b
  | EOS =>
    simp only [Machine.tokenCka, ← h.latch.holdValid, ← h.finish]
    split
    · exact h.raiseFatal .oddSpan
    · exact (((h.setCks _ _).emitBytes _).closeBuffer codeOk).endCommand

theorem Lockstep.tokenSpl (tok : InToken) : Lockstep i o o' (tokenSpl tok s) (tokenSpl tok s') := by
  cases tok with
  | B b =>
    have hc := h.countInput
    simp only [Machine.tokenSpl, ← hc.regs.term, ← hc.latch.segOpen]
    split_ifs
    · exact hc.closeSegment
    · exact hc
    · have he := hc.emitByte b
      exact { he with latch := { he.latch with segOpen := rfl } }
  | EOS =>
    simp only [Machine.tokenSpl, ← h.latch.segOpen]
    split
    · have hs := h.closeSegment
      exact Lockstep.endCommand { hs with regs := { hs.regs with unterm := fun _ => rfl } }
    · exact h.endCommand

theorem Lockstep.tokenPhd (hi : i = .phd ∨ i = .str) (tok : InToken) :
    Lockstep i o o' (tokenPhd tok s) (tokenPhd tok s') := by
  cases tok with
  | B b => exact h.countInput.headerEngine hi b
  | EOS =>
    simp only [Machine.tokenPhd, ← h.latch.hpos, ← h.params]
    split
    · exact h.raiseFatal .trunc
    · exact h.endCommand

theorem Lockstep.tokenStr (hi : i = .phd ∨ i = .str) (tok : InToken) :
    Lockstep i o o' (tokenStr tok s) (tokenStr tok s') := by
  cases tok with
  | B b =>
    have hc := h.countInput
    have he := hc.headerEngine hi b
    simp only [Machine.tokenStr, ← hc.latch.hpos, ← hc.params, ← he.latch.hpos, ← he.params]
    split_ifs with _ hpos
    · exact he.routeMessage hi hpos
    · exact he
    · exact hc.emitByte b
  | EOS =>
    simp only [Machine.tokenStr, ← h.latch.hpos, ← h.params, ← h.latch.pass]
    split
    · exact h.raiseFatal .trunc
    · exact (h.closeBuffer _).endCommand

theorem Lockstep.tokenAtt (tok : InToken) : Lockstep i o o' (tokenAtt tok s) (tokenAtt tok s') := by
  cases tok with
  | B b => exact h.countInput.emitByte b
  | EOS =>
    simp only [Machine.tokenAtt, ← h.params]
    exact ((h.emitByte _).closeBuffer codeOk).endCommand

end

/-! ### Whole runs -/

/-- Both runs accept the next token, each by the rule of `i`. -/
theorem Lockstep.acceptToken {i : Instr} {o o' s s' : State} (h : Lockstep i o o' s s') (hi : i.isStream = true)
    (tok : InToken) : ∃ t t', Machine.acceptToken tok s = .next t ∧ Machine.acceptToken tok s' = .next t' ∧
      Lockstep i o o' t t' := by
  have hc := h.regs.cmd
  have hc' := h.regs.cmd'
  cases i with
  | exp => exact ⟨_, _, acceptToken_exp hc tok, acceptToken_exp hc' tok, h.tokenExp tok⟩
  | col => exact ⟨_, _, acceptToken_col hc tok, acceptToken_col hc' tok, h.tokenCol tok⟩
  | ckc => exact ⟨_, _, acceptToken_ckc hc tok, acceptToken_ckc hc' tok, h.tokenCkc tok⟩
  | ckv => exact ⟨_, _, acceptToken_ckv hc tok, acceptToken_ckv hc' tok, h.tokenCkv tok⟩
  | ckt => exact ⟨_, _, acceptToken_ckt hc tok, acceptToken_ckt hc' tok, h.tokenCkt tok⟩
  | cka => exact ⟨_, _, acceptToken_cka hc tok, acceptToken_cka hc' tok, h.tokenCka tok⟩
  | spl => exact ⟨_, _, acceptToken_spl hc tok, acceptToken_spl hc' tok, h.tokenSpl tok⟩
  | phd => exact ⟨_, _, acceptToken_phd hc tok, acceptToken_phd hc' tok, h.tokenPhd (.inl rfl) tok⟩
  | str => exact ⟨_, _, acceptToken_str hc tok, acceptToken_str hc' tok, h.tokenStr (.inr rfl) tok⟩
  | att => exact ⟨_, _, acceptToken_att hc tok, acceptToken_att hc' tok, h.tokenAtt tok⟩
  | _ => cases hi

/-- Both runs consume the same tokens. -/
theorem Lockstep.acceptTokens {i : Instr} {o o' s s' : State} (h : Lockstep i o o' s s') (hi : i.isStream = true)
    (toks : List InToken) : ∃ t t', Machine.acceptTokens toks s = .next t ∧
      Machine.acceptTokens toks s' = .next t' ∧ Lockstep i o o' t t' := by
  induction toks generalizing s s' with
  | nil => exact ⟨s, s', rfl, rfl, h⟩
  | cons tok toks ih =>
    obtain ⟨u, u', hu, hu', hl⟩ := h.acceptToken hi tok
    rw [acceptTokens_cons_next hu, acceptTokens_cons_next hu']
    exact ih hl

/-- Acceptance puts two runs from the same named registers in lockstep: it empties every latch (10_state.md R49). -/
theorem Lockstep.start {i : Instr} {o o' s s' : State} (hs : Started i o s) (hs' : Started i o' s')
    (hparams : o.params = o'.params) (hfits : i = .phd ∨ i = .str → o.params.Fits)
    (hterm : o.regs.term = o'.regs.term) (hhdr : o.regs.hdr = o'.regs.hdr)
    (hexplo : o.regs.explo = o'.regs.explo) (hexphi : o.regs.exphi = o'.regs.exphi) :
    Lockstep i o o' s s' where
  params := by rw [hs.accepted.params, hs'.accepted.params, hparams]
  fits hi := by rw [hs.accepted.params]; exact hfits hi
  regs :=
    { cmd := hs.accepted.cmd
      cmd' := hs'.accepted.cmd
      fail := by rw [hs.accepted.fail, hs'.accepted.fail]
      icnt := by rw [hs.icnt, hs'.icnt]
      ocnt := by rw [hs.ocnt, hs'.ocnt]
      term := by rw [hs.accepted.term, hs'.accepted.term, hterm]
      hdr := by rw [hs.accepted.hdr, hs'.accepted.hdr, hhdr]
      explo := by rw [hs.accepted.explo, hs'.accepted.explo, hexplo]
      exphi := by rw [hs.accepted.exphi, hs'.accepted.exphi, hexphi]
      matched := fun hi => by rw [hs.matched, hs'.matched, if_pos hi, if_pos hi]
      hdrv := fun hi => by rw [hs.hdrv, hs'.hdrv, if_pos hi, if_pos hi]
      segcnt := fun hi => by rw [hs.segcnt, hs'.segcnt, if_pos hi, if_pos hi]
      unterm := fun hi => by rw [hs.unterm, hs'.unterm, if_pos hi, if_pos hi] }
  latch :=
    { holdValid := by rw [hs.holdValid, hs'.holdValid]
      hold := fun hv => absurd (hs.holdValid.symm.trans hv) Bool.false_ne_true
      sum := by rw [hs.sum, hs'.sum]
      dcnt := by rw [hs.dcnt, hs'.dcnt]
      d0 := fun h0 => absurd hs.dcnt h0
      d1 := fun h0 => absurd hs.dcnt h0
      hpos := by rw [hs.hpos, hs'.hpos]
      hb := fun k hk => absurd (hs.hpos ▸ hk) (Nat.not_lt_zero k)
      pass := by rw [hs.pass, hs'.pass]
      segOpen := by
        by_cases ho : opensAtStart i
        · rw [hs.opens ho, hs'.opens ho]
        · rw [hs.closed ho, hs'.closed ho] }
  tokens := ⟨_, hs.oq, by rw [hs'.oq, hparams, hhdr]⟩
  events := ⟨0, by rw [hs.accepted.err]; exact BitVec.or_zero.symm,
    by rw [hs'.accepted.err]; exact BitVec.or_zero.symm,
    fun _ => ⟨hs.accepted.cause, hs'.accepted.cause⟩, fun h0 => absurd rfl h0⟩

/-- A checksum command that ends without a fault leaves the constant minus the sum in `CKS` (43_checksum.md R203). -/
theorem acceptToken_eos_cks {i : Instr} (hi : i = .ckc ∨ i = .ckv ∨ i = .ckt ∨ i = .cka) {s t : State}
    (hc : s.regs.cmd = encode i) (ht : acceptToken .EOS s = .next t) (hfail : t.regs.stat.fail = false) :
    t.regs.cks = finish s := by
  have hfatal (e : Event) : (raiseFatal e s).regs.stat.fail = true := by rw [raiseFatal_eq]
  have hmatch (b : Bool) (u : State) : (settleMatch b u).regs.cks = u.regs.cks := by cases b <;> rfl
  revert hfail
  rcases hi with rfl | rfl | rfl | rfl
  · rw [acceptToken_ckc hc] at ht
    cases ht
    simp only [tokenCkc]
    split <;> simp [hfatal]
  · rw [acceptToken_ckv hc] at ht
    cases ht
    simp only [tokenCkv]
    split <;> simp [hfatal, hmatch]
  · rw [acceptToken_ckt hc] at ht
    cases ht
    simp only [tokenCkt]
    split_ifs <;> simp [hfatal, hmatch]
  · rw [acceptToken_cka hc] at ht
    cases ht
    simp only [tokenCka, emitBytes_eq]
    split <;> simp [hfatal]

/-- Settles O55: the two runs are in lockstep from acceptance to the end mark. -/
theorem noStateLeaksBetweenCommands : Obligations.NoStateLeaksBetweenCommands := by
  intro i x s s' hi hs hs' hparams hfits hterm hhdr hexplo hexphi
  obtain ⟨u, hu, hstart⟩ := exec_stream hi hs
  obtain ⟨u', hu', hstart'⟩ := exec_stream hi hs'
  obtain ⟨v, v', hv, hv', hl⟩ :=
    (Lockstep.start hstart hstart' hparams hfits hterm hhdr hexplo hexphi).acceptTokens hi (x.map .B)
  obtain ⟨t, t', ht, ht', h⟩ := hl.acceptToken hi .EOS
  have hend := acceptToken_eos ht
  have hend' := acceptToken_eos ht'
  obtain ⟨e, he, he'⟩ := h.tokens
  obtain ⟨bits, herr, herr', hquiet, hnoted⟩ := h.events
  refine ⟨t, t', e, bits, (runCommand_eq hu hv).trans ht, (runCommand_eq hu' hv').trans ht', he, he',
    h.regs.cmd.trans h.regs.cmd'.symm, hend.busy, hend'.busy, hend.done, hend'.done, h.regs.fail, herr, herr',
    hquiet, hnoted, h.regs.icnt, h.regs.ocnt, h.regs.hdr, h.regs.explo, h.regs.exphi, fun hf hck => ?_,
    h.regs.matched, h.regs.hdrv, fun hspl => ⟨h.regs.segcnt hspl, h.regs.unterm hspl⟩⟩
  rw [acceptToken_eos_cks hck hl.regs.cmd ht hf, acceptToken_eos_cks hck hl.regs.cmd' ht' (h.regs.fail ▸ hf),
    hl.finish]

end Sys2Proof.Machine
end

section
/-! PROOFS. The ports and the schedule (20_memory.md R62, R70 to R76): what one step does by its action, the waiting
tokens of the input port, and the writes to configuration registers. -/

namespace Sys2Proof.Machine

/-! ### Transfers of the stream ports -/

/-- `In` while busy hands the oldest waiting token to the running command (R70). -/
theorem inputTransfer_busy {s : State} {t : InToken} {q : List InToken} (hq : s.host.inq = t :: q)
    (hbusy : s.regs.stat.busy = true) : inputTransfer s = acceptToken t { s with host.inq := q } := by
  simp only [inputTransfer, hq, hbusy, if_true]

/-- `In` while idle leaves every token waiting (R76). -/
theorem inputTransfer_idle {s : State} (h : s.Idle) : inputTransfer s = .next s := by
  cases hq : s.host.inq with
  | nil => simp only [inputTransfer, hq]
  | cons t q =>
    have hbusy : s.regs.stat.busy = false := h
    simp only [inputTransfer, hq, hbusy, Bool.false_eq_true, if_false]

theorem outputTransfer_cons {s : State} {t : OutToken} {q : List OutToken} (h : s.oq = t :: q) :
    outputTransfer s = { s with oq := q, host.taken := s.host.taken ++ [t] } := by
  simp only [outputTransfer, h]

/-! ### Steps by their action -/

theorem step_input_busy {s : State} {rest : List HostAct} {t : InToken} {q : List InToken}
    (hact : s.host.acts = .input :: rest) (hq : s.host.inq = t :: q) (hbusy : s.regs.stat.busy = true) :
    step s = acceptToken t { s with host.acts := rest, host.inq := q } :=
  (step_act hact).trans (inputTransfer_busy (s := { s with host.acts := rest }) hq hbusy)

theorem step_input_idle {s : State} {rest : List HostAct} (hact : s.host.acts = .input :: rest) (h : s.Idle) :
    step s = .next { s with host.acts := rest } :=
  (step_act hact).trans (inputTransfer_idle (s := { s with host.acts := rest }) h)

theorem writeCmd_command {c : Byte} {i : Instr} (h : decode c = .command i) (s : State) :
    writeCmd c s = exec i s := by
  simp only [writeCmd, h]

theorem step_command {s : State} {c : Byte} {i : Instr} {rest : List HostAct}
    (hact : s.host.acts = .regWrite 0x00 c :: rest) (hc : decode c = .command i) :
    step s = exec i { s with host.acts := rest } :=
  (step_act hact).trans (writeCmd_command hc _)

/-- A byte that the table's decoder reads as a command is decoded as that command (30_encoding.md R90). -/
theorem decode_of_decodeTableWord {w : Nat} {i : Instr} (h : decodeTableWord 8 w = some i) :
    decode (BitVec.ofNat 8 w) = .command i := by
  unfold decodeTableWord at h
  split at h
  · cases hd : decode (BitVec.ofNat 8 w) with
    | command j =>
      rw [hd] at h
      exact congrArg Decoded.command (Option.some.inj h)
    | reserved =>
      rw [hd] at h
      cases h
  · cases h

/-- Settles O8: an idle block leaves the token where it is, and acceptance of the command does not touch the port. -/
theorem tokenWaitsWhileIdle : Obligations.TokenWaitsWhileIdle := by
  refine ⟨fun _ _ hact hidle => step_input_idle hact hidle, ?_⟩
  intro s i rest t q hi hidle hact hq
  obtain ⟨u, hu, hstart⟩ := exec_stream hi (s := { s with host.acts := .input :: rest }) hidle
  have hport : u.host.inq = t :: q := by rw [hstart.accepted.host, hq]
  have hnext : u.host.acts = .input :: rest := by rw [hstart.accepted.host]
  exact ⟨u, (step_command hact (decode_encode_stream hi)).trans hu, hport,
    step_input_busy hnext hport hstart.busy⟩

/-! ### Writes to configuration registers -/

/-- An `RW` register takes a write while idle (R71). -/
theorem writePort_rw_idle {r : Reg} (hr : access r = .rw) {s : State} (h : s.Idle) (v : Byte) :
    writePort (addr r) v s = .next { s with regs := storeReg v s.regs r } := by
  have hbusy : s.regs.stat.busy = false := h
  rw [writePort_addr (by rintro rfl; cases hr)]
  simp only [writeReg, hr, hbusy, Bool.false_eq_true, if_false]

/-- Settles O13: the stored value is the one read back, and storing touches one register only. -/
theorem configurationWrites : Obligations.ConfigurationWrites := by
  refine ⟨fun s r v hr hidle => ?_, fun s v => rfl⟩
  refine ⟨_, writePort_rw_idle hr hidle v, ?_, fun r' hne hstat hprog => ?_, storeReg_stat v s.regs r,
    rfl, rfl, rfl, rfl⟩
  · rw [readPort_addr, readReg_storeReg_same hr]
  · rw [readPort_addr, readPort_addr, readReg_storeReg_other hr hne hstat hprog]

/-! ### Runs of `In` steps -/

/-- A token is accepted, or `CMD` holds no stream command and no outside world changes that (log 9). -/
theorem acceptToken_next_or_fault (t : InToken) (s : State) :
    (∃ u, acceptToken t s = .next u) ∨
    ∀ h : HostSide, acceptToken t { s with host := h } = .fault .noTokenRule := by
  simp only [acceptToken]
  cases decode s.regs.cmd with
  | reserved => exact .inr fun _ => rfl
  | command i =>
    cases i with
    | exp | col | ckc | ckv | ckt | cka | spl | phd | str | att => exact .inl ⟨_, rfl⟩
    | nop | clr | bit _ | wbit _ _ | nyb | bfn | tos | frs => exact .inr fun _ => rfl

/-- The tokens behind one that faults are not consumed. -/
theorem acceptTokens_cons_fault {t : InToken} {s : State} {r : Fault} (h : acceptToken t s = .fault r)
    (us : List InToken) : acceptTokens (t :: us) s = .fault r := by
  simp only [acceptTokens, h]

/-- A run ends at the first step that faults. -/
theorem run_fault {s : State} {r : Fault} (h : step s = .fault r) (k : Nat) :
    Host.Core.run core (k + 1) s = .fault r := by
  have h' : core.step s = .fault r := h
  simp only [Host.Core.run, h']

/-- A run of one step. -/
theorem run_one (s : State) : Host.Core.run core 1 s = step s := by
  have h' : core.step s = step s := rfl
  simp only [Host.Core.run, h']
  cases step s <;> rfl

/-- Settles O41: by induction on the data bytes; each step accepts one token, and the rule of the token does not
look at what else waits or is scheduled. -/
theorem inputStepsFeedTheCommand : Obligations.InputStepsFeedTheCommand := by
  intro s x q rest hbusy hq hact
  induction x generalizing s with
  | nil => exact ((run_one s).trans (step_input_busy hact hq hbusy)).trans (acceptTokens_one _ _).symm
  | cons b x ih =>
    have hstep := step_input_busy hact hq hbusy
    rw [List.map_cons, List.cons_append, List.length_cons]
    rcases acceptToken_next_or_fault (.B b) s with ⟨u, hu⟩ | hfault
    · have htaken := acceptToken_byte hu
      rw [acceptToken_withHost hu] at hstep
      rw [run_succ hstep, acceptTokens_cons_next (acceptToken_withHost hu _)]
      exact ih _ (htaken.busy.trans hbusy) rfl rfl
    · rw [hfault] at hstep
      exact (run_fault hstep _).trans (acceptTokens_cons_fault (hfault _) _).symm

/-! ### The transitions -/

/-- Settles O5: the write of a byte to `CMD` runs what the byte decodes to. -/
theorem stepRunsDecodedCommand : Obligations.StepRunsDecodedCommand :=
  ⟨fun _ _ _ _ hact hc => step_command hact hc, fun s w _ _ hw =>
    step_command (s := s.withFetchWord 8 w) rfl (decode_of_decodeTableWord hw)⟩

/-- Settles O6: the scheduled action is performed, each transition by its own equation. -/
theorem stepPerformsScheduledTransition : Obligations.StepPerformsScheduledTransition := by
  refine fun s rest => ⟨step_idle, fun _ _ hact => step_act hact, fun _ hact => step_act hact,
    fun hact => step_act hact, fun _ _ hact hq hbusy => step_input_busy hact hq hbusy, fun t q hact hoq => ?_⟩
  exact (step_act hact).trans
    (congrArg Host.Outcome.next (outputTransfer_cons (s := { s with host.acts := rest }) hoq))

/-! ### Items -/

/-- A clear top bit makes an item a data byte (R62). -/
theorem inTokenOf_data (b : Byte) : inTokenOf (0#1 ++ b) = .B b := by
  decide +revert

/-- A set top bit makes an item an end mark, whatever its data bits (R62). -/
theorem inTokenOf_end (d : Byte) : inTokenOf (1#1 ++ d) = .EOS := by
  decide +revert

/-- Settles O9: the top bit of an item tells end mark from data. -/
theorem portItemsCarryTokens : Obligations.PortItemsCarryTokens :=
  ⟨fun b => ⟨inTokenOf_data b, rfl⟩, fun d => ⟨inTokenOf_end d, rfl⟩, fun _ _ _ hact => step_act hact⟩

end Sys2Proof.Machine
end

section
/-! PROOFS. The command byte (30_encoding.md R90 to R98): the decoder by its fields, decoding against encoding, the
rows of the opcode table, and what the write of a reserved byte does. -/

namespace Sys2Proof

/-! ### The decoder by its fields -/

/-- How many function codes of a major opcode are command bytes, counted from 0 (R92, R96). -/
def groupSize : Nat → Nat
  | 0 => 2
  | 1 => 8
  | 2 => 16
  | 3 => 4
  | 4 => 2
  | 5 => 4
  | 6 => 4
  | _ => 0

/-- What decoding the function code `f` of the major opcode `m` may give: below the size of the group a well-formed
command whose byte has these two fields, and `reserved` from there on. -/
def FieldsDecoded (m f : Nat) : Decoded → Prop
  | .command i => f < groupSize m ∧ i.wf = true ∧ (encode i).toNat = 16 * m + f
  | .reserved => groupSize m ≤ f

theorem decodeControl_fields : ∀ f, FieldsDecoded 0 f (decodeControl f)
  | 0 | 1 => ⟨by decide, rfl, rfl⟩
  | f + 2 => Nat.le_add_left 2 f

theorem decodeNybble_fields : ∀ f, FieldsDecoded 3 f (decodeNybble f)
  | 0 | 1 | 2 | 3 => ⟨by decide, rfl, rfl⟩
  | f + 4 => Nat.le_add_left 4 f

theorem decodeTranscoder_fields : ∀ f, FieldsDecoded 4 f (decodeTranscoder f)
  | 0 | 1 => ⟨by decide, rfl, rfl⟩
  | f + 2 => Nat.le_add_left 2 f

theorem decodeChecksum_fields : ∀ f, FieldsDecoded 5 f (decodeChecksum f)
  | 0 | 1 | 2 | 3 => ⟨by decide, rfl, rfl⟩
  | f + 4 => Nat.le_add_left 4 f

theorem decodeFramer_fields : ∀ f, FieldsDecoded 6 f (decodeFramer f)
  | 0 | 1 | 2 | 3 => ⟨by decide, rfl, rfl⟩
  | f + 4 => Nat.le_add_left 4 f

theorem toNat_encode_bit {i : Nat} (h : i < 8) : (encode (.bit i)).toNat = 16 + i := by
  interval_cases i <;> rfl

theorem toNat_encode_wbit {i : Nat} (h : i < 8) (v : Bool) :
    (encode (.wbit i v)).toNat = 32 + 8 * v.toNat + i := by
  interval_cases i <;> cases v <;> rfl

/-- The function field of format I is the bit value over the bit index (R93). -/
theorem functionField_eq (c : Byte) : functionField c = 8 * (bitValueField c).toNat + bitIndexField c := by
  decide +revert

theorem toNat_eq_fields (c : Byte) : c.toNat = 16 * majorOpcode c + functionField c :=
  (Nat.div_add_mod c.toNat 16).symm

theorem decode_fields (c : Byte) : FieldsDecoded (majorOpcode c) (functionField c) (decode c) := by
  have hf := functionField_eq c
  have hi := bitIndexField_lt c
  unfold decode
  split
  case h_1 hm => exact hm ▸ decodeControl_fields _
  case h_2 hm =>
    rw [hm, hf]
    cases bitValueField c
    · exact ⟨by simpa [groupSize] using hi, decide_eq_true hi, by simp [toNat_encode_bit hi]⟩
    · exact Nat.le_add_right 8 _
  case h_3 hm =>
    rw [hm, hf]
    refine ⟨?_, decide_eq_true hi, ?_⟩
    · have hv := Bool.toNat_le (bitValueField c)
      simp only [groupSize]
      omega
    · rw [toNat_encode_wbit hi, Nat.add_assoc]
  case h_4 hm => exact hm ▸ decodeNybble_fields _
  case h_5 hm => exact hm ▸ decodeTranscoder_fields _
  case h_6 hm => exact hm ▸ decodeChecksum_fields _
  case h_7 hm => exact hm ▸ decodeFramer_fields _
  case h_8 =>
    have hsize : groupSize (majorOpcode c) = 0 := by
      unfold groupSize
      split <;> trivial
    exact hsize.trans_le (Nat.zero_le _)

/-- A byte is reserved exactly when its function field lies above its group's command bytes (R92, R97). -/
theorem decode_reserved_iff (c : Byte) : decode c = .reserved ↔ groupSize (majorOpcode c) ≤ functionField c := by
  have h := decode_fields c
  cases hd : decode c with
  | command i => rw [hd] at h; simpa using h.1
  | reserved => rw [hd] at h; exact iff_of_true rfl h

/-! ### Decoding and encoding -/

theorem encode_decode {c : Byte} {i : Instr} (h : decode c = .command i) : i.wf = true ∧ encode i = c := by
  have hc := decode_fields c
  rw [h] at hc
  obtain ⟨-, hwf, hbyte⟩ := hc
  exact ⟨hwf, BitVec.eq_of_toNat_eq (hbyte.trans (toNat_eq_fields c).symm)⟩

theorem decode_encode_bit {i : Nat} (h : i < 8) : decode (encode (.bit i)) = .command (.bit i) := by
  interval_cases i <;> rfl

theorem decode_encode_wbit {i : Nat} (h : i < 8) (v : Bool) :
    decode (encode (.wbit i v)) = .command (.wbit i v) := by
  interval_cases i <;> cases v <;> rfl

theorem decode_encode {i : Instr} (h : i.wf = true) : decode (encode i) = .command i := by
  cases i with
  | bit i => exact decode_encode_bit (of_decide_eq_true h)
  | wbit i v => exact decode_encode_wbit (of_decide_eq_true h) v
  | nop | clr | nyb | bfn | tos | frs => rfl
  | _ => exact Machine.decode_encode_stream rfl

/-- Settles O3: back from a byte by its two fields, which the encoder of a command writes. -/
theorem decodeEncodeAgree : Obligations.DecodeEncodeAgree :=
  ⟨fun _ => decode_encode, fun _ _ => encode_decode⟩

/-! ### The opcode table -/

theorem rowPattern (i : Instr) : Laws.RowPattern.Statement i := by
  open Laws.RowPattern in
  cases i with
  | nop => exact nop
  | clr => exact clr
  | bit i => exact bit i
  | wbit i v => exact wbit i v
  | nyb => exact nyb
  | bfn => exact bfn
  | tos => exact tos
  | frs => exact frs
  | exp => exact exp
  | col => exact col
  | ckc => exact ckc
  | ckv => exact ckv
  | ckt => exact ckt
  | cka => exact cka
  | spl => exact spl
  | phd => exact phd
  | str => exact str
  | att => exact att

/-- No row of the opcode table matches a reserved byte (R96, R97). -/
theorem rowsMatching_reserved {c : Byte} (h : decode c = .reserved) : rowsMatching c = [] := by
  decide +revert

/-- Settles O1: a command's byte is the one its row matches, and no row matches a reserved byte. -/
theorem decoderFollowsOpcodeTable : Obligations.DecoderFollowsOpcodeTable := by
  intro c
  cases hd : decode c with
  | command i =>
    obtain ⟨hwf, rfl⟩ := encode_decode hd
    exact rowPattern i hwf
  | reserved => rw [rowsMatching_reserved hd]; rfl

/-- Settles O2: each word is the encoder's byte of its command, and the last two lie above their groups. -/
theorem tableWordsDecode : Obligations.TableWordsDecode :=
  ⟨decode_nop, decode_clr, decode_encode (i := .bit 3) rfl, decode_encode (i := .wbit 7 true) rfl,
    decode_encode (i := .wbit 7 false) rfl, decode_tos, decode_col, decode_ckt, decode_str,
    (decode_reserved_iff _).mpr (by decide), (decode_reserved_iff _).mpr (by decide)⟩

/-! ### Reserved bytes -/

/-- The bytes above the command bytes of their group, as the seven ranges of R97. -/
theorem groupSize_le_iff (c : Byte) : groupSize (majorOpcode c) ≤ functionField c ↔
    (0x02 ≤ c.toNat ∧ c.toNat ≤ 0x0F) ∨ (0x18 ≤ c.toNat ∧ c.toNat ≤ 0x1F) ∨
    (0x34 ≤ c.toNat ∧ c.toNat ≤ 0x3F) ∨ (0x42 ≤ c.toNat ∧ c.toNat ≤ 0x4F) ∨
    (0x54 ≤ c.toNat ∧ c.toNat ≤ 0x5F) ∨ (0x64 ≤ c.toNat ∧ c.toNat ≤ 0x6F) ∨
    (0x70 ≤ c.toNat ∧ c.toNat ≤ 0xFF) := by
  decide +revert

open Machine in
theorem writePort_reserved_byte {c : Byte} (h : decode c = .reserved) (s : State) :
    writePort 0x00 c s = .next (rejectReserved s) := by
  simp only [writePort_cmd, writeCmd, h]

/-- Settles O4: the ranges by the sizes of the groups, the two rejections by the test of `BUSY`. -/
theorem reservedBytesRejected : Obligations.ReservedBytesRejected := by
  refine ⟨fun c => (decode_reserved_iff c).trans (groupSize_le_iff c), fun c s hc hs => ?_, fun c s hc hs => ?_⟩
  · rw [writePort_reserved_byte hc, Machine.rejectReserved, if_neg (Bool.eq_false_iff.mp hs)]
    rfl
  · rw [writePort_reserved_byte hc, Machine.rejectReserved, if_pos (Bool.eq_true_of_not_eq_false hs)]
    rfl

end Sys2Proof
end

section
/-! PROOFS. What a consumer keeps of a writing command's output (30_encoding.md R105): the tokens that a whole `EXP`,
`COL`, `SPL`, `STR`, `ATT` or `CKA` appends to the output queue, and the buffers in them. -/

namespace Sys2Proof.Machine

/-! ### Buffers -/

/-- A closed buffer of code `0x00` or `0x01` delivers its bytes (R105). -/
theorem deliver_kept (y : List Byte) {code : Byte} (h : code = 0x00 ∨ code = 0x01) :
    deliver (y.map .B ++ [.EOS code]) = [y] :=
  deliverFrom_kept [] y code h []

/-- A buffer closed by any other code is void (R105). -/
theorem deliver_void (y : List Byte) {code : Byte} (h0 : code ≠ 0x00) (h1 : code ≠ 0x01) :
    deliver (y.map .B ++ [.EOS code]) = [] :=
  deliverFrom_void [] y code h0 h1

/-- Closed segments deliver themselves (R105, 42_message_framer.md R168). -/
theorem deliver_segmentTokens (gs : List (List Byte)) : deliver (segmentTokens gs) = gs := by
  induction gs with
  | nil => rfl
  | cons g gs ih =>
    have hfirst := deliverFrom_kept [] g 0x00 (.inl rfl) (segmentTokens gs)
    rw [List.nil_append, show deliverFrom [] (segmentTokens gs) = gs from ih] at hfirst
    simpa [deliver, segmentTokens] using hfirst

/-! ### The data bytes of `STR` -/

/-- What `STR` emits of a message that has a header: the payload of a patch message, and any other message whole
(42_message_framer.md R172). -/
def routed (P : Params) (m : List Byte) : List Byte :=
  if carriesPatch P (headerOf m) then m.drop P.headerLen else m

/-- `strip` of a message that has a header, by its route (42_message_framer.md R166). -/
theorem strip_of_header {P : Params} {m : List Byte} (hm : P.msgMin ≤ m.length) :
    strip P m = .ok (if carriesPatch P (headerOf m) then .patch (headerOf m) (routed P m)
      else .pass (headerOf m) (routed P m)) := by
  have hp : parseHeader P m = .ok (headerOf m) := if_neg (Nat.not_lt.mpr hm)
  simp only [strip, hp, routed]
  split <;> rfl

/-- Bytes behind the header do not change the route. -/
theorem routed_append {P : Params} (hfits : P.Fits) {m : List Byte} (hm : m.length = P.msgMin) (p : List Byte) :
    headerOf (m ++ p) = headerOf m ∧ routed P (m ++ p) = routed P m ++ p := by
  have h8 := eight_le_msgMin hfits
  have hlen : P.headerLen ≤ m.length := hm ▸ hfits.2
  have hhead : headerOf (m ++ p) = headerOf m :=
    headerOf_congr fun k hk => List.getD_append _ _ _ _ (by omega)
  refine ⟨hhead, ?_⟩
  rw [routed, routed, hhead, List.drop_append_of_le_length hlen]
  split <;> rfl

/-- What `STR` leaves of a message `m` that has a header, before the end mark: it is routed and counted, its header
committed (42_message_framer.md R170, R172). -/
structure Routed (m : List Byte) (s t : State) : Prop where
  oq : t.oq = s.oq ++ (routed s.params m).map .B
  hpos : t.latch.hpos = s.params.msgMin
  pass : t.latch.pass = !carriesPatch s.params (headerOf m)
  regs : t.regs = { s.regs with
    hdr := headerOf m
    stat.hdrv := true
    icnt := s.regs.icnt + BitVec.ofNat 16 m.length
    ocnt := s.regs.ocnt + BitVec.ofNat 16 (routed s.params m).length }
  host : t.host = s.host
  segOpen : t.latch.segOpen = s.latch.segOpen

/-- `STR` on the first `MSG_MIN` bytes: the last of them decides the route (42_message_framer.md R172). -/
theorem acceptTokens_str_header {m : List Byte} {s : State} (hc : s.regs.cmd = 0x62) (hpos : s.latch.hpos = 0)
    (hfits : s.params.Fits) (hm : m.length = s.params.msgMin) :
    ∃ t, acceptTokens (m.map .B) s = .next t ∧ Routed m s t := by
  have h8 := eight_le_msgMin hfits
  obtain rfl | ⟨z, b, rfl⟩ := List.eq_nil_or_concat m
  · rw [List.length_nil] at hm; omega
  rw [List.concat_eq_append, List.length_append, List.length_singleton] at hm
  obtain ⟨u, hu, hfill, hpar, hoq, hregs, hhost, hseg, -⟩ :=
    acceptTokens_str_short z s [] hc (.start hpos) (by rw [List.length_nil]; omega)
  have hcmd : u.regs.cmd = 0x62 := by rw [hregs]; exact hc
  have hcommit := tokenStr_commit (m := z) hfill (hpar ▸ hm) (hpar ▸ h8) b
  rw [hpar] at hcommit
  refine ⟨tokenStr (.B b) u, ?_, ?_⟩
  · rw [List.concat_eq_append, List.map_append, acceptTokens_append_next hu]
    exact (acceptTokens_one _ _).trans (acceptToken_str hcmd _)
  rw [hcommit, List.concat_eq_append]
  constructor
  case oq => rw [routed, ← hoq]
  case hpos => rw [← hm]; exact congrArg (· + 1) hfill.1
  case pass => rfl
  case regs =>
    have hicnt := BitVec.add_assoc s.regs.icnt (BitVec.ofNat 16 z.length) 1#16
    simp [hregs, routed, BitVec.ofNat_add, hicnt]
  case host => exact hhost
  case segOpen => exact hseg

/-- `STR` on `MSG_MIN` bytes or more: the route is decided by the first of them, the others follow. -/
theorem acceptTokens_str_long {x : List Byte} {s : State} (hc : s.regs.cmd = 0x62) (hpos : s.latch.hpos = 0)
    (hfits : s.params.Fits) (hx : s.params.msgMin ≤ x.length) :
    ∃ t, acceptTokens (x.map .B) s = .next t ∧ Routed x s t := by
  obtain ⟨m, p, rfl, hm⟩ : ∃ m p, x = m ++ p ∧ m.length = s.params.msgMin :=
    ⟨_, _, (List.take_append_drop s.params.msgMin x).symm, List.length_take_of_le hx⟩
  obtain ⟨hhead, hrouted⟩ := routed_append hfits hm p
  obtain ⟨u, hu, hr⟩ := acceptTokens_str_header hc hpos hfits hm
  have hpar : u.params = s.params := acceptTokens_params hu
  have hp := acceptTokens_str_payload p u (by rw [hr.regs]; exact hc) (hpar ▸ hr.hpos.ge)
  have hall : acceptTokens ((m ++ p).map .B) s = acceptTokens (p.map .B) u := by
    rw [List.map_append, acceptTokens_append_next hu]
  refine ⟨_, hall.trans hp, ?_⟩
  constructor
  case oq => simp [hr.oq, hrouted]
  case hpos => exact hr.hpos
  case pass => exact hhead ▸ hr.pass
  case regs => simp [hr.regs, hrouted, hhead, BitVec.ofNat_add, BitVec.add_assoc]
  case host => exact hr.host
  case segOpen => exact hr.segOpen

/-! ### Whole commands -/

/-- The whole command `i` on the bytes `x` completes and appends the tokens `e` to the output queue. -/
def Writes (i : Instr) (x : List Byte) (s : State) (e : List OutToken) : Prop :=
  ∃ t, runCommand i x s = .next t ∧ t.oq = s.oq ++ e

theorem Writes.delivers {i : Instr} {x : List Byte} {s : State} {e : List OutToken} {bs : List (List Byte)}
    (h : Writes i x s e) (hd : deliver e = bs) :
    ∃ t e, runCommand i x s = .next t ∧ t.oq = s.oq ++ e ∧ deliver e = bs := by
  obtain ⟨t, ht, hoq⟩ := h
  exact ⟨t, e, ht, hoq, hd⟩

/-- A command by its parts: acceptance, data bytes, end mark. -/
theorem Writes.of_parts {i : Instr} {x : List Byte} {s u v w : State} {e : List OutToken} (hu : exec i s = .next u)
    (hv : acceptTokens (x.map .B) u = .next v) (hw : acceptToken .EOS v = .next w) (hoq : w.oq = s.oq ++ e) :
    Writes i x s e :=
  ⟨w, (runCommand_eq hu hv).trans hw, hoq⟩

theorem raiseFatal_oq_open (e : Event) {s : State} (h : s.latch.segOpen = true) :
    (raiseFatal e s).oq = s.oq ++ [.EOS (causeCode e)] := by
  rw [raiseFatal_eq, h]
  rfl

section
variable {s : State} (h : s.Idle)
include h

theorem writes_exp (x : List Byte) : Writes .exp x s ((expand x).map .B ++ [.EOS 0x00]) := by
  obtain ⟨u, hu, hst⟩ := exec_stream (i := .exp) rfl h
  refine .of_parts hu (acceptTokens_exp x u hst.accepted.cmd) (acceptToken_exp (by exact hst.accepted.cmd) _) ?_
  simp [tokenExp, hst.oq, codeOk]

/-- `COL` on an even number of bytes (41_two_nybble_transcoder.md R145). -/
theorem writes_col_ok {x y : List Byte} (hy : collapse x = .ok y) :
    Writes .col x s (y.map .B ++ [.EOS 0x00]) := by
  obtain ⟨u, hu, hst⟩ := exec_stream (i := .col) rfl h
  obtain ⟨v, z, hv, hoq, -, hz, -, hregs, -, -, hval⟩ := acceptTokens_col x u hst.accepted.cmd hst.holdValid
  have heven : v.latch.holdValid = false := by
    rcases collapse_cases x with ⟨hlen, -⟩ | ⟨-, he⟩
    · simp [hval, hlen]
    · cases hy.symm.trans he
  refine .of_parts hu hv (acceptToken_col (by rw [hregs]; exact hst.accepted.cmd) _) ?_
  simp [tokenCol, heven, hoq, hst.oq, codeOk, hz y hy]

/-- `COL` on an odd number of bytes: the open buffer is closed by LENGTH (41_two_nybble_transcoder.md R145). -/
theorem writes_col_error {x : List Byte} {e : CodecError} (he : collapse x = .error e) :
    ∃ z : List Byte, Writes .col x s (z.map .B ++ [.EOS 0x12]) := by
  obtain ⟨u, hu, hst⟩ := exec_stream (i := .col) rfl h
  obtain ⟨v, z, hv, hoq, -, -, -, hregs, -, hseg, hval⟩ := acceptTokens_col x u hst.accepted.cmd hst.holdValid
  have hodd : v.latch.holdValid = true := by
    rcases collapse_cases x with ⟨-, y, hy, -⟩ | ⟨hlen, -⟩
    · cases he.symm.trans hy
    · simp [hval, hlen]
  refine ⟨z, .of_parts hu hv (acceptToken_col (by rw [hregs]; exact hst.accepted.cmd) _) ?_⟩
  simp only [tokenCol, hodd, if_true]
  rw [raiseFatal_oq_open _ (hseg.trans (hst.opens (by simp [opensAtStart]))), hoq, hst.oq]
  simp [causeCode]

theorem writes_spl (x : List Byte) : Writes .spl x s (segmentTokens (split x s.regs.term)) := by
  obtain ⟨u, hu, hst⟩ := exec_stream (i := .spl) rfl h
  obtain ⟨t, e, ht, he, hoq, -⟩ := acceptTokens_spl x u [] hst.accepted.cmd (hst.closed (by simp [opensAtStart]))
  refine ⟨t, ?_, ?_⟩
  · simp only [runCommand, hu, ht]
  · have hterm : u.regs.term = s.regs.term := hst.accepted.term
    rw [hoq, hst.oq, split, ← hterm, he]
    simp

theorem writes_att (x : List Byte) :
    Writes .att x s ((attach s.params s.regs.hdr x).map .B ++ [.EOS 0x00]) := by
  obtain ⟨u, hu, hst⟩ := exec_stream (i := .att) rfl h
  refine .of_parts hu (acceptTokens_att x u hst.accepted.cmd) (acceptToken_att (by exact hst.accepted.cmd) _) ?_
  simp [tokenAtt, hst.oq, hst.accepted.params, attach, codeOk]

/-- `CKA` on an even number of bytes (43_checksum.md R200). -/
theorem writes_cka_even {x : List Byte} (hx : x.length % 2 = 0) :
    let c := s.params.cksConst - wordsum x
    Writes .cka x s ((x ++ [loByte c, hiByte c]).map .B ++ [.EOS 0x00]) := by
  obtain ⟨u, hu, hst⟩ := exec_stream (i := .cka) rfl h
  obtain ⟨v, hv, hfed, hoq, hregs, -⟩ :=
    acceptTokens_cka x u hst.accepted.cmd [] (.start hst.holdValid hst.sum)
  have hpar : v.params = s.params := (acceptTokens_params hv).trans hst.accepted.params
  have hval : v.latch.holdValid = false := by simp [hfed.odd, hx]
  have hsum : v.latch.sum = wordsum x := hfed.sum hx
  refine .of_parts hu hv (acceptToken_cka (by rw [hregs]; exact hst.accepted.cmd) _) ?_
  simp [tokenCka, hval, emitBytes_eq, finish, hsum, hpar, hoq, hst.oq, codeOk]

/-- `CKA` on an odd number of bytes: the copy is closed by ODDSPAN (43_checksum.md R200). -/
theorem writes_cka_odd {x : List Byte} (hx : x.length % 2 = 1) :
    Writes .cka x s (x.map .B ++ [.EOS 0x15]) := by
  obtain ⟨u, hu, hst⟩ := exec_stream (i := .cka) rfl h
  obtain ⟨v, hv, hfed, hoq, hregs, -, hseg⟩ :=
    acceptTokens_cka x u hst.accepted.cmd [] (.start hst.holdValid hst.sum)
  have hval : v.latch.holdValid = true := by simp [hfed.odd, hx]
  refine .of_parts hu hv (acceptToken_cka (by rw [hregs]; exact hst.accepted.cmd) _) ?_
  simp only [tokenCka, hval, if_true]
  rw [raiseFatal_oq_open _ (hseg.trans (hst.opens (by simp [opensAtStart]))), hoq, hst.oq]
  simp [causeCode]

/-- `STR` on fewer than `MSG_MIN` bytes emits the end mark of TRUNC alone (42_message_framer.md R172). -/
theorem writes_str_short {x : List Byte} (hx : x.length < s.params.msgMin) :
    Writes .str x s [.EOS 0x13] := by
  obtain ⟨u, hu, hst⟩ := exec_stream (i := .str) rfl h
  have hup : u.params = s.params := hst.accepted.params
  obtain ⟨v, hv, hfill, hpar, hoq, hregs, -, hseg, -⟩ :=
    acceptTokens_str_short x u [] hst.accepted.cmd (.start hst.hpos) (by simpa [hup] using hx)
  have hpos : v.latch.hpos < v.params.msgMin := by rw [hfill.1, hpar, hup]; exact hx
  refine .of_parts hu hv (acceptToken_str (by rw [hregs]; exact hst.accepted.cmd) _) ?_
  simp only [tokenStr, hpos, if_true]
  rw [raiseFatal_oq_open _ (hseg.trans (hst.opens (by simp [opensAtStart]))), hoq, hst.oq]
  simp [causeCode]

/-- `STR` on `MSG_MIN` bytes or more closes what it routes by its code (42_message_framer.md R172). -/
theorem writes_str_long {x : List Byte} (hfits : s.params.Fits) (hx : s.params.msgMin ≤ x.length) :
    Writes .str x s ((routed s.params x).map .B ++
      [.EOS (if carriesPatch s.params (headerOf x) then 0x00 else 0x01)]) := by
  obtain ⟨u, hu, hst⟩ := exec_stream (i := .str) rfl h
  have hup : u.params = s.params := hst.accepted.params
  obtain ⟨v, hv, hr⟩ := acceptTokens_str_long hst.accepted.cmd hst.hpos (hup ▸ hfits) (hup ▸ hx)
  have hvp : v.params = u.params := acceptTokens_params hv
  refine .of_parts hu hv (acceptToken_str (by rw [hr.regs]; exact hst.accepted.cmd) _) ?_
  have hfull : ¬ v.latch.hpos < v.params.msgMin := by rw [hr.hpos, hvp]; exact lt_irrefl _
  simp only [tokenStr, hfull, if_false, endCommand_oq, closeBuffer_oq, hr.oq, hr.pass, hst.oq, hup]
  cases carriesPatch s.params (headerOf x) <;> simp [codeOk, codePass]

end

/-- Settles O37: each command's tokens are one closed buffer, or `SPL`'s segments, and the buffer of a fault is void. -/
theorem consumerSeesPureFunctions : Obligations.ConsumerSeesPureFunctions := by
  intro s x h
  refine ⟨(writes_exp h x).delivers (deliver_kept _ (.inl rfl)), ?_,
    (writes_spl h x).delivers (deliver_segmentTokens _), fun hfits => ?_,
    (writes_att h x).delivers (deliver_kept _ (.inl rfl)), ?_⟩
  · cases hc : collapse x with
    | ok y => exact (writes_col_ok h hc).delivers (deliver_kept _ (.inl rfl))
    | error e =>
      obtain ⟨z, hz⟩ := writes_col_error h hc
      exact hz.delivers (deliver_void _ (by decide) (by decide))
  · rcases parseHeader_cases s.params x with ⟨hx, hp⟩ | ⟨hx, -⟩
    · simp only [strip, hp]
      exact (writes_str_short h hx).delivers rfl
    · rw [strip_of_header hx]
      refine (writes_str_long h hfits hx).delivers ?_
      cases carriesPatch s.params (headerOf x)
      · exact deliver_kept _ (.inr rfl)
      · exact deliver_kept _ (.inl rfl)
  · rcases Nat.mod_two_eq_zero_or_one x.length with hx | hx
    · simp only [appendChecksum, compute_even hx]
      exact (writes_cka_even h hx).delivers (deliver_kept _ (.inl rfl))
    · simp only [appendChecksum, compute_odd hx]
      exact (writes_cka_odd h hx).delivers (deliver_void _ (by decide) (by decide))

end Sys2Proof.Machine
end

section
/-! PROOFS. The bit, nybble and sign utilities (40_bit_nybble_utilities.md): the laws of their pure functions, what each
of the six commands does, and that the commands undo one another as their functions do. -/

namespace Sys2Proof.Machine

/-! ### Bits -/

theorem bitAt_of_lt {i : Nat} (h : i < 8) (b : Byte) : bitAt b i = b.getLsbD i := by
  rw [bitAt, Nat.mod_eq_of_lt h]

/-- `bit` by shift and mask (R122). -/
theorem bitAt_eq_shift_mask {i : Nat} (h : i < 8) (b : Byte) : bitAt b i = ((b >>> i) &&& 1#8 == 1#8) := by
  rw [bitAt_of_lt h, BitVec.and_one_eq_setWidth_ofBool_getLsbD, BitVec.getLsbD_ushiftRight, Nat.add_zero]
  cases b.getLsbD i <;> rfl

theorem withBit_true {i : Nat} (h : i < 8) (b : Byte) : withBit b i true = b ||| (1#8 <<< i) := by
  simp only [withBit, if_true, Nat.mod_eq_of_lt h]

theorem withBit_false {i : Nat} (h : i < 8) (b : Byte) : withBit b i false = b &&& ~~~(1#8 <<< i) := by
  simp only [withBit, Bool.false_eq_true, if_false, Nat.mod_eq_of_lt h]

theorem withBit_true_idem (b : Byte) (i : Nat) : withBit (withBit b i true) i true = withBit b i true := by
  simp only [withBit, if_true, BitVec.or_assoc, BitVec.or_self]

/-- `withBit` writes the one bit it names and no other (R123). -/
theorem bitAt_withBit {i j : Nat} (hi : i < 8) (hj : j < 8) (b : Byte) (v : Bool) :
    bitAt (withBit b i v) j = if j = i then v else bitAt b j := by
  have hmask : (1#8 <<< i).getLsbD j = decide (j = i) := by
    rw [← BitVec.twoPow_eq, BitVec.getLsbD_twoPow]
    simp [hi, eq_comm]
  rw [bitAt_of_lt hj, bitAt_of_lt hj]
  cases v with
  | true =>
    rw [withBit_true hi, BitVec.getLsbD_or, hmask]
    by_cases h : j = i <;> simp [h]
  | false =>
    rw [withBit_false hi, BitVec.getLsbD_and, BitVec.getLsbD_not, hmask]
    by_cases h : j = i <;> simp [h, hj]

theorem bitAt_withBit_same {i : Nat} (hi : i < 8) (b : Byte) (v : Bool) : bitAt (withBit b i v) i = v := by
  rw [bitAt_withBit hi hi, if_pos rfl]

theorem bitAt_withBit_other {i j : Nat} (hi : i < 8) (hj : j < 8) (hne : j ≠ i) (b : Byte) (v : Bool) :
    bitAt (withBit b i v) j = bitAt b j := by
  rw [bitAt_withBit hi hj, if_neg hne]

/-! ### Nybbles -/

theorem getLsbD_and_0x0F (b : Byte) (k : Nat) : (b &&& 0x0F).getLsbD k = (decide (k < 4) && b.getLsbD k) := by
  have hmask : (0x0F : Byte) = BitVec.setWidth 8 (BitVec.allOnes 4) := rfl
  rw [BitVec.getLsbD_and, hmask, BitVec.getLsbD_setWidth, BitVec.getLsbD_allOnes, Bool.and_comm]
  by_cases h : k < 4
  · simp [h, Nat.lt_trans h (by decide : 4 < 8)]
  · simp [h]

/-- The nybbles of a byte made of two operands are the operands' low halves (R124). -/
theorem nybbles_byteFromNybbles (h l : Byte) : nybbles (byteFromNybbles h l) = (h &&& 0x0F, l &&& 0x0F) := by
  have hhigh : byteFromNybbles h l >>> 4 = h &&& 0x0F := by
    apply BitVec.eq_of_getLsbD_eq
    intro k hk
    rw [BitVec.getLsbD_ushiftRight, byteFromNybbles, BitVec.getLsbD_or, BitVec.getLsbD_shiftLeft]
    simp only [getLsbD_and_0x0F]
    by_cases h4 : k < 4
    · have hk8 : 4 + k < 8 := by omega
      simp [h4, hk8]
    · simp [h4]
  have hlow : byteFromNybbles h l &&& 0x0F = l &&& 0x0F := by
    apply BitVec.eq_of_getLsbD_eq
    intro k hk
    rw [getLsbD_and_0x0F, byteFromNybbles, BitVec.getLsbD_or, BitVec.getLsbD_shiftLeft]
    simp only [getLsbD_and_0x0F]
    by_cases h4 : k < 4 <;> simp [h4]
  rw [nybbles, hhigh, hlow]

/-! ### Signs -/

theorem toSigned_of_le {b : Byte} (h : b.toNat ≤ 127) : toSigned b = b.toNat := by
  rw [toSigned, if_pos h]

theorem toSigned_of_ge {b : Byte} (h : 128 ≤ b.toNat) : toSigned b = (b.toNat : Int) - 256 := by
  rw [toSigned, if_neg (by omega)]

/-- `toSigned` is the two's-complement value of the byte (R125). -/
theorem toSigned_eq_toInt (b : Byte) : toSigned b = b.toInt := by
  rw [toSigned, BitVec.toInt_eq_toNat_cond]
  split <;> split <;> omega

theorem toSigned_range (b : Byte) : -128 ≤ toSigned b ∧ toSigned b ≤ 127 := by
  rw [toSigned_eq_toInt]
  exact ⟨BitVec.le_toInt b, Int.le_of_lt_add_one b.toInt_lt⟩

theorem toNat_fromSigned (n : Int) : ((fromSigned n).toNat : Int) = n % 256 := by
  rw [fromSigned, BitVec.toNat_ofInt]
  exact Int.toNat_of_nonneg (Int.emod_nonneg n (by decide))

theorem fromSigned_toSigned (b : Byte) : fromSigned (toSigned b) = b := by
  rw [toSigned_eq_toInt, fromSigned, BitVec.ofInt_toInt]

/-- On its range an integer is recovered from its byte (R125). -/
theorem toSigned_fromSigned {n : Int} (hlo : -128 ≤ n) (hhi : n ≤ 127) : toSigned (fromSigned n) = n := by
  rw [toSigned_eq_toInt, fromSigned, BitVec.toInt_ofInt]
  exact Int.bmod_eq_of_le hlo (Int.lt_add_one_of_le hhi)

/-- Reducing a 16-bit integer modulo 256 keeps its low byte (R131). -/
theorem fromSigned_toInt (w : Word) : fromSigned w.toInt = loByte w := by
  apply BitVec.eq_of_toInt_eq
  rw [fromSigned, loByte, BitVec.toInt_ofInt, BitVec.toInt_setWidth, BitVec.toInt_eq_toNat_bmod]
  exact Int.bmod_bmod_of_dvd (by decide)

theorem fromSigned_signedOperand (r : Regs) : fromSigned (signedOperand r) = r.opa := by
  rw [signedOperand, fromSigned_toInt, wordOf_lo]

theorem toNat_opa_eq_signedOperand_mod (r : Regs) : (r.opa.toNat : Int) = signedOperand r % 256 := by
  rw [← toNat_fromSigned, fromSigned_signedOperand]

/-- The upper byte of a sign extension repeats bit 7 (R130). -/
theorem signExtend_eq_wordOf (b : Byte) : b.signExtend 16 = wordOf (if bitAt b 7 then 0xFF else 0x00) b := by
  rw [BitVec.signExtend_eq_append_of_le (by decide)]
  rfl

theorem signExtend_toInt (b : Byte) : (b.signExtend 16).toInt = toSigned b := by
  rw [toSigned_eq_toInt, BitVec.toInt_signExtend_of_le (by decide)]

/-- Settles O23: bit by bit for `withBit` and the nybbles, by the two's-complement value for the signs. -/
theorem utilityFunctionLaws : Obligations.UtilityFunctionLaws :=
  ⟨fun b i v hi => ⟨bitAt_eq_shift_mask hi b, withBit_true hi b, withBit_false hi b, withBit_true_idem b i,
      bitAt_withBit_same hi b v, fun _ hj hne => bitAt_withBit_other hi hj hne b v⟩,
    fun b => ⟨rfl, (nybbles_le b).1, (nybbles_le b).2, byteFromNybbles_nybbles b⟩,
    fun h l => ⟨rfl, nybbles_byteFromNybbles h l⟩,
    fun b => ⟨toSigned_of_le, toSigned_of_ge, fromSigned_toSigned b, toSigned_range b⟩,
    fun n => ⟨toNat_fromSigned n, toSigned_fromSigned⟩⟩

/-! ### Commands -/

/-- The state a utility command leaves: its byte accepted and completed, and both results written
(44_control_and_system.md R216, 40_bit_nybble_utilities.md R121). -/
def utilityDone (i : Instr) (res0 res1 : Byte) (s : State) : State :=
  { s with
    regs.cmd := encode i
    regs.stat.done := true
    regs.stat.fail := false
    regs.res0 := res0
    regs.res1 := res1 }

theorem signedOperand_accept (c : Byte) (s : State) : signedOperand (accept c s).regs = signedOperand s.regs := by
  rw [signedOperand, signedOperand, accept_regs_opa, accept_regs_opb]

/-! The equation of each command in an idle block. -/

section
variable {s : State} (h : s.Idle)
include h

theorem exec_bit_idle (i : Nat) :
    exec (.bit i) s = .next (utilityDone (.bit i) (if bitAt s.regs.opa i then 0x01 else 0x00) 0x00 s) :=
  immediate_idle h _ _

theorem exec_wbit_idle (i : Nat) (v : Bool) :
    exec (.wbit i v) s = .next (utilityDone (.wbit i v) (withBit s.regs.opa i v) 0x00 s) :=
  immediate_idle h _ _

theorem exec_nyb_idle :
    exec .nyb s = .next (utilityDone .nyb (nybbles s.regs.opa).1 (nybbles s.regs.opa).2 s) :=
  immediate_idle h _ _

theorem exec_bfn_idle :
    exec .bfn s = .next (utilityDone .bfn (byteFromNybbles s.regs.opa s.regs.opb) 0x00 s) :=
  immediate_idle h _ _

theorem exec_tos_idle :
    exec .tos s = .next (utilityDone .tos s.regs.opa (if bitAt s.regs.opa 7 then 0xFF else 0x00) s) :=
  immediate_idle h _ _

theorem exec_frs_idle :
    exec .frs s = .next (utilityDone .frs (fromSigned (signedOperand s.regs)) 0x00 s) := by
  simp only [exec, execFrs, immediate_idle h, signedOperand_accept]
  rfl

end

theorem encode_bit {i : Nat} (h : i < 8) : encode (.bit i) = BitVec.ofNat 8 (0x10 + i) := by
  rw [← toNat_encode_bit h, BitVec.ofNat_toNat, BitVec.setWidth_eq]

theorem encode_wbit {i : Nat} (h : i < 8) (v : Bool) :
    encode (.wbit i v) = BitVec.ofNat 8 (0x20 + 8 * v.toNat + i) := by
  rw [← toNat_encode_wbit h, BitVec.ofNat_toNat, BitVec.setWidth_eq]

/-- Settles O19: the two command equations, with the bit and the byte of an index below 8. -/
theorem bitCommandResults : Obligations.BitCommandResults := by
  intro s i hi h
  refine ⟨?_, fun v => ?_⟩
  · rw [exec_bit_idle h, utilityDone, encode_bit hi, bitAt_of_lt hi]
  · rw [exec_wbit_idle h, utilityDone, encode_wbit hi]
    cases v
    · rw [withBit_false hi]
      rfl
    · rw [withBit_true hi]
      rfl

/-- Settles O20: the two command equations, whose functions are the formulas. -/
theorem nybbleCommandResults : Obligations.NybbleCommandResults :=
  fun _ h => ⟨exec_nyb_idle h, exec_bfn_idle h⟩

/-- Settles O21: `TOS` writes the two bytes of the sign extension, `FRS` the low byte of its operand. -/
theorem signCommandResults : Obligations.SignCommandResults := by
  intro s h
  have hlo : (s.regs.opa.signExtend 16).extractLsb' 0 8 = s.regs.opa := by
    rw [signExtend_eq_wordOf]
    exact wordOf_lo _ _
  have hhi : (s.regs.opa.signExtend 16).extractLsb' 8 8 = if bitAt s.regs.opa 7 then 0xFF else 0x00 := by
    rw [signExtend_eq_wordOf]
    exact wordOf_hi _ _
  refine ⟨?_, signExtend_toInt _, ?_, toNat_opa_eq_signedOperand_mod s.regs⟩
  · rw [exec_tos_idle h, hlo, hhi]
    rfl
  · rw [exec_frs_idle h, fromSigned_signedOperand]
    rfl

/-! ### Round trips -/

/-- Settles O22: the second command of each pair finds the block idle and inverts the function of the first. -/
theorem utilityRoundTrips : Obligations.UtilityRoundTrips := by
  intro s h
  refine ⟨⟨_, _, exec_tos_idle h, exec_frs_idle h, fromSigned_signedOperand _⟩,
    ⟨_, _, exec_nyb_idle h, exec_bfn_idle h, byteFromNybbles_nybbles _⟩, fun hlo hhi => ?_⟩
  refine ⟨_, _, exec_frs_idle h, exec_tos_idle h, ?_⟩
  calc (wordOf (if bitAt (fromSigned (signedOperand s.regs)) 7 then 0xFF else 0x00)
        (fromSigned (signedOperand s.regs))).toInt
    _ = toSigned (fromSigned (signedOperand s.regs)) := by rw [← signExtend_eq_wordOf, signExtend_toInt]
    _ = signedOperand s.regs := toSigned_fromSigned hlo hhi

end Sys2Proof.Machine
end

section
/-! PROOFS. The two-nybble transcoder (41_two_nybble_transcoder.md): the laws of `expand` and `collapse`, the contracts
of `EXP` and `COL` over whole buffers, and that `COL` undoes `EXP`. -/

namespace Sys2Proof.Machine

/-! ### The pure functions -/

/-- The inverse law of the transcoder (41_two_nybble_transcoder.md R146). -/
theorem collapse_expand (x : List Byte) : collapse (expand x) = .ok x := by
  induction x with
  | nil => rfl
  | cons b x ih =>
    rw [expand, collapse_pair, ih, byteFromNybbles_nybbles]
    rfl

/-- `expand` gives nybble values only (R141). -/
theorem toNat_le_of_mem_expand {x : List Byte} {b : Byte} (hb : b ∈ expand x) : b.toNat ≤ 15 := by
  induction x with
  | nil => cases hb
  | cons a x ih =>
    obtain ⟨hhigh, hlow⟩ := nybbles_le a
    rcases hb with _ | ⟨_, _ | ⟨_, hb⟩⟩
    · exact hhigh
    · exact hlow
    · exact ih hb

/-- `expand` by offset (R140); past the end both sides read 0. -/
theorem getD_expand : ∀ (x : List Byte) (k : Nat),
    (expand x).getD (2 * k) 0 = x.getD k 0 >>> 4 ∧ (expand x).getD (2 * k + 1) 0 = x.getD k 0 &&& 0x0F
  | [], k => by simp [expand]
  | _ :: _, 0 => ⟨rfl, rfl⟩
  | _ :: x, k + 1 => getD_expand x k

/-- What a successful `collapse` of a list with one more byte pair at its front gives. -/
theorem collapse_pair_ok {h l : Byte} {y x : List Byte} (hx : collapse (h :: l :: y) = .ok x) :
    ∃ z, collapse y = .ok z ∧ x = byteFromNybbles h l :: z := by
  rw [collapse_pair] at hx
  cases hy : collapse y with
  | error e => rw [hy] at hx; cases hx
  | ok z => rw [hy] at hx; cases hx; exact ⟨z, rfl, rfl⟩

/-- `expand` undoes `collapse` but for the high halves, which `collapse` masks off (R143). -/
theorem expand_of_collapse : ∀ {y x : List Byte}, collapse y = .ok x → expand x = y.map (· &&& 0x0F)
  | [], _, hx => by cases hx; rfl
  | [_], _, hx => by cases hx
  | h :: l :: y, _, hx => by
    obtain ⟨z, hz, rfl⟩ := collapse_pair_ok hx
    rw [expand, nybbles_byteFromNybbles, expand_of_collapse hz]
    rfl

/-- `collapse` by offset (R142); past the end both sides read 0. -/
theorem getD_of_collapse : ∀ {y x : List Byte}, collapse y = .ok x → ∀ k,
    x.getD k 0 = byteFromNybbles (y.getD (2 * k) 0) (y.getD (2 * k + 1) 0)
  | [], _, hx, k => by cases hx; simp [byteFromNybbles]
  | [_], _, hx, _ => by cases hx
  | h :: l :: y, _, hx, k => by
    obtain ⟨z, hz, rfl⟩ := collapse_pair_ok hx
    cases k with
    | zero => rfl
    | succ k => exact getD_of_collapse hz k

/-- Settles O42: the laws of `expand` and `collapse`, with `collapse`'s failure from the parity of the length. -/
theorem transcoderLaws : Obligations.TranscoderLaws := by
  refine ⟨fun x => ⟨collapse_expand x, length_expand x, fun _ => toNat_le_of_mem_expand, fun k _ => getD_expand x k⟩,
    fun y => ?_⟩
  rcases collapse_cases y with ⟨heven, x, hx, hlen⟩ | ⟨hodd, he⟩
  · exact ⟨fun h => by omega, fun _ => ⟨x, hx, hlen, expand_of_collapse hx, fun k _ => getD_of_collapse hx k⟩⟩
  · exact ⟨fun _ => he, fun h => by omega⟩

/-! ### Whole commands -/

section
variable {s : State} (h : s.Idle)
include h

/-- Acceptance of `EXP` (R144, 44_control_and_system.md R219). -/
theorem exec_exp_idle : exec .exp s = .next (streamStarted 0x40 true s) := startStream_idle h _ _ _

/-- Acceptance of `COL` (R145, 44_control_and_system.md R219). -/
theorem exec_col_idle : exec .col s = .next (streamStarted 0x41 true s) := startStream_idle h _ _ _

end

/-- Settles O27: the data bytes by `acceptTokens_exp`, then the end mark, which closes the buffer. -/
theorem expandContract : Obligations.ExpandContract := by
  intro s x h
  have hrun : runCommand .exp x s = .next _ :=
    (runCommand_eq (exec_exp_idle h) (acceptTokens_exp x _ rfl)).trans (acceptToken_exp rfl .EOS)
  refine ⟨_, hrun, rfl, ?_, rfl, rfl⟩
  simp [tokenExp, endCommand, streamStarted, regsEnded]

/-- The end mark of `COL` with no byte held: the good end (R145). -/
theorem tokenCol_eos_empty {s : State} (hv : s.latch.holdValid = false) :
    tokenCol .EOS s = endCommand (closeBuffer codeOk s) := by
  simp [tokenCol, hv]

/-- The end mark of `COL` with a byte held: the fault LENGTH (R145). -/
theorem tokenCol_eos_held {s : State} (hv : s.latch.holdValid = true) :
    tokenCol .EOS s = raiseFatal .length s := by
  simp [tokenCol, hv]

/-- Settles O28: a byte is held at the end mark exactly when the length is odd, and then `collapse` fails too. -/
theorem collapseContract : Obligations.CollapseContract := by
  intro s y h
  obtain ⟨v, x, hv, hoq, -, hok, hpairs, hregs, hhost, hopen, hval⟩ :=
    acceptTokens_col y (streamStarted 0x41 true s) rfl rfl
  have hrun : runCommand .col y s = .next (tokenCol .EOS v) :=
    (runCommand_eq (exec_col_idle h) hv).trans (acceptToken_col (by rw [hregs]; rfl) _)
  rcases collapse_cases y with ⟨heven, z, hz, -⟩ | ⟨hodd, he⟩
  · rw [tokenCol_eos_empty (by simp [hval, heven])] at hrun
    refine ⟨_, hrun, hhost, rfl, fun w hw => ⟨?_, ?_⟩, fun e he => by cases hz.symm.trans he⟩
    · rw [hok w hw, endCommand_oq, closeBuffer_oq, hoq]
      rfl
    · simp [endCommand, hregs, streamStarted, regsEnded]
  · rw [tokenCol_eos_held (by simp [hval, hodd])] at hrun
    refine ⟨_, hrun, ?_, raiseFatal_latch_segOpen _ _, fun w hw => (by cases he.symm.trans hw), fun e _ => ⟨?_, ?_⟩⟩
    · rw [raiseFatal_eq]
      exact hhost
    · refine ⟨x, hpairs hodd, ?_, deliver_void x (by decide) (by decide)⟩
      rw [raiseFatal_oq_open _ hopen, hoq]
      rfl
    · simp [raiseFatal_eq, hregs, streamStarted, regsEnded, regsFaulted, errMask, errBit, causeCode]

/-- Settles O39: `EXP` emits `expand x` and leaves the block idle, so `COL` on it emits `collapse (expand x)`. -/
theorem collapseUndoesExpand : Obligations.CollapseUndoesExpand := by
  intro s x h
  obtain ⟨t, ht, htoq, htregs, -⟩ := expandContract s x h
  have hidle : t.Idle := by rw [State.Idle, htregs]; rfl
  obtain ⟨u, hu, -, -, hok, -⟩ := collapseContract t (expand x) hidle
  obtain ⟨huoq, huregs⟩ := hok x (collapse_expand x)
  exact ⟨t, expand x, u, ht, htoq, fun _ => toNat_le_of_mem_expand, hu, huoq, by rw [huregs]; rfl⟩

end Sys2Proof.Machine
end

section
/-! PROOFS. The header invariant (42_message_framer.md R169 to R173): it is kept by every step, and at the end of `STR`
it ties the closing code to the route. -/

namespace Sys2Proof.Machine

/-! ### The header engine -/

/-- What the header invariant says of the header engine's latches and registers while `PHD` or `STR` runs (R169,
R170). -/
structure EngineInv (s : State) : Prop where
  saturating : s.latch.hpos ≤ s.params.msgMin
  valid : s.regs.stat.hdrv = true ↔ s.latch.hpos = s.params.msgMin
  committed : s.latch.hpos = s.params.msgMin → s.regs.hdr = headerOf s.latch.hb

/-- What the header invariant says of the route of `STR` (R173). -/
structure RouteInv (s : State) : Prop where
  routed : s.latch.hpos = s.params.msgMin → s.latch.pass = !route s.params s.regs
  unrouted : s.latch.hpos ≠ s.params.msgMin → s.latch.pass = false

theorem State.HeaderInv.engine {s : State} (h : s.HeaderInv) (hr : s.Runs .phd ∨ s.Runs .str) : EngineInv s :=
  ⟨h.saturating, h.valid hr, h.committed hr⟩

theorem State.HeaderInv.route {s : State} (h : s.HeaderInv) (hr : s.Runs .str) : RouteInv s :=
  ⟨h.routed hr, h.unrouted hr⟩

/-- The header invariant, for a block that runs `PHD` or `STR`, by the engine and the route. -/
theorem EngineInv.headerInv {s : State} (h : EngineInv s) (hfits : s.params.Fits)
    (hroute : s.Runs .str → RouteInv s) : s.HeaderInv where
  fits := hfits
  saturating := h.saturating
  valid _ := h.valid
  committed _ := h.committed
  routed hr := (hroute hr).routed
  unrouted hr := (hroute hr).unrouted

/-- The engine on a byte before the last of the first `MSG_MIN`, on that byte, and on a later one (R169). -/
theorem headerEngine_cases (b : Byte) (s : State) :
    (s.latch.hpos + 1 < s.params.msgMin ∧ headerEngine b s = { s with
      latch.hb := place b s.latch.hpos s.latch.hb, latch.hpos := s.latch.hpos + 1 }) ∨
    (s.latch.hpos + 1 = s.params.msgMin ∧ headerEngine b s = commitHeader { s with
      latch.hb := place b s.latch.hpos s.latch.hb, latch.hpos := s.latch.hpos + 1 }) ∨
    (s.params.msgMin ≤ s.latch.hpos ∧ headerEngine b s = s) := by
  rcases lt_trichotomy (s.latch.hpos + 1) s.params.msgMin with hlt | heq | hgt
  · have hpos : s.latch.hpos < s.params.msgMin := by omega
    exact .inl ⟨hlt, by simp only [headerEngine, hpos, hlt.ne, if_true, if_false]⟩
  · have hpos : s.latch.hpos < s.params.msgMin := by omega
    exact .inr (.inl ⟨heq, by simp only [headerEngine, hpos, heq, if_true]⟩)
  · have hpos : s.params.msgMin ≤ s.latch.hpos := by omega
    exact .inr (.inr ⟨hpos, headerEngine_full hpos b⟩)

/-- One more byte: kept, committed, or payload (R169, R170). -/
theorem EngineInv.headerEngine {s : State} (h : EngineInv s) (b : Byte) : EngineInv (Machine.headerEngine b s) := by
  rcases headerEngine_cases b s with ⟨hlt, he⟩ | ⟨heq, he⟩ | ⟨_, he⟩ <;> rw [he]
  · have hvalid : s.regs.stat.hdrv ≠ true := fun hv => by have := h.valid.1 hv; omega
    exact ⟨hlt.le, ⟨fun hv => absurd hv hvalid, fun hp => absurd hp hlt.ne⟩, fun hp => absurd hp hlt.ne⟩
  · exact ⟨heq.le, ⟨fun _ => heq, fun _ => rfl⟩, fun _ => rfl⟩
  · exact h

/-- Counting and emitting do not touch the engine. -/
theorem EngineInv.congr {s t : State} (h : EngineInv s) (hparams : t.params = s.params)
    (hpos : t.latch.hpos = s.latch.hpos) (hhb : t.latch.hb = s.latch.hb)
    (hhdr : t.regs.hdr = s.regs.hdr) (hhdrv : t.regs.stat.hdrv = s.regs.stat.hdrv) : EngineInv t := by
  obtain ⟨hsat, hvalid, hcommitted⟩ := h
  constructor <;> simpa only [hparams, hpos, hhb, hhdr, hhdrv]

/-! ### Data bytes of `PHD` and `STR` -/

/-- `STR` on one of the first `MSG_MIN` bytes: the engine takes it, and the route is decided at the commit (R172). -/
theorem tokenStr_byte_before {s : State} (h : s.latch.hpos < s.params.msgMin) (b : Byte) :
    tokenStr (.B b) s =
      if (headerEngine b (countInput s)).latch.hpos = (headerEngine b (countInput s)).params.msgMin then
        routeMessage (headerEngine b (countInput s))
      else headerEngine b (countInput s) := if_pos h

/-- `STR` on a later byte: it is emitted (R172). -/
theorem tokenStr_byte_past {s : State} (h : s.params.msgMin ≤ s.latch.hpos) (b : Byte) :
    tokenStr (.B b) s = emitByte b (countInput s) := if_neg h.not_gt

theorem headerEngine_pass (b : Byte) (s : State) : (headerEngine b s).latch.pass = s.latch.pass := by
  rw [headerEngine_frame]

/-- A data byte of `PHD` goes to the header engine (R171). -/
theorem EngineInv.tokenPhd {s : State} (h : EngineInv s) (b : Byte) : EngineInv (Machine.tokenPhd (.B b) s) :=
  EngineInv.headerEngine (s := countInput s) (h.congr rfl rfl rfl rfl rfl) b

/-- The route decision in one record (R172). -/
theorem routeMessage_eq (s : State) :
    routeMessage s = { s with
      latch.pass := !carriesPatch s.params (headerOf s.latch.hb)
      oq := (routeMessage s).oq
      regs.ocnt := (routeMessage s).regs.ocnt } := by
  simp only [routeMessage, emitBytes_eq]

/-- A data byte of `STR`: the route is decided exactly when the header is committed (R172, R173). -/
theorem EngineInv.tokenStr {s : State} (h : EngineInv s) (hr : RouteInv s) (b : Byte) :
    EngineInv (Machine.tokenStr (.B b) s) ∧ RouteInv (Machine.tokenStr (.B b) s) := by
  rcases lt_or_ge s.latch.hpos s.params.msgMin with hlt | hfull
  · have hengine : EngineInv (Machine.headerEngine b (countInput s)) :=
      EngineInv.headerEngine (s := countInput s) (h.congr rfl rfl rfl rfl rfl) b
    have hpass := headerEngine_pass b (countInput s)
    rw [tokenStr_byte_before hlt]
    split
    · rename_i hcommit
      rw [routeMessage_eq]
      refine ⟨hengine.congr rfl rfl rfl rfl rfl, fun _ => ?_, fun hp => absurd hcommit hp⟩
      rw [route, hengine.committed hcommit]
    · rename_i hfill
      exact ⟨hengine, fun hp => absurd hp hfill, fun _ => hpass.trans (hr.unrouted hlt.ne)⟩
  · have hpos : s.latch.hpos = s.params.msgMin := le_antisymm h.saturating hfull
    rw [tokenStr_byte_past hfull]
    exact ⟨h.congr rfl rfl rfl rfl rfl, fun _ => hr.routed hpos, fun hp => absurd hpos hp⟩

/-! ### Every operation keeps the invariant -/

/-- Without `PHD` or `STR` running only the parameters and the bound of `s.hpos` are left of the invariant. -/
theorem State.HeaderInv.of_not_runs {s : State} (hphd : ¬ s.Runs .phd) (hstr : ¬ s.Runs .str)
    (hfits : s.params.Fits) (hpos : s.latch.hpos ≤ s.params.msgMin) : s.HeaderInv where
  fits := hfits
  saturating := hpos
  valid hr := (hr.elim hphd hstr).elim
  committed hr := (hr.elim hphd hstr).elim
  routed hr := (hstr hr).elim
  unrouted hr := (hstr hr).elim

/-- Whatever leaves the mode, the header registers and the latches of the header engine alone keeps the invariant. -/
theorem State.HeaderInv.keep {s t : State} (h : s.HeaderInv) (hparams : t.params = s.params)
    (hcmd : t.regs.cmd = s.regs.cmd) (hstat : t.regs.stat = s.regs.stat) (hhdr : t.regs.hdr = s.regs.hdr)
    (hlatch : t.latch = s.latch) : t.HeaderInv := by
  obtain ⟨hfits, hsat, hvalid, hcommitted, hrouted, hunrouted⟩ := h
  simp only [State.Runs] at hvalid hcommitted hrouted hunrouted
  constructor <;> simpa only [State.Runs, Machine.route, hparams, hcmd, hstat, hhdr, hlatch]

theorem State.HeaderInv.rejectReserved {s : State} (h : s.HeaderInv) : (Machine.rejectReserved s).HeaderInv := by
  unfold Machine.rejectReserved
  split <;> exact h.keep rfl rfl rfl rfl rfl

/-- A host write reaches the header registers while the block is idle only. -/
theorem State.HeaderInv.writeReg {s : State} (h : s.HeaderInv) (r : Reg) (v : Byte) :
    (Machine.writeReg r v s).HeaderInv := by
  unfold Machine.writeReg
  split
  · exact h.keep rfl rfl rfl rfl rfl
  · split
    · exact h.keep rfl rfl rfl rfl rfl
    · rename_i hbusy
      have hidle : ({ s with regs := storeReg v s.regs r } : State).Idle := by
        rw [State.Idle, storeReg_stat]
        exact Bool.eq_false_iff.2 hbusy
      exact hidle.headerInv h.fits h.saturating
  · exact h
  · exact h

theorem State.HeaderInv.outputTransfer {s : State} (h : s.HeaderInv) : (Machine.outputTransfer s).HeaderInv := by
  rcases outputTransfer_cases s with ⟨_, he⟩ | ⟨_, _, _, he⟩ <;> rw [he]
  · exact h
  · exact h.keep rfl rfl rfl rfl rfl

/-- A started stream command: no byte kept, no header committed, no route decided (44_control_and_system.md R219). -/
theorem Started.headerInv {i : Instr} {s t : State} (h : Started i s t) (hi : i.isStream = true)
    (hfits : t.params.Fits) : t.HeaderInv := by
  have hpos : t.latch.hpos ≠ t.params.msgMin := by
    have h8 := eight_le_msgMin hfits
    rw [h.hpos]
    omega
  have hrun {j : Instr} (hj : j.isStream = true) (hr : t.Runs j) : i = j :=
    encode_stream_injective hi hj (h.accepted.cmd.symm.trans hr.2)
  refine ⟨hfits, h.hpos ▸ Nat.zero_le _, fun hr => ?_, fun _ hp => absurd hp hpos, fun _ hp => absurd hp hpos,
    fun _ _ => h.pass⟩
  have hhdrv : t.regs.stat.hdrv = false := by rw [h.hdrv, if_pos (hr.imp (hrun rfl) (hrun rfl))]
  rw [hhdrv]
  exact ⟨fun hv => absurd hv Bool.false_ne_true, fun hp => absurd hp hpos⟩

/-- A command write: rejected, `CLR`, a finished immediate command, or a started stream command. -/
theorem State.HeaderInv.exec {s t : State} (h : s.HeaderInv) {i : Instr} (he : exec i s = .next t) :
    t.HeaderInv := by
  have hfits : t.params.Fits := (exec_params he).symm ▸ h.fits
  rcases exec_cases he with ⟨_, _, rfl⟩ | ⟨_, rfl⟩ | ⟨_, _, hidle, hf⟩ | ⟨hi, _, hs⟩
  · exact h.keep rfl rfl rfl rfl rfl
  · exact State.Idle.headerInv (Eq.refl false) hfits (Nat.zero_le _)
  · exact State.Idle.headerInv (hf.busy.trans hidle) hfits (by rw [hf.latch, hf.accepted.params]; exact h.saturating)
  · exact hs.headerInv hi hfits

/-- Only the bytes of `PHD` and `STR` move `s.hpos` (R169). -/
theorem acceptToken_byte_hpos {b : Byte} {s t : State} (h : acceptToken (.B b) s = .next t)
    (hphd : s.regs.cmd ≠ 0x61) (hstr : s.regs.cmd ≠ 0x62) : t.latch.hpos = s.latch.hpos := by
  rcases acceptToken_cases h with ⟨_, rfl⟩ | ⟨_, rfl⟩ | ⟨_, rfl⟩ | ⟨_, rfl⟩ | ⟨_, rfl⟩ | ⟨_, rfl⟩ |
    ⟨_, rfl⟩ | ⟨hc, _⟩ | ⟨hc, _⟩ | ⟨_, rfl⟩
  · rfl
  · simp only [tokenCol]
    split <;> rfl
  · simp only [tokenCkc, feed]
    split <;> rfl
  · simp only [tokenCkv, feed]
    split <;> rfl
  · simp only [tokenCkt, delayByte, feed]
    split_ifs <;> rfl
  · simp only [tokenCka, feed]
    split <;> rfl
  · simp only [tokenSpl]
    split_ifs <;> rfl
  · exact absurd hc hphd
  · exact absurd hc hstr
  · rfl

/-- An accepted data byte. -/
theorem State.HeaderInv.acceptByte {s t : State} {b : Byte} (h : s.HeaderInv) (hb : s.regs.stat.busy = true)
    (ht : acceptToken (.B b) s = .next t) : t.HeaderInv := by
  have k := acceptToken_byte ht
  have hfits : t.params.Fits := k.params.symm ▸ h.fits
  by_cases hphd : s.regs.cmd = 0x61
  · have hr : s.Runs .phd := ⟨hb, hphd⟩
    rw [acceptToken_phd hphd] at ht
    cases ht
    refine ((h.engine (.inl hr)).tokenPhd b).headerInv hfits fun hstr => ?_
    have hcmd := k.cmd.symm.trans hstr.2
    rw [hphd] at hcmd
    exact absurd hcmd (by decide)
  by_cases hstr : s.regs.cmd = 0x62
  · have hr : s.Runs .str := ⟨hb, hstr⟩
    rw [acceptToken_str hstr] at ht
    cases ht
    obtain ⟨hengine, hroute⟩ := (h.engine (.inr hr)).tokenStr (h.route hr) b
    exact hengine.headerInv hfits fun _ => hroute
  · refine .of_not_runs (fun hr => hphd (k.cmd.symm.trans hr.2)) (fun hr => hstr (k.cmd.symm.trans hr.2)) hfits ?_
    rw [acceptToken_byte_hpos ht hphd hstr, k.params]
    exact h.saturating

/-- An accepted token: a data byte, or an end mark, which leaves the block idle. -/
theorem State.HeaderInv.acceptToken {s t : State} {tok : InToken} (h : s.HeaderInv)
    (hb : s.regs.stat.busy = true) (ht : acceptToken tok s = .next t) : t.HeaderInv := by
  cases tok with
  | B b => exact h.acceptByte hb ht
  | EOS =>
    have k := acceptToken_eos ht
    exact State.Idle.headerInv k.busy (k.params.symm ▸ h.fits) (by rw [k.hpos, k.params]; exact h.saturating)

/-! ### One step -/

theorem State.HeaderInv.step {s t : State} (h : s.HeaderInv) (hst : step s = .next t) : t.HeaderInv := by
  have hhost (o : HostSide) : ({ s with host := o } : State).HeaderInv := h.keep rfl rfl rfl rfl rfl
  rcases step_cases hst with ⟨_, rfl⟩ | ⟨_, _, _, _, hb, ht⟩ | ⟨_, _, _, _, rfl, hc⟩
  · exact h
  · exact State.HeaderInv.acceptToken (hhost _) (by exact hb) ht
  · rcases hc with ⟨_, rfl⟩ | ⟨_, _, _, _, he⟩ | ⟨_, _, _, rfl⟩ | ⟨r, v, _, _, rfl⟩ | ⟨_, _, _, _, rfl⟩ |
      ⟨_, _, rfl⟩ | ⟨_, _, rfl⟩ | ⟨_, rfl⟩ | ⟨_, _, _, _, hb, ht⟩ | ⟨_, rfl⟩
    · exact State.Idle.headerInv (Eq.refl false) h.fits (Nat.zero_le _)
    · exact (hhost _).exec he
    · exact (hhost _).rejectReserved
    · exact (hhost _).writeReg r v
    · exact hhost _
    · exact hhost _
    · exact hhost _
    · exact hhost _
    · exact State.HeaderInv.acceptToken (hhost _) (by exact hb) ht
    · exact (hhost _).outputTransfer

/-- Settles O57: by the cases of `step`, each kept by the lemma of its operation. -/
theorem stepKeepsHeaderInvariant : Obligations.StepKeepsHeaderInvariant := fun _ _ h hst => h.step hst

/-! ### The end of `STR` -/

/-- The end mark of `STR` before the header commit: the fault TRUNC (R172). -/
theorem tokenStr_eos_short {s : State} (h : s.latch.hpos < s.params.msgMin) :
    tokenStr .EOS s = raiseFatal .trunc s := if_pos h

/-- The end mark of `STR` past the header commit: the good end, its code by `s.pass` (R172). -/
theorem tokenStr_eos_full {s : State} (h : s.params.msgMin ≤ s.latch.hpos) :
    tokenStr .EOS s = endCommand (closeBuffer (if s.latch.pass then codePass else codeOk) s) := if_neg h.not_gt

/-- Settles O54: past the commit the end mark closes the buffer by `s.pass`, which the invariant ties to the route. -/
theorem routeShownByStatus : Obligations.RouteShownByStatus := by
  intro s t h hr hpos ht
  have hpass := h.routed hr hpos
  have k := acceptToken_eos ht
  have hroute : route t.params t.regs = route s.params s.regs := by rw [route, route, k.params, k.hdr]
  rw [acceptToken_str hr.2, tokenStr_eos_full hpos.ge] at ht
  cases ht
  refine ⟨hroute.symm ▸ hpass, rfl, ?_⟩
  rw [hroute, endCommand_oq, closeBuffer_oq, hpass]
  cases route s.params s.regs <;> rfl

end Sys2Proof.Machine
end

section
/-! PROOFS. The pure functions of the framer (42_message_framer.md): the laws of `split`, of the header functions and
of `attach`, that `split` and `strip` undo `attach`, and the program number. -/

namespace Sys2Proof.Machine

/-! ### `split` -/

/-- Bytes other than the terminator extend the piece begun. -/
theorem splitFrom_append {t : Byte} {g : List Byte} (hg : t ∉ g) (piece x : List Byte) :
    splitFrom t piece (g ++ x) = splitFrom t (piece ++ g) x := by
  induction g generalizing piece with
  | nil => rw [List.nil_append, List.append_nil]
  | cons b g ih =>
    obtain ⟨hb, hg'⟩ := List.ne_and_not_mem_of_not_mem_cons hg
    rw [List.cons_append, splitFrom_byte (Ne.symm hb), ih hg', List.append_assoc, List.singleton_append]

/-- A non-empty input without terminator is one segment (R162). -/
theorem split_of_not_mem {t : Byte} {x : List Byte} (ht : t ∉ x) (hx : x ≠ []) : split x t = [x] := by
  have h := splitFrom_append ht [] []
  rw [List.append_nil, List.nil_append, splitFrom_nil, if_neg hx] at h
  exact h

/-- A non-empty piece and its terminator are one segment; the rest is split by itself. -/
theorem split_append_terminator {t : Byte} {g : List Byte} (ht : t ∉ g) (hg : g ≠ []) (x : List Byte) :
    split (g ++ t :: x) t = g :: split x t := by
  rw [split, splitFrom_append ht, List.nil_append, splitFrom_terminator, if_neg hg]
  rfl

/-- Terminated pieces, one after another, split back into the pieces (R175). -/
theorem split_terminated {t : Byte} {gs : List (List Byte)} (h : ∀ g ∈ gs, g ≠ [] ∧ t ∉ g) :
    split (gs.flatMap (· ++ [t])) t = gs := by
  induction gs with
  | nil => rfl
  | cons g gs ih =>
    obtain ⟨⟨hg, ht⟩, hgs⟩ := List.forall_mem_cons.1 h
    rw [List.flatMap_cons, List.append_assoc, List.singleton_append, split_append_terminator ht hg, ih hgs]

/-- An input of terminators only has no segment (R162). -/
theorem split_replicate (t : Byte) (n : Nat) : split (List.replicate n t) t = [] := by
  induction n with
  | zero => rfl
  | succ n ih => rw [List.replicate_succ, split, splitFrom_terminator, if_pos rfl, List.nil_append, ← split, ih]

/-- `split` is the library's `splitOn` without the empty pieces (R160). -/
theorem splitFrom_eq_splitOn {t : Byte} {piece : List Byte} (hp : t ∉ piece) (x : List Byte) :
    splitFrom t piece x = ((piece ++ x).splitOn t).filter (fun g => !g.isEmpty) := by
  induction x generalizing piece with
  | nil =>
    rw [List.append_nil, List.splitOn_eq_singleton hp, splitFrom_nil]
    cases piece <;> rfl
  | cons b x ih =>
    by_cases hb : b = t
    · subst hb
      rw [splitFrom_terminator, List.splitOn_append_cons_self, List.splitOn_eq_singleton hp,
        List.filter_append, ih List.not_mem_nil, List.nil_append]
      cases piece <;> rfl
    · have hpb : t ∉ piece ++ [b] := by simpa [hp] using Ne.symm hb
      rw [splitFrom_byte hb, ih hpb, List.append_assoc, List.singleton_append]

/-- The segments hold all bytes but the terminators, in order (R162). -/
theorem flatten_splitFrom {t : Byte} {piece : List Byte} (x : List Byte) :
    (splitFrom t piece x).flatten = piece ++ x.filter (· != t) := by
  induction x generalizing piece with
  | nil => cases piece <;> simp [splitFrom_nil]
  | cons b x ih =>
    by_cases hb : b = t
    · subst hb
      cases piece <;> simp [splitFrom_terminator, ih]
    · simp [splitFrom_byte hb, ih, hb]

/-- Each terminator ends one segment at most (R162). -/
theorem length_splitFrom_le {t : Byte} {piece : List Byte} (x : List Byte) :
    (splitFrom t piece x).length ≤ x.count t + 1 := by
  induction x generalizing piece with
  | nil => cases piece <;> simp [splitFrom_nil]
  | cons b x ih =>
    by_cases hb : b = t
    · subst hb
      have hrest := ih (piece := [])
      rw [splitFrom_terminator, List.count_cons_self, List.length_append]
      split <;> simp <;> omega
    · rw [splitFrom_byte hb, List.count_cons_of_ne hb]
      exact ih

/-- No segment is empty, none holds a terminator (R162). -/
theorem mem_splitFrom {t : Byte} {piece x g : List Byte} (hp : t ∉ piece) (hg : g ∈ splitFrom t piece x) :
    g ≠ [] ∧ t ∉ g := by
  induction x generalizing piece with
  | nil =>
    rw [splitFrom_nil] at hg
    split at hg
    · cases hg
    · rename_i hne
      obtain rfl := List.mem_singleton.1 hg
      exact ⟨hne, hp⟩
  | cons b x ih =>
    by_cases hb : b = t
    · subst hb
      rw [splitFrom_terminator] at hg
      split at hg
      · exact ih List.not_mem_nil hg
      · rename_i hne
        rcases List.mem_cons.1 hg with rfl | hg
        · exact ⟨hne, hp⟩
        · exact ih List.not_mem_nil hg
    · rw [splitFrom_byte hb] at hg
      exact ih (by simpa [hp] using Ne.symm hb) hg

/-- Settles O43: the laws of `split`, each by induction on the input with a piece begun. -/
theorem splitLaws : Obligations.SplitLaws := fun x t =>
  ⟨splitFrom_eq_splitOn List.not_mem_nil x, rfl, split_replicate t, split_of_not_mem, flatten_splitFrom x,
    length_splitFrom_le x, fun _ => mem_splitFrom List.not_mem_nil⟩

/-! ### The header functions -/

theorem parseHeader_ok_iff {P : Params} {m : List Byte} {h : Header} :
    parseHeader P m = .ok h ↔ P.msgMin ≤ m.length ∧ h = headerOf m := by
  rcases parseHeader_cases P m with ⟨hm, hp⟩ | ⟨hm, hp⟩
  · simp [hp, hm]
  · simp [hp, hm, eq_comm]

theorem parseHeader_error_iff {P : Params} {m : List Byte} {e : CodecError} :
    parseHeader P m = .error e ↔ m.length < P.msgMin ∧ e = .truncatedMessage := by
  rcases parseHeader_cases P m with ⟨hm, hp⟩ | ⟨hm, hp⟩
  · simp [hp, hm, eq_comm]
  · simp [hp, hm]

/-- `strip` of a message that has no header fails (R166). -/
theorem strip_of_short {P : Params} {m : List Byte} (hm : m.length < P.msgMin) :
    strip P m = .error .truncatedMessage := by
  simp only [strip, parseHeader_error_iff.2 ⟨hm, rfl⟩]

theorem carriesPatch_iff (P : Params) (h : Header) :
    carriesPatch P h = true ↔ h.func = P.funcOneBlock ∧ h.ss1 = P.ss1Single := by
  simp [carriesPatch]

/-- An attached message without its end marker (R167). -/
def attachBody (P : Params) (h : Header) (p : List Byte) : List Byte := P.sox :: (headerBytes h ++ p)

theorem attach_eq (P : Params) (h : Header) (p : List Byte) : attach P h p = attachBody P h p ++ [P.eox] := rfl

theorem dropLast_attach (P : Params) (h : Header) (p : List Byte) :
    (attach P h p).dropLast = attachBody P h p := by
  rw [attach_eq, List.dropLast_concat]

theorem length_attachBody (P : Params) (h : Header) (p : List Byte) :
    (attachBody P h p).length = p.length + 8 := rfl

theorem headerOf_attachBody (P : Params) (h : Header) (p : List Byte) : headerOf (attachBody P h p) = h := rfl

/-- Settles O44: the functions by their cases, on a message with and without a header. -/
theorem framerFunctionLaws : Obligations.FramerFunctionLaws := by
  refine ⟨by decide, fun P m h => ⟨fun hm => ⟨parseHeader_error_iff.2 ⟨hm, rfl⟩, strip_of_short hm⟩,
    fun hm => parseHeader_ok_iff.2 ⟨hm, rfl⟩, carriesPatch_iff P h, fun hp => ?_, ?_, rfl⟩⟩
  · simp only [strip, hp]
    split <;> rfl
  · rw [attach_eq, List.length_append, length_attachBody, List.length_singleton]

/-! ### `split` and `strip` undo `attach` -/

/-- Without an end marker in header and payload the message has its only one at its end. -/
theorem eox_notMem_attachBody {P : Params} {h : Header} {p : List Byte} (hmark : P.sox ≠ P.eox)
    (hh : P.eox ∉ headerBytes h) (hp : P.eox ∉ p) : P.eox ∉ attachBody P h p := by
  simp [attachBody, hmark.symm, hh, hp]

theorem attachBody_ne_nil (P : Params) (h : Header) (p : List Byte) : attachBody P h p ≠ [] := List.cons_ne_nil _ _

/-- `strip` of an attached patch message gives its parts (R175). -/
theorem strip_attachBody {P : Params} (hfits : P.Fits) (hmin : P.msgMin = 8) {h : Header}
    (hpatch : carriesPatch P h = true) (p : List Byte) : strip P (attachBody P h p) = .ok (.patch h p) := by
  have hlen : P.msgMin ≤ (attachBody P h p).length := by rw [length_attachBody]; omega
  have hhead : P.headerLen = 8 := by rw [Params.headerLen, hfits.1]
  rw [strip_of_header hlen, headerOf_attachBody, if_pos hpatch, routed, headerOf_attachBody, if_pos hpatch, hhead]
  rfl

/-- Settles O45: each attached message is a terminated piece, and its header is found where `attach` put it. -/
theorem splitAndStripUndoAttach : Obligations.SplitAndStripUndoAttach := by
  refine ⟨fun p hp hmem => absurd (hp _ hmem) (by decide), fun P ms hfits hmin hmark hms => ⟨?_, fun m hm => ?_⟩⟩
  · simp only [dropLast_attach]
    simp only [attach_eq]
    rw [← List.flatMap_map (fun m : Header × List Byte => attachBody P m.1 m.2) (· ++ [P.eox])]
    refine split_terminated fun g hg => ?_
    obtain ⟨m, hm, rfl⟩ := List.mem_map.1 hg
    obtain ⟨-, hh, hp⟩ := hms m hm
    exact ⟨attachBody_ne_nil _ _ _, eox_notMem_attachBody hmark hh hp⟩
  · rw [dropLast_attach]
    exact strip_attachBody hfits hmin (hms m hm).1 m.2

/-! ### The program number -/

/-- The three fields of `PROG` do not overlap (10_state.md R33). -/
theorem progFields_toNat (ext : Bool) {bank slot : Nat} (hb : bank < 4) (hs : slot < 16) :
    ((BitVec.ofNat 8 ext.toNat <<< 6) ||| (BitVec.ofNat 8 bank <<< 4) ||| BitVec.ofNat 8 slot).toNat =
      64 * ext.toNat + 16 * bank + slot := by
  have key : ∀ (ext : Bool) (bank : Fin 4) (slot : Fin 16),
      ((BitVec.ofNat 8 ext.toNat <<< 6) ||| (BitVec.ofNat 8 bank <<< 4) ||| BitVec.ofNat 8 slot).toNat =
        64 * ext.toNat + 16 * bank + slot := by decide
  exact key ext ⟨bank, hb⟩ ⟨slot, hs⟩

/-- The slots of a bank lie below the external base (30_encoding.md R110). -/
theorem progSlot_lt {P : Params} {bank k : Nat} (hbase : P.extBase = P.banks * P.bankSize) (hbank : bank < P.banks)
    (hk : k < P.bankSize) : P.bankSize * bank + k < P.extBase := by
  have hle := Nat.mul_le_mul_left P.bankSize (Nat.succ_le_of_lt hbank)
  rw [hbase, Nat.mul_comm P.banks]
  rw [Nat.mul_succ] at hle
  omega

/-- `PROG` of a value that names a bank and a slot (R183), `k` being the number of slots before that one. -/
theorem progDecode_toNat {P : Params} {ss2 : Byte} {ext : Bool} {bank k : Nat} (hsize : P.bankSize ≤ 15)
    (hbanks : P.banks ≤ 4) (hbase : P.extBase = P.banks * P.bankSize) (hbank : bank < P.banks)
    (hk : k < P.bankSize) (hn : ss2.toNat = P.extBase * ext.toNat + P.bankSize * bank + k) :
    (progDecode P ss2).toNat = 64 * ext.toNat + 16 * bank + (k + 1) := by
  have hin := progSlot_lt hbase hbank hk
  have hext : (if ss2.toNat ≥ P.extBase then 1 else 0) = ext.toNat := by
    cases ext
    · exact if_neg (by simp [hn]; omega)
    · exact if_pos (by simp [hn]; omega)
  have hvalid : ¬ ss2.toNat ≥ 2 * P.banks * P.bankSize := by
    rw [Nat.mul_assoc, ← hbase]
    cases ext <;> simp [hn] <;> omega
  have hrest : ss2.toNat - P.extBase * ext.toNat = k + P.bankSize * bank := by omega
  have hpos : 0 < P.bankSize := by omega
  simp only [progDecode, hvalid, if_false, hext, hrest, Nat.add_mul_div_left _ _ hpos, Nat.add_mul_mod_self_left,
    Nat.div_eq_of_lt hk, Nat.mod_eq_of_lt hk, Nat.zero_add]
  exact progFields_toNat ext (by omega) (by omega)

/-- Settles O16: `PROG` is `progDecode` of `HDR_SS2`, and a value that fits the fields fits a byte. -/
theorem programNumberDecoded : Obligations.ProgramNumberDecoded := by
  refine ⟨by decide, fun s ext bank slot hsize hbanks hbase hbank hslot hle hss2 => ?_, fun s hss2 => if_pos hss2⟩
  obtain ⟨k, rfl⟩ := Nat.exists_eq_add_of_le' hslot
  refine progDecode_toNat hsize hbanks hbase hbank hle ?_
  have hbyte : s.params.extBase * ext.toNat + s.params.bankSize * bank + k < 256 := by
    have hin := progSlot_lt hbase hbank hle
    have hext : s.params.extBase ≤ 4 * 15 := hbase ▸ Nat.mul_le_mul hbanks hsize
    cases ext <;> simp <;> omega
  rw [hss2, BitVec.toNat_ofNat, Nat.add_sub_cancel, Nat.mod_eq_of_lt hbyte]

end Sys2Proof.Machine
end

section
/-! PROOFS. The framer commands (42_message_framer.md R168, R171, R172, R178): the contracts of `SPL`, `PHD`, `STR` and
`ATT` over whole buffers, and that the receive path undoes the transmit path (R179). -/

namespace Sys2Proof.Machine

/-! ### Acceptance -/

/-- The block with `SPL` just accepted (R168, 44_control_and_system.md R219). -/
def splStarted (s : State) : State :=
  { streamStarted 0x60 false s with
    regs := { (streamStarted 0x60 false s).regs with segcnt := 0, stat.unterm := false } }

/-- The block with `PHD` or `STR`, its byte being `c`, just accepted (R171, R172, 44_control_and_system.md R219). -/
def headerStarted (c : Byte) (segOpen : Bool) (s : State) : State :=
  { streamStarted c segOpen s with regs := { (streamStarted c segOpen s).regs with stat.hdrv := false } }

/-- The block with `ATT` just accepted: start marker and header are emitted (R178, 44_control_and_system.md R219). -/
def attStarted (s : State) : State :=
  { streamStarted 0x63 true s with
    regs := { (streamStarted 0x63 true s).regs with ocnt := 8 }
    oq := s.oq ++ (s.params.sox :: headerBytes s.regs.hdr).map .B }

@[simp] theorem headerStarted_params (c : Byte) (o : Bool) (s : State) : (headerStarted c o s).params = s.params := rfl

section
variable {s : State} (h : s.Idle)
include h

theorem exec_spl_idle : exec .spl s = .next (splStarted s) := by
  rw [exec, execSpl, startStream_idle h]
  rfl

theorem exec_phd_idle : exec .phd s = .next (headerStarted 0x61 false s) := by
  rw [exec, execPhd, startStream_idle h]
  rfl

theorem exec_str_idle : exec .str s = .next (headerStarted 0x62 true s) := by
  rw [exec, execStr, startStream_idle h]
  rfl

theorem exec_att_idle : exec .att s = .next (attStarted s) := by
  rw [exec, execAtt, startStream_idle h, emitBytes_eq]
  rfl

end

/-! ### `SPL` -/

/-- Settles O29: `acceptTokens_spl` from an empty piece. -/
theorem splitContract : Obligations.SplitContract := by
  intro s x h
  obtain ⟨t, e, ht, he, hoq, hregs, hhost, hseg⟩ := acceptTokens_spl x (splStarted s) [] rfl rfl
  refine ⟨t, by simp only [runCommand, exec_spl_idle h, ht], ?_, ?_, hhost, hseg⟩
  · rw [hoq, ← List.nil_append e]
    exact congrArg (s.oq ++ ·) he.symm
  · rw [hregs]
    cases x.getLast? <;> simp [splStarted, streamStarted, regsEnded, split]

/-! ### `PHD` -/

/-- The end mark of `PHD` before the header commit: the fault TRUNC (R171). -/
theorem tokenPhd_eos_short {s : State} (h : s.latch.hpos < s.params.msgMin) :
    tokenPhd .EOS s = raiseFatal .trunc s := if_pos h

/-- The end mark of `PHD` past the header commit (R171). -/
theorem tokenPhd_eos_full {s : State} (h : s.params.msgMin ≤ s.latch.hpos) :
    tokenPhd .EOS s = endCommand s := if_neg h.not_gt

/-- What `PHD` leaves of a message `m` that has a header, before the end mark (R169, R170). -/
structure Committed (m : List Byte) (s t : State) : Prop where
  oq : t.oq = s.oq
  hpos : t.latch.hpos = s.params.msgMin
  regs : t.regs = { s.regs with
    hdr := headerOf m
    stat.hdrv := true
    icnt := s.regs.icnt + BitVec.ofNat 16 m.length }
  host : t.host = s.host
  segOpen : t.latch.segOpen = s.latch.segOpen

/-- `PHD` on the first `MSG_MIN` bytes: the last of them commits the header (R170). -/
theorem acceptTokens_phd_header {m : List Byte} {s : State} (hc : s.regs.cmd = 0x61) (hpos : s.latch.hpos = 0)
    (hfits : s.params.Fits) (hm : m.length = s.params.msgMin) :
    ∃ t, acceptTokens (m.map .B) s = .next t ∧ Committed m s t := by
  have h8 := eight_le_msgMin hfits
  obtain rfl | ⟨z, b, rfl⟩ := List.eq_nil_or_concat' m
  · rw [List.length_nil] at hm; omega
  rw [List.length_append, List.length_singleton] at hm
  obtain ⟨u, hu, hfill, hpar, hoq, hregs, hhost, hseg, -⟩ :=
    acceptTokens_phd_short z s [] hc (.start hpos) (by rw [List.length_nil]; omega)
  have hcmd : u.regs.cmd = 0x61 := by rw [hregs]; exact hc
  have hcommit := headerEngine_commit (s := countInput u) hfill (hpar ▸ hm) (hpar ▸ h8) b
  refine ⟨headerEngine b (countInput u), ?_, ?_⟩
  · rw [List.map_append, acceptTokens_append_next hu]
    exact (acceptTokens_one _ _).trans (acceptToken_phd hcmd _)
  rw [hcommit]
  constructor
  case oq => exact hoq
  case hpos => rw [← hm]; exact congrArg (· + 1) hfill.1
  case regs => simp [hregs, BitVec.ofNat_add, BitVec.add_assoc]
  case host => exact hhost
  case segOpen => exact hseg

/-- `PHD` on `MSG_MIN` bytes or more: the header is that of the first of them, the others are counted. -/
theorem acceptTokens_phd_long {x : List Byte} {s : State} (hc : s.regs.cmd = 0x61) (hpos : s.latch.hpos = 0)
    (hfits : s.params.Fits) (hx : s.params.msgMin ≤ x.length) :
    ∃ t, acceptTokens (x.map .B) s = .next t ∧ Committed x s t := by
  obtain ⟨m, p, rfl, hm⟩ : ∃ m p, x = m ++ p ∧ m.length = s.params.msgMin :=
    ⟨_, _, (List.take_append_drop s.params.msgMin x).symm, List.length_take_of_le hx⟩
  obtain ⟨u, hu, hcom⟩ := acceptTokens_phd_header hc hpos hfits hm
  have hpar : u.params = s.params := acceptTokens_params hu
  have hp := acceptTokens_phd_payload p u (by rw [hcom.regs]; exact hc) (hpar ▸ hcom.hpos.ge)
  refine ⟨_, Eq.trans ?_ hp, hcom.oq, hcom.hpos, ?_, hcom.host, hcom.segOpen⟩
  · rw [List.map_append, acceptTokens_append_next hu]
  · simp [hcom.regs, (routed_append hfits hm p).1, BitVec.ofNat_add, BitVec.add_assoc]

/-- `PHD` on fewer than `MSG_MIN` bytes: kept, then the fault TRUNC (R171). -/
theorem runCommand_phd_short {s : State} (h : s.Idle) {m : List Byte} (hm : m.length < s.params.msgMin) :
    ∃ t, runCommand .phd m s = .next t ∧ t.oq = s.oq ∧ t.host = s.host ∧ t.latch.segOpen = false ∧
      t.regs = regsFaulted 0x08 0x13 { regsEnded 0x61 true m.length 0 s.regs with stat.hdrv := false } := by
  obtain ⟨v, hv, hfill, hpar, hoq, hregs, hhost, hseg, -⟩ :=
    acceptTokens_phd_short m (headerStarted 0x61 false s) [] rfl (.start rfl) (by simpa using hm)
  have hpos : v.latch.hpos < v.params.msgMin := by rw [hfill.1, hpar]; exact hm
  have hclosed : v.latch.segOpen = false := hseg
  refine ⟨raiseFatal .trunc v, ?_, ?_, ?_, raiseFatal_latch_segOpen _ _, ?_⟩
  · rw [← tokenPhd_eos_short hpos]
    exact (runCommand_eq (exec_phd_idle h) hv).trans (acceptToken_phd (by rw [hregs]; rfl) _)
  · rw [raiseFatal_eq, hclosed]
    exact (List.append_nil _).trans hoq
  · rw [raiseFatal_eq]
    exact hhost
  · simp [raiseFatal_eq, hregs, headerStarted, streamStarted, regsEnded, regsFaulted, errMask, errBit, causeCode]

/-- `PHD` on `MSG_MIN` bytes or more: the header committed, nothing emitted (R171). -/
theorem runCommand_phd_long {s : State} (h : s.Idle) (hfits : s.params.Fits) {m : List Byte}
    (hm : s.params.msgMin ≤ m.length) :
    ∃ t, runCommand .phd m s = .next t ∧ t.oq = s.oq ∧ t.host = s.host ∧ t.latch.segOpen = false ∧
      t.regs = { regsEnded 0x61 false m.length 0 s.regs with hdr := headerOf m, stat.hdrv := true } := by
  obtain ⟨v, hv, hcom⟩ := acceptTokens_phd_long (s := headerStarted 0x61 false s) rfl rfl hfits hm
  have hpar : v.params = s.params := (acceptTokens_params hv).trans (headerStarted_params ..)
  have hrun := (runCommand_eq (exec_phd_idle h) hv).trans (acceptToken_phd (by rw [hcom.regs]; rfl) _)
  rw [tokenPhd_eos_full (hpar ▸ hcom.hpos.ge)] at hrun
  refine ⟨_, hrun, hcom.oq, hcom.host, hcom.segOpen, ?_⟩
  simp [endCommand, hcom.regs, headerStarted, streamStarted, regsEnded]

/-- Settles O30: `parseHeader` fails or gives the header as the message is too short or not. -/
theorem parseHeaderContract : Obligations.ParseHeaderContract := by
  intro s m h hfits
  rcases lt_or_ge m.length s.params.msgMin with hm | hm
  · obtain ⟨t, ht, hoq, hhost, hseg, hregs⟩ := runCommand_phd_short h hm
    exact ⟨t, ht, hoq, hhost, hseg, fun _ hp => absurd (parseHeader_ok_iff.1 hp).1 hm.not_ge, fun _ _ => hregs⟩
  · obtain ⟨t, ht, hoq, hhost, hseg, hregs⟩ := runCommand_phd_long h hfits hm
    refine ⟨t, ht, hoq, hhost, hseg, fun hd hp => ?_, fun _ he => absurd (parseHeader_error_iff.1 he).1 hm.not_gt⟩
    obtain ⟨-, rfl⟩ := parseHeader_ok_iff.1 hp
    exact ⟨hregs, by rw [route, runCommand_params ht, hregs]⟩

/-! ### `STR` -/

/-- `STR` on fewer than `MSG_MIN` bytes: kept, then the fault TRUNC (R172). -/
theorem runCommand_str_short {s : State} (h : s.Idle) {m : List Byte} (hm : m.length < s.params.msgMin) :
    ∃ t, runCommand .str m s = .next t ∧ t.host = s.host ∧ t.latch.segOpen = false ∧
      t.oq = s.oq ++ [.EOS 0x13] ∧
      t.regs = regsFaulted 0x08 0x13 { regsEnded 0x62 true m.length 0 s.regs with stat.hdrv := false } := by
  obtain ⟨v, hv, hfill, hpar, hoq, hregs, hhost, hseg, -⟩ :=
    acceptTokens_str_short m (headerStarted 0x62 true s) [] rfl (.start rfl) (by simpa using hm)
  have hpos : v.latch.hpos < v.params.msgMin := by rw [hfill.1, hpar]; exact hm
  refine ⟨raiseFatal .trunc v, ?_, ?_, raiseFatal_latch_segOpen _ _, ?_, ?_⟩
  · rw [← tokenStr_eos_short hpos]
    exact (runCommand_eq (exec_str_idle h) hv).trans (acceptToken_str (by rw [hregs]; rfl) _)
  · rw [raiseFatal_eq]
    exact hhost
  · rw [raiseFatal_oq_open _ hseg, hoq]
    rfl
  · simp [raiseFatal_eq, hregs, headerStarted, streamStarted, regsEnded, regsFaulted, errMask, errBit, causeCode]

/-- `STR` on `MSG_MIN` bytes or more: the message routed, its buffer closed by its code (R172). -/
theorem runCommand_str_long {s : State} (h : s.Idle) (hfits : s.params.Fits) {m : List Byte}
    (hm : s.params.msgMin ≤ m.length) :
    ∃ t, runCommand .str m s = .next t ∧ t.host = s.host ∧ t.latch.segOpen = false ∧
      t.oq = s.oq ++ (routed s.params m).map .B ++
        [.EOS (if carriesPatch s.params (headerOf m) then 0x00 else 0x01)] ∧
      t.regs = { regsEnded 0x62 false m.length (routed s.params m).length s.regs with
        hdr := headerOf m, stat.hdrv := true } := by
  obtain ⟨v, hv, hr⟩ := acceptTokens_str_long (s := headerStarted 0x62 true s) rfl rfl hfits hm
  have hpar : v.params = s.params := (acceptTokens_params hv).trans (headerStarted_params ..)
  have hrun := (runCommand_eq (exec_str_idle h) hv).trans (acceptToken_str (by rw [hr.regs]; rfl) _)
  rw [tokenStr_eos_full (hpar ▸ hr.hpos.ge)] at hrun
  refine ⟨_, hrun, hr.host, rfl, ?_, ?_⟩
  · rw [endCommand_oq, closeBuffer_oq, hr.oq, hr.pass]
    cases hc : carriesPatch s.params (headerOf m) <;> simp [headerStarted, streamStarted, hc, codeOk, codePass]
  · simp [endCommand, hr.regs, headerStarted, streamStarted, regsEnded]

/-- Settles O31: `strip` fails, passes or strips as the message has no header, no patch or one. -/
theorem stripContract : Obligations.StripContract := by
  intro s m h hfits
  rcases lt_or_ge m.length s.params.msgMin with hm | hm
  · obtain ⟨t, ht, hhost, hseg, hoq, hregs⟩ := runCommand_str_short h hm
    have hstrip := strip_of_short hm
    exact ⟨t, ht, hhost, hseg, fun _ _ hs => (by cases hstrip.symm.trans hs),
      fun _ _ hs => (by cases hstrip.symm.trans hs), fun _ _ => ⟨hoq, hregs⟩⟩
  · obtain ⟨t, ht, hhost, hseg, hoq, hregs⟩ := runCommand_str_long h hfits hm
    have hstrip := strip_of_header hm
    cases hpatch : carriesPatch s.params (headerOf m) with
    | true =>
      have hlen : (routed s.params m).length = m.length - 8 := by
        rw [routed, if_pos hpatch, List.length_drop, Params.headerLen, hfits.1]
      rw [hpatch, if_pos rfl] at hstrip hoq
      rw [hlen] at hregs
      refine ⟨t, ht, hhost, hseg, fun _ _ hs => ?_, fun _ _ hs => (by cases hstrip.symm.trans hs),
        fun _ hs => (by cases hstrip.symm.trans hs)⟩
      cases hstrip.symm.trans hs
      exact ⟨hoq, hregs⟩
    | false =>
      have hrouted : routed s.params m = m := if_neg (Bool.eq_false_iff.1 hpatch)
      rw [hpatch, hrouted, if_neg Bool.false_ne_true] at hstrip hoq
      rw [hrouted] at hregs
      refine ⟨t, ht, hhost, hseg, fun _ _ hs => (by cases hstrip.symm.trans hs), fun _ _ hs => ?_,
        fun _ hs => (by cases hstrip.symm.trans hs)⟩
      cases hstrip.symm.trans hs
      exact ⟨rfl, hoq, hregs⟩

/-! ### `ATT` -/

/-- Settles O32: the header registers are emitted at acceptance, the data bytes follow, `EOX` closes. -/
theorem attachContract : Obligations.AttachContract := by
  intro s p h
  have hrun : runCommand .att p s = .next _ :=
    (runCommand_eq (exec_att_idle h) (acceptTokens_att p _ rfl)).trans (acceptToken_att rfl .EOS)
  refine ⟨_, hrun, ?_, ?_, rfl, rfl⟩
  · simp [tokenAtt, attStarted, streamStarted, attach, codeOk]
  · have hocnt : 8#16 + BitVec.ofNat 16 p.length + 1#16 = BitVec.ofNat 16 (p.length + 9) := by
      rw [BitVec.ofNat_add, BitVec.add_comm 8#16, BitVec.add_assoc]
      rfl
    simp [tokenAtt, endCommand, emitByte, closeBuffer, attStarted, streamStarted, regsEnded, hocnt]

/-! ### The receive path undoes the transmit path -/

/-- `SPL` on terminated pieces, one after another: each is a segment, the last one closed (R179). -/
theorem runCommand_spl_terminated {s : State} (h : s.Idle) {gs : List (List Byte)}
    (hgs : ∀ g ∈ gs, g ≠ [] ∧ s.regs.term ∉ g) :
    ∃ u, runCommand .spl (gs.flatMap (· ++ [s.regs.term])) s = .next u ∧ u.oq = s.oq ++ segmentTokens gs ∧
      u.regs.segcnt = BitVec.ofNat 16 gs.length ∧ u.regs.stat.unterm = false ∧ u.Idle ∧
      u.params = s.params := by
  obtain ⟨u, hu, hoq, hregs, -, -⟩ := splitContract s (gs.flatMap (· ++ [s.regs.term])) h
  rw [split_terminated hgs] at hoq hregs
  refine ⟨u, hu, hoq, by rw [hregs], ?_, by rw [State.Idle, hregs]; rfl, runCommand_params hu⟩
  rw [hregs]
  obtain rfl | ⟨gs, g, rfl⟩ := List.eq_nil_or_concat gs
  · rfl
  · simp

/-- The data tokens of an `ATT` are the attached message (R178). -/
theorem att_data_eq {a t : State} {p w : List Byte} (h : a.Idle) (ht : runCommand .att p a = .next t)
    (hoq : t.oq = a.oq ++ w.map .B ++ [.EOS 0x00]) : w = attach a.params a.regs.hdr p := by
  obtain ⟨t', ht', hoq', -⟩ := attachContract a p h
  cases ht.symm.trans ht'
  have htokens := List.append_cancel_left (List.append_cancel_right (hoq.symm.trans hoq'))
  exact List.map_injective_iff.2 (fun _ _ => OutToken.B.inj) htokens

/-- Settles O40: by the contracts of `ATT`, `SPL` and `STR`, since attached messages are terminated pieces. -/
theorem receivePathUndoesTransmitPath : Obligations.ReceivePathUndoesTransmitPath := by
  intro s h hmark hterm
  refine ⟨fun p hh hp => ?_, fun ws hws => ?_⟩
  · obtain ⟨t, ht, hoq, hregs, -, -⟩ := attachContract s p h
    have htidle : t.Idle := by rw [State.Idle, hregs]; rfl
    have htterm : t.regs.term = s.params.eox := by rw [hregs]; exact hterm
    have hbody := eox_notMem_attachBody hmark hh hp
    obtain ⟨u, hu, huoq, hseg, hunterm, huidle, hupar⟩ := runCommand_spl_terminated htidle
      (gs := [attachBody s.params s.regs.hdr p]) (by simpa [htterm, attachBody_ne_nil] using hbody)
    have hpar : u.params = s.params := hupar.trans (runCommand_params ht)
    rw [htterm, List.flatMap_singleton] at hu
    refine ⟨t, attach s.params s.regs.hdr p, u, attachBody s.params s.regs.hdr p, ht, hoq, hu, ?_, rfl, hseg,
      hunterm, fun hfits hmin hpatch => ?_⟩
    · rw [huoq]
      simp [segmentTokens]
    · obtain ⟨v, hv, -, -, hpatched, -⟩ := stripContract u (attachBody s.params s.regs.hdr p) huidle (hpar ▸ hfits)
      rw [hpar] at hpatched
      obtain ⟨hvoq, hvregs⟩ := hpatched _ _ (strip_attachBody hfits hmin hpatch p)
      refine ⟨v, hv, hvoq, by rw [hvregs], ?_⟩
      rw [route, hvregs, runCommand_params hv, hpar]
      exact hpatch
  · have hbody : ∀ w ∈ ws, w = w.dropLast ++ [s.params.eox] ∧ w.dropLast ≠ [] ∧ s.params.eox ∉ w.dropLast := by
      intro w hw
      obtain ⟨a, t, p, ha, hpar, hh, hp, ht, hoq⟩ := hws w hw
      rw [att_data_eq ha ht hoq, hpar, dropLast_attach]
      exact ⟨rfl, attachBody_ne_nil _ _ _, eox_notMem_attachBody hmark hh hp⟩
    have hflat : ws.flatten = (ws.map List.dropLast).flatMap (· ++ [s.regs.term]) := by
      rw [List.flatMap_map, hterm, ← List.flatMap_id']
      exact List.flatMap_congr fun w hw => (hbody w hw).1
    obtain ⟨u, hu, huoq, hseg, hunterm, -, -⟩ := runCommand_spl_terminated h (gs := ws.map List.dropLast)
      (List.forall_mem_map.2 fun w hw => hterm ▸ (hbody w hw).2)
    rw [← hflat] at hu
    rw [segmentTokens, List.flatMap_map] at huoq
    rw [List.length_map] at hseg
    exact ⟨u, hu, huoq, hseg, hunterm⟩

end Sys2Proof.Machine
end

section
/-! PROOFS. The pure functions of the checksum (43_checksum.md R190 to R196, R201): the word sum by its arithmetic, the
checksum by its equation, the appended checksum accepted, and that every change of one byte is seen. -/

namespace Sys2Proof.Machine

/-! ### The word sum -/

/-- A pair of bytes as the number it denotes (20_memory.md R64). -/
theorem wordOf_eq_ofNat (hi lo : Byte) : wordOf hi lo = BitVec.ofNat 16 (lo.toNat + 256 * hi.toNat) := by
  rw [← wordOf_toNat, BitVec.ofNat_toNat, BitVec.setWidth_eq]

/-- The word sum as a sum of numbers (R190). -/
theorem wordsum_eq_ofNat_sum : ∀ x : List Byte,
    wordsum x = BitVec.ofNat 16 ((List.range (x.length / 2)).map fun k =>
      (x.getD (2 * k) 0).toNat + 256 * (x.getD (2 * k + 1) 0).toNat).sum
  | [] => rfl
  | [b] => by rw [List.length_singleton]; rfl
  | lo :: hi :: x => by
    have hlen : (lo :: hi :: x).length / 2 = x.length / 2 + 1 := by simp only [List.length_cons]; omega
    rw [wordsum, wordsum_eq_ofNat_sum x, wordOf_eq_ofNat, hlen, List.range_succ_eq_map, List.map_cons, List.map_map,
      List.sum_cons, ← BitVec.ofNat_add]
    rfl

/-- The word sum of a span and the two bytes behind it (R190). -/
theorem wordsum_append_pair {x : List Byte} (hx : x.length % 2 = 0) (lo hi : Byte) :
    wordsum (x ++ [lo, hi]) = wordsum x + wordOf hi lo := by
  rw [wordsum_append _ _ hx, wordsum, wordsum, add_zero]

theorem wordOf_inj {hi lo hi' lo' : Byte} : wordOf hi lo = wordOf hi' lo' ↔ hi = hi' ∧ lo = lo' := by
  refine ⟨fun h => ⟨?_, ?_⟩, fun ⟨hhi, hlo⟩ => by rw [hhi, hlo]⟩
  · simpa only [wordOf_hi] using congrArg hiByte h
  · simpa only [wordOf_lo] using congrArg loByte h

/-- A change of one byte of an even span is seen in the word sum: its word changes and no other does. -/
theorem wordsum_set_eq_iff : ∀ {x : List Byte} {i : Nat} (h : i < x.length) (b : Byte), x.length % 2 = 0 →
    (wordsum (x.set i b) = wordsum x ↔ b = x[i])
  | [_], _, _, _, heven => by simp at heven
  | lo :: hi :: x, 0, _, b, _ => by simp [wordsum, wordOf_inj]
  | lo :: hi :: x, 1, _, b, _ => by simp [wordsum, wordOf_inj]
  | lo :: hi :: x, i + 2, h, b, heven => by
    have hlen : i < x.length := by simp only [List.length_cons] at h; omega
    have hx : x.length % 2 = 0 := by simp only [List.length_cons] at heven; omega
    simpa [wordsum] using wordsum_set_eq_iff hlen b hx

/-! ### The checksum and its comparison -/

theorem verify_even {x : List Byte} (hx : x.length % 2 = 0) (P : Params) (lo hi : Byte) :
    verify P x lo hi = .ok (P.cksConst - wordsum x == wordOf hi lo) := by
  simp only [verify, compute_even hx]

theorem verify_odd {x : List Byte} (hx : x.length % 2 = 1) (P : Params) (lo hi : Byte) :
    verify P x lo hi = .error .oddSpan := by
  simp only [verify, compute_odd hx]

theorem appendChecksum_even {x : List Byte} (hx : x.length % 2 = 0) (P : Params) :
    appendChecksum P x = .ok (x ++ [loByte (P.cksConst - wordsum x), hiByte (P.cksConst - wordsum x)]) := by
  simp only [appendChecksum, compute_even hx]

theorem appendChecksum_odd {x : List Byte} (hx : x.length % 2 = 1) (P : Params) :
    appendChecksum P x = .error .oddSpan := by
  simp only [appendChecksum, compute_odd hx]

theorem verifyTrailing_short {y : List Byte} (hy : y.length < 2) (P : Params) :
    verifyTrailing P y = .error .truncatedInput := if_pos hy

theorem verifyTrailing_append (P : Params) (x : List Byte) (lo hi : Byte) :
    verifyTrailing P (x ++ [lo, hi]) = verify P x lo hi := by
  simp [verifyTrailing]

/-- What `appendChecksum` gives is accepted: the appended bytes are those of the checksum (R194). -/
theorem verifyTrailing_appended {x : List Byte} (hx : x.length % 2 = 0) (P : Params) :
    verifyTrailing P (x ++ [loByte (P.cksConst - wordsum x), hiByte (P.cksConst - wordsum x)]) = .ok true := by
  rw [verifyTrailing_append, verify_even hx, wordOf_hiByte_loByte, beq_self_eq_true]

/-- With its checksum appended a span sums to the constant (R194). -/
theorem wordsum_appended {x : List Byte} (hx : x.length % 2 = 0) (P : Params) :
    wordsum (x ++ [loByte (P.cksConst - wordsum x), hiByte (P.cksConst - wordsum x)]) = P.cksConst := by
  rw [wordsum_append_pair hx, wordOf_hiByte_loByte, BitVec.add_comm, BitVec.sub_add_cancel]

/-- A buffer of two bytes or more is a span and two trailing bytes. -/
theorem exists_append_pair {y : List Byte} (hy : 2 ≤ y.length) : ∃ x lo hi, y = x ++ [lo, hi] := by
  obtain ⟨z, hi, rfl⟩ := List.eq_nil_or_concat' y |>.resolve_left (by rintro rfl; simp at hy)
  obtain ⟨x, lo, rfl⟩ := List.eq_nil_or_concat' z |>.resolve_left (by rintro rfl; simp at hy)
  exact ⟨x, lo, hi, by simp⟩

/-- Settles O46: the laws of each function on even and odd spans. -/
theorem checksumLaws : Obligations.ChecksumLaws := by
  refine ⟨rfl, fun P x lo hi => ⟨fun hx => ⟨wordsum_eq_ofNat_sum x, fun c => ?_, ?_,
    verifyTrailing_append P x lo hi, _, _, compute_even hx P, rfl, appendChecksum_even hx P,
    verifyTrailing_appended hx P, wordsum_appended hx P⟩,
    fun hx => ⟨compute_odd hx P, verify_odd hx P lo hi, appendChecksum_odd hx P⟩,
    fun hx => verifyTrailing_short hx P, fun hlen hx => ?_⟩⟩
  · rw [compute_ok_iff, and_iff_right hx, BitVec.eq_sub_iff_add_eq, BitVec.add_comm]
  · rw [verify_even hx, wordOf_eq_ofNat]
  · obtain ⟨z, l, h, rfl⟩ := exists_append_pair (Nat.le_of_succ_le hlen)
    rw [verifyTrailing_append, verify_odd]
    simpa using hx

/-- Settles O47: a flipped bit changes its byte, so `wordsum_set_eq_iff` gives another word sum. -/
theorem checksumSeesEveryBitFlip : Obligations.ChecksumSeesEveryBitFlip := by
  intro P x i j h hx hj heq
  have hmask : 1#8 <<< j ≠ 0 := by interval_cases j <;> decide
  rw [compute_even hx, compute_even (by rw [List.length_set]; exact hx)] at heq
  have hsum := (wordsum_set_eq_iff h _ hx).1 ((BitVec.sub_right_inj _).1 (Except.ok.inj heq))
  exact hmask (by simpa using hsum)

end Sys2Proof.Machine
end

section
/-! PROOFS. The checksum commands (43_checksum.md R197 to R200): the contracts of `CKC`, `CKV`, `CKT` and `CKA` over
whole buffers, and that the checks accept what the other two computed (R204). -/

namespace Sys2Proof.Machine

/-! ### Acceptance -/

/-- The block with a checksum command just accepted that opens no buffer, its byte being `c` and `MATCH` as given
(R197 to R199, 44_control_and_system.md R219). -/
def spanStarted (c : Byte) (matched : Bool) (s : State) : State :=
  { streamStarted c false s with regs := { (streamStarted c false s).regs with stat.matched := matched } }

section
variable {s : State} (h : s.Idle)
include h

theorem exec_ckc_idle : exec .ckc s = .next (spanStarted 0x50 s.regs.stat.matched s) := startStream_idle h _ _ _

theorem exec_ckv_idle : exec .ckv s = .next (spanStarted 0x51 false s) := by
  rw [exec, execCkv, startStream_idle h]
  rfl

theorem exec_ckt_idle : exec .ckt s = .next (spanStarted 0x52 false s) := by
  rw [exec, execCkt, startStream_idle h]
  rfl

theorem exec_cka_idle : exec .cka s = .next (streamStarted 0x53 true s) := startStream_idle h _ _ _

end

/-! ### End marks -/

section
variable {s : State}

theorem tokenCkc_eos_even (hv : s.latch.holdValid = false) :
    tokenCkc .EOS s = endCommand (setCks (finish s) s) := by
  simp [tokenCkc, hv]

theorem tokenCkc_eos_odd (hv : s.latch.holdValid = true) : tokenCkc .EOS s = raiseFatal .oddSpan s := by
  simp [tokenCkc, hv]

theorem tokenCkv_eos_even (hv : s.latch.holdValid = false) :
    tokenCkv .EOS s = endCommand (settleMatch (finish s == expected s.regs) (setCks (finish s) s)) := by
  simp [tokenCkv, hv]

theorem tokenCkv_eos_odd (hv : s.latch.holdValid = true) : tokenCkv .EOS s = raiseFatal .oddSpan s := by
  simp [tokenCkv, hv]

theorem tokenCkt_eos_short (hd : s.latch.dcnt.val < 2) : tokenCkt .EOS s = raiseFatal .trunc s := by
  simp [tokenCkt, hd]

theorem tokenCkt_eos_even (hd : s.latch.dcnt = 2) (hv : s.latch.holdValid = false) :
    tokenCkt .EOS s = endCommand (settleMatch (finish s == wordOf s.latch.d1 s.latch.d0)
      { setCks (finish s) s with regs.explo := s.latch.d0, regs.exphi := s.latch.d1 }) := by
  simp [tokenCkt, hd, hv]

theorem tokenCkt_eos_odd (hd : s.latch.dcnt = 2) (hv : s.latch.holdValid = true) :
    tokenCkt .EOS s = raiseFatal .oddSpan s := by
  simp [tokenCkt, hd, hv]

theorem tokenCka_eos_even (hv : s.latch.holdValid = false) :
    tokenCka .EOS s = endCommand (closeBuffer codeOk
      (emitBytes [loByte (finish s), hiByte (finish s)] (setCks (finish s) s))) := by
  simp [tokenCka, hv]

theorem tokenCka_eos_odd (hv : s.latch.holdValid = true) : tokenCka .EOS s = raiseFatal .oddSpan s := by
  simp [tokenCka, hv]

end

/-- The registers after the checksum `c` is compared with the expected value `e`: `MATCH`, and on a mismatch the report
CKSUM (60_exceptions.md R246). -/
def regsCompared (c e : Word) (r : Regs) : Regs :=
  if c = e then { r with stat.matched := true } else regsFaulted 0x10 0x14 { r with stat.matched := false }

theorem regsCompared_matched (c e : Word) (r : Regs) : (regsCompared c e r).stat.matched = (c == e) := by
  by_cases hce : c = e <;> simp [regsCompared, regsFaulted, hce]

theorem regsCompared_fail (c e : Word) (r : Regs) : (regsCompared c e r).stat.fail = r.stat.fail := by
  by_cases hce : c = e <;> simp [regsCompared, regsFaulted, hce]

theorem regsCompared_cks (c e : Word) (r : Regs) : (regsCompared c e r).cks = r.cks := by
  by_cases hce : c = e <;> simp [regsCompared, regsFaulted, hce]

/-- `settleMatch` is `regsCompared` on the registers, and touches nothing else. -/
theorem settleMatch_eq (c e : Word) (s : State) :
    settleMatch (c == e) s = { s with regs := regsCompared c e s.regs } := by
  by_cases hce : c = e
  · simp [settleMatch, regsCompared, hce]
  · simp [settleMatch, regsCompared, hce, reportMismatch, noteEvent, regsFaulted, errMask, errBit, causeCode]

/-- The end of a command that compares, its registers before the comparison being `r`. -/
theorem endCommand_settleMatch_eq (c e : Word) (s : State) (r : Regs) :
    endCommand (settleMatch (c == e) { s with regs := r }) =
      { s with regs := regsCompared c e { r with stat.busy := false, stat.done := true } } := by
  rw [settleMatch_eq]
  by_cases hce : c = e <;> simp [endCommand, regsCompared, regsFaulted, hce]

/-! ### Data bytes of `CKC`, `CKV` and `CKT` -/

/-- What `n` data bytes of a checksum command that opens no buffer leave of the accepted state `s`: they are counted,
the bytes of `x` among them fed to the accumulator, and nothing is emitted (R203, R205). -/
structure Summed (x : List Byte) (n : Nat) (s t : State) : Prop where
  fed : Fed x t.latch
  regs : t.regs = { s.regs with icnt := BitVec.ofNat 16 n }
  oq : t.oq = s.oq
  host : t.host = s.host
  segOpen : t.latch.segOpen = false
  params : t.params = s.params

section
variable {x : List Byte} {n : Nat} {s t : State} (h : Summed x n s t)
include h

theorem Summed.holdValid_even (hx : x.length % 2 = 0) : t.latch.holdValid = false := by simp [h.fed.odd, hx]

theorem Summed.holdValid_odd (hx : x.length % 2 = 1) : t.latch.holdValid = true := by simp [h.fed.odd, hx]

theorem Summed.finish_eq (hx : x.length % 2 = 0) : finish t = s.params.cksConst - wordsum x := by
  rw [finish, h.fed.sum hx, h.params]

end

section
variable {matched : Bool} {s : State}

/-- `CKT` on its first byte: the older byte of the delay line (R199). -/
theorem tokenCkt_byte_first (hd : s.latch.dcnt = 0) (b : Byte) :
    tokenCkt (.B b) s = { countInput s with latch.d0 := b, latch.dcnt := 1 } := by
  simp [tokenCkt, delayByte, hd]

/-- `CKT` on its second byte: the newer byte of the delay line (R199). -/
theorem tokenCkt_byte_second (hd : s.latch.dcnt = 1) (b : Byte) :
    tokenCkt (.B b) s = { countInput s with latch.d1 := b, latch.dcnt := 2 } := by
  simp [tokenCkt, delayByte, hd]

/-- Two bytes counted and waiting in the delay line of `CKT`. -/
def delayFilled (a b : Byte) (s : State) : State :=
  { countInput (countInput s) with latch.d0 := a, latch.d1 := b, latch.dcnt := 2 }

/-- The first two bytes of `CKT` fill its delay line. -/
theorem acceptTokens_ckt_pair (hc : s.regs.cmd = 0x52) (hd : s.latch.dcnt = 0) (a b : Byte)
    (ts : List InToken) : acceptTokens (.B a :: .B b :: ts) s = acceptTokens ts (delayFilled a b s) := by
  have ha := (acceptToken_ckt hc (.B a)).trans (congrArg _ (tokenCkt_byte_first hd a))
  rw [acceptTokens_cons_next ha, acceptTokens_cons_next (acceptToken_ckt (by exact hc) _), tokenCkt_byte_second rfl]
  rfl

/-- `CKT` on fewer than two data bytes: they stay in the delay line, which is not full. -/
theorem acceptTokens_ckt_short {y : List Byte} (hy : y.length < 2) :
    ∃ t, acceptTokens (y.map .B) (spanStarted 0x52 matched s) = .next t ∧ t.latch.dcnt.val < 2 ∧
      Summed [] y.length (spanStarted 0x52 matched s) t := by
  match y with
  | [] => exact ⟨_, rfl, Nat.zero_lt_two, .start rfl rfl, rfl, rfl, rfl, rfl, rfl⟩
  | [b] =>
    have hb : acceptTokens [.B b] (spanStarted 0x52 matched s) = .next _ :=
      (acceptTokens_one _ _).trans ((acceptToken_ckt rfl _).trans (congrArg _ (tokenCkt_byte_first rfl b)))
    exact ⟨_, hb, Nat.one_lt_two, .start rfl rfl, rfl, rfl, rfl, rfl, rfl⟩

/-- `CKT` on two data bytes or more: all but the last two are fed, and those two fill the delay line (R205). -/
theorem acceptTokens_ckt_long {y : List Byte} (hy : 2 ≤ y.length) :
    ∃ t x, acceptTokens (y.map .B) (spanStarted 0x52 matched s) = .next t ∧ y = x ++ [t.latch.d0, t.latch.d1] ∧
      t.latch.dcnt = 2 ∧ Summed x y.length (spanStarted 0x52 matched s) t := by
  match y with
  | a :: b :: y =>
    obtain ⟨t, x, ht, hx, hfed, hd, hoq, hregs, hhost, hseg⟩ :=
      acceptTokens_ckt y (delayFilled a b (spanStarted 0x52 matched s)) rfl rfl [] (.start rfl rfl)
    have hall := (acceptTokens_ckt_pair (s := spanStarted 0x52 matched s) rfl rfl a b (y.map .B)).trans ht
    refine ⟨t, x, hall, hx, hd, hfed, hregs.trans ?_, hoq, hhost, hseg, acceptTokens_params hall⟩
    have hcount : 2#16 + BitVec.ofNat 16 y.length = BitVec.ofNat 16 (y.length + 1 + 1) := by
      rw [BitVec.add_comm, ← BitVec.ofNat_add]
    simp [delayFilled, countInput, spanStarted, streamStarted, hcount]

end

/-! ### Commands that emit nothing -/

/-- The whole command `i` on the bytes `x` emits nothing and ends with the registers `r`. -/
def EndsSilently (i : Instr) (x : List Byte) (s : State) (r : Regs) : Prop :=
  ∃ t, runCommand i x s = .next t ∧ t.oq = s.oq ∧ t.host = s.host ∧ t.latch.segOpen = false ∧ t.regs = r

section
variable {i : Instr} {x y : List Byte} {c : Byte} {matched : Bool} {n : Nat} {s t : State}
  (h : Summed x n (spanStarted c matched s) t)
include h

/-- A fatal fault at the end mark (60_exceptions.md R245): no buffer is open, so nothing is emitted. -/
theorem Summed.endsSilently_fault {e : Event} (hrun : runCommand i y s = .next (raiseFatal e t)) :
    EndsSilently i y s (regsFaulted (errMask e) (causeCode e)
      { regsEnded c true n 0 s.regs with stat.matched := matched }) := by
  refine ⟨_, hrun, ?_, ?_, raiseFatal_latch_segOpen _ _, ?_⟩
  · rw [raiseFatal_eq, h.segOpen]
    exact (List.append_nil _).trans h.oq
  · rw [raiseFatal_eq]
    exact h.host
  · rw [raiseFatal_eq]
    simp [h.regs, spanStarted, streamStarted, regsEnded, regsFaulted]

/-- A good end at the end mark that leaves queue, host and buffer alone. -/
theorem Summed.endsSilently {w : State} (hrun : runCommand i y s = .next w) (hoq : w.oq = t.oq)
    (hhost : w.host = t.host) (hseg : w.latch.segOpen = t.latch.segOpen) : EndsSilently i y s w.regs :=
  ⟨w, hrun, hoq.trans h.oq, hhost.trans h.host, hseg.trans h.segOpen, rfl⟩

end

/-- `CKC` and `CKV` feed all their data bytes; what they do then is in the end mark's rule. -/
theorem runCommand_summed {i : Instr} {c : Byte} {matched : Bool} {s : State} {rule : InToken → State → State}
    (hexec : exec i s = .next (spanStarted c matched s))
    (hrule : ∀ {u : State}, u.regs.cmd = c → ∀ tok, acceptToken tok u = .next (rule tok u))
    (hfeed : ∀ b u, rule (.B b) u = feed b (countInput u)) (x : List Byte) :
    ∃ t, Summed x x.length (spanStarted c matched s) t ∧ runCommand i x s = .next (rule .EOS t) := by
  obtain ⟨t, ht, hfed, hoq, hregs, hhost, hseg⟩ := acceptTokens_feed
    (fun u b hc => (hrule hc (.B b)).trans (congrArg _ (hfeed b u))) x (spanStarted c matched s) rfl [] (.start rfl rfl)
  refine ⟨t, ⟨hfed, hregs.trans ?_, hoq, hhost, hseg, acceptTokens_params ht⟩,
    (runCommand_eq hexec ht).trans (hrule (by rw [hregs]; rfl) _)⟩
  simp [spanStarted, streamStarted]

section
variable {s : State} (h : s.Idle)
include h

/-! `CKC` (R197). -/

theorem runCommand_ckc_data (x : List Byte) : ∃ t, Summed x x.length (spanStarted 0x50 s.regs.stat.matched s) t ∧
    runCommand .ckc x s = .next (tokenCkc .EOS t) :=
  runCommand_summed (exec_ckc_idle h) acceptToken_ckc (fun _ _ => rfl) x

theorem runCommand_ckc_even {x : List Byte} (hx : x.length % 2 = 0) : EndsSilently .ckc x s
    { regsEnded 0x50 false x.length 0 s.regs with cks := s.params.cksConst - wordsum x } := by
  obtain ⟨t, hsum, hrun⟩ := runCommand_ckc_data h x
  rw [tokenCkc_eos_even (hsum.holdValid_even hx), hsum.finish_eq hx] at hrun
  have hend := hsum.endsSilently hrun rfl rfl rfl
  rw [endCommand, setCks, hsum.regs] at hend
  exact hend

theorem runCommand_ckc_odd {x : List Byte} (hx : x.length % 2 = 1) : EndsSilently .ckc x s
    (regsFaulted 0x20 0x15 (regsEnded 0x50 true x.length 0 s.regs)) := by
  obtain ⟨t, hsum, hrun⟩ := runCommand_ckc_data h x
  rw [tokenCkc_eos_odd (hsum.holdValid_odd hx)] at hrun
  exact hsum.endsSilently_fault hrun

/-! `CKV` (R198). -/

theorem runCommand_ckv_data (x : List Byte) : ∃ t, Summed x x.length (spanStarted 0x51 false s) t ∧
    runCommand .ckv x s = .next (tokenCkv .EOS t) :=
  runCommand_summed (exec_ckv_idle h) acceptToken_ckv (fun _ _ => rfl) x

theorem runCommand_ckv_even {x : List Byte} (hx : x.length % 2 = 0) : EndsSilently .ckv x s
    (regsCompared (s.params.cksConst - wordsum x) (wordOf s.regs.exphi s.regs.explo)
      { regsEnded 0x51 false x.length 0 s.regs with cks := s.params.cksConst - wordsum x, stat.matched := false }) := by
  obtain ⟨t, hsum, hrun⟩ := runCommand_ckv_data h x
  rw [tokenCkv_eos_even (hsum.holdValid_even hx), hsum.finish_eq hx, setCks, endCommand_settleMatch_eq] at hrun
  have hend := hsum.endsSilently hrun rfl rfl rfl
  rw [hsum.regs] at hend
  exact hend

theorem runCommand_ckv_odd {x : List Byte} (hx : x.length % 2 = 1) : EndsSilently .ckv x s
    (regsFaulted 0x20 0x15 { regsEnded 0x51 true x.length 0 s.regs with stat.matched := false }) := by
  obtain ⟨t, hsum, hrun⟩ := runCommand_ckv_data h x
  rw [tokenCkv_eos_odd (hsum.holdValid_odd hx)] at hrun
  exact hsum.endsSilently_fault hrun

/-! `CKT` (R199). -/

theorem runCommand_ckt_short {y : List Byte} (hy : y.length < 2) : EndsSilently .ckt y s
    (regsFaulted 0x08 0x13 { regsEnded 0x52 true y.length 0 s.regs with stat.matched := false }) := by
  obtain ⟨t, ht, hd, hsum⟩ := acceptTokens_ckt_short (matched := false) (s := s) hy
  have hrun := (runCommand_eq (exec_ckt_idle h) ht).trans (acceptToken_ckt (by rw [hsum.regs]; rfl) _)
  rw [tokenCkt_eos_short hd] at hrun
  exact hsum.endsSilently_fault hrun

/-- The delay line of `CKT` keeps the two trailing bytes `lo` and `hi` out of the sum (R205). -/
theorem runCommand_ckt_data (x : List Byte) (lo hi : Byte) : ∃ t,
    Summed x (x ++ [lo, hi]).length (spanStarted 0x52 false s) t ∧
    t.latch.d0 = lo ∧ t.latch.d1 = hi ∧ t.latch.dcnt = 2 ∧
    runCommand .ckt (x ++ [lo, hi]) s = .next (tokenCkt .EOS t) := by
  obtain ⟨t, x', ht, hx', hd, hsum⟩ :=
    acceptTokens_ckt_long (matched := false) (s := s) (y := x ++ [lo, hi]) (by simp)
  obtain ⟨rfl, hpair⟩ := List.append_inj' hx' rfl
  injection hpair with hlo hpair
  injection hpair with hhi
  exact ⟨t, hsum, hlo.symm, hhi.symm, hd,
    (runCommand_eq (exec_ckt_idle h) ht).trans (acceptToken_ckt (by rw [hsum.regs]; rfl) _)⟩

theorem runCommand_ckt_even {x : List Byte} (hx : x.length % 2 = 0) (lo hi : Byte) : EndsSilently .ckt (x ++ [lo, hi]) s
    (regsCompared (s.params.cksConst - wordsum x) (wordOf hi lo)
      { regsEnded 0x52 false (x ++ [lo, hi]).length 0 s.regs with
        cks := s.params.cksConst - wordsum x, explo := lo, exphi := hi, stat.matched := false }) := by
  obtain ⟨t, hsum, rfl, rfl, hd, hrun⟩ := runCommand_ckt_data h x lo hi
  rw [tokenCkt_eos_even hd (hsum.holdValid_even hx), hsum.finish_eq hx, setCks, endCommand_settleMatch_eq] at hrun
  have hend := hsum.endsSilently hrun rfl rfl rfl
  rw [hsum.regs] at hend
  exact hend

theorem runCommand_ckt_odd {x : List Byte} (hx : x.length % 2 = 1) (lo hi : Byte) : EndsSilently .ckt (x ++ [lo, hi]) s
    (regsFaulted 0x20 0x15
      { regsEnded 0x52 true (x ++ [lo, hi]).length 0 s.regs with stat.matched := false }) := by
  obtain ⟨t, hsum, -, -, hd, hrun⟩ := runCommand_ckt_data h x lo hi
  rw [tokenCkt_eos_odd hd (hsum.holdValid_odd hx)] at hrun
  exact hsum.endsSilently_fault hrun

end

/-- Settles O33: the span is even and `compute` gives `CKS`, or it is odd, a byte is held and `compute` fails too. -/
theorem computeContract : Obligations.ComputeContract := by
  intro s x h
  rcases Nat.mod_two_eq_zero_or_one x.length with hx | hx
  · obtain ⟨t, ht, hoq, hhost, hseg, hregs⟩ := runCommand_ckc_even h hx
    refine ⟨t, ht, hoq, hhost, hseg, fun c hc => ?_, fun e he => ?_⟩
    · rw [hregs, (compute_ok_iff.1 hc).2]
    · exact absurd (compute_error_iff.1 he).1 (by omega)
  · obtain ⟨t, ht, hoq, hhost, hseg, hregs⟩ := runCommand_ckc_odd h hx
    exact ⟨t, ht, hoq, hhost, hseg, fun c hc => absurd (compute_ok_iff.1 hc).1 (by omega), fun _ _ => hregs⟩

/-- Settles O34: on an even span `verify` is the comparison that `regsCompared` records. -/
theorem verifyContract : Obligations.VerifyContract := by
  intro s x h
  rcases Nat.mod_two_eq_zero_or_one x.length with hx | hx
  · obtain ⟨t, ht, hoq, hhost, hseg, hregs⟩ := runCommand_ckv_even h hx
    refine ⟨t, ht, hoq, hhost, hseg, fun c hc => ?_, fun e he => ?_⟩
    · obtain ⟨-, rfl⟩ := compute_ok_iff.1 hc
      exact ⟨by rw [verify_even hx, hregs, regsCompared_matched], hregs⟩
    · exact absurd (compute_error_iff.1 he).1 (by omega)
  · obtain ⟨t, ht, hoq, hhost, hseg, hregs⟩ := runCommand_ckv_odd h hx
    exact ⟨t, ht, hoq, hhost, hseg, fun c hc => absurd (compute_ok_iff.1 hc).1 (by omega), fun _ _ => hregs⟩

/-- Settles O35: fewer than two bytes, or a span and two trailing bytes, the span even or odd. -/
theorem verifyTrailingContract : Obligations.VerifyTrailingContract := by
  intro s y h
  rcases lt_or_ge y.length 2 with hy | hy
  · obtain ⟨t, ht, hoq, hhost, hseg, hregs⟩ := runCommand_ckt_short h hy
    refine ⟨t, ht, hoq, hhost, hseg, fun x lo hi c hxy => ?_, fun _ => hregs, fun h3 => absurd h3 (by omega)⟩
    simp [hxy] at hy
  · obtain ⟨x, lo, hi, rfl⟩ := exists_append_pair hy
    have hlen : (x ++ [lo, hi]).length = x.length + 2 := List.length_append
    rcases Nat.mod_two_eq_zero_or_one x.length with hx | hx
    · obtain ⟨t, ht, hoq, hhost, hseg, hregs⟩ := runCommand_ckt_even h hx lo hi
      refine ⟨t, ht, hoq, hhost, hseg, fun x' lo' hi' c hxy hc => ?_, fun h2 => absurd h2 (by omega),
        fun _ hodd => absurd hodd (by omega)⟩
      obtain ⟨rfl, hpair⟩ := List.append_inj' hxy rfl
      cases hpair
      obtain ⟨-, rfl⟩ := compute_ok_iff.1 hc
      exact ⟨by rw [verifyTrailing_append, verify_even hx, hregs, regsCompared_matched], hregs⟩
    · obtain ⟨t, ht, hoq, hhost, hseg, hregs⟩ := runCommand_ckt_odd h hx lo hi
      refine ⟨t, ht, hoq, hhost, hseg, fun x' lo' hi' c hxy hc => ?_, fun h2 => absurd h2 (by omega),
        fun _ _ => hregs⟩
      obtain ⟨rfl, -⟩ := List.append_inj' hxy rfl
      exact absurd (compute_ok_iff.1 hc).1 (by omega)

/-! ### `CKA` -/

section
variable {s : State} (h : s.Idle)
include h

/-- `CKA` on an even span: copied, the checksum behind it (R200). -/
theorem runCommand_cka_even {x : List Byte} (hx : x.length % 2 = 0) :
    let c := s.params.cksConst - wordsum x
    ∃ t, runCommand .cka x s = .next t ∧ t.host = s.host ∧ t.latch.segOpen = false ∧
      t.oq = s.oq ++ (x ++ [loByte c, hiByte c]).map .B ++ [.EOS 0x00] ∧
      t.regs = { regsEnded 0x53 false x.length (x.length + 2) s.regs with cks := c } := by
  obtain ⟨v, hv, hfed, hoq, hregs, hhost, -⟩ :=
    acceptTokens_cka x (streamStarted 0x53 true s) rfl [] (.start rfl rfl)
  have hpar : v.params = s.params := acceptTokens_params (s := streamStarted 0x53 true s) hv
  have hrun := (runCommand_eq (exec_cka_idle h) hv).trans (acceptToken_cka (by rw [hregs]; rfl) _)
  rw [tokenCka_eos_even (by simp [hfed.odd, hx]), emitBytes_eq, finish, hfed.sum hx, hpar] at hrun
  refine ⟨_, hrun, hhost, rfl, ?_, ?_⟩
  · simp [hoq, streamStarted, codeOk]
  · simp [hregs, endCommand, closeBuffer, setCks, streamStarted, regsEnded, BitVec.ofNat_add]

/-- `CKA` on an odd span: copied, the copy closed by ODDSPAN (R200). -/
theorem runCommand_cka_odd {x : List Byte} (hx : x.length % 2 = 1) :
    ∃ t, runCommand .cka x s = .next t ∧ t.host = s.host ∧ t.latch.segOpen = false ∧
      t.oq = s.oq ++ x.map .B ++ [.EOS 0x15] ∧
      t.regs = regsFaulted 0x20 0x15 (regsEnded 0x53 true x.length x.length s.regs) := by
  obtain ⟨v, hv, hfed, hoq, hregs, hhost, hseg⟩ :=
    acceptTokens_cka x (streamStarted 0x53 true s) rfl [] (.start rfl rfl)
  have hrun := (runCommand_eq (exec_cka_idle h) hv).trans (acceptToken_cka (by rw [hregs]; rfl) _)
  rw [tokenCka_eos_odd (by simp [hfed.odd, hx])] at hrun
  refine ⟨_, hrun, ?_, raiseFatal_latch_segOpen _ _, ?_, ?_⟩
  · rw [raiseFatal_eq]
    exact hhost
  · rw [raiseFatal_oq_open _ hseg, hoq]
    rfl
  · simp [raiseFatal_eq, hregs, streamStarted, regsEnded, regsFaulted, errMask, errBit, causeCode]

end

/-- Settles O36: `appendChecksum` gives the tokens on an even span and fails on an odd one. -/
theorem appendContract : Obligations.AppendContract := by
  intro s x h
  rcases Nat.mod_two_eq_zero_or_one x.length with hx | hx
  · obtain ⟨t, ht, hhost, hseg, hoq, hregs⟩ := runCommand_cka_even h hx
    refine ⟨t, ht, hhost, hseg, fun y c hy hc => ?_, fun e he => ?_⟩
    · obtain ⟨-, rfl⟩ := compute_ok_iff.1 hc
      cases (appendChecksum_even hx _).symm.trans hy
      exact ⟨hoq, hregs⟩
    · cases (appendChecksum_even hx _).symm.trans he
  · obtain ⟨t, ht, hhost, hseg, hoq, hregs⟩ := runCommand_cka_odd h hx
    refine ⟨t, ht, hhost, hseg, fun y c hy => ?_, fun _ _ => ⟨hoq, hregs⟩⟩
    cases (appendChecksum_odd hx _).symm.trans hy

/-! ### The checks accept what was computed -/

/-- Settles O38: the expected word is the one `CKA` or `CKC` computed, for its two bytes put together are it again. -/
theorem checkAcceptsAppended : Obligations.CheckAcceptsAppended := by
  refine ⟨fun s x h hx => ?_, fun s x h hx => ?_⟩
  · obtain ⟨t, ht, -, -, hoq, htregs⟩ := runCommand_cka_even h hx
    have hidle : t.Idle := by rw [State.Idle, htregs]; rfl
    obtain ⟨u, hu, -, -, -, huregs⟩ := runCommand_ckt_even hidle hx
      (loByte (s.params.cksConst - wordsum x)) (hiByte (s.params.cksConst - wordsum x))
    rw [wordOf_hiByte_loByte, runCommand_params ht] at huregs
    refine ⟨t, _, u, ht, hoq, hu, ?_, ?_, ?_⟩
    · rw [huregs, regsCompared_matched, beq_self_eq_true]
    · rw [huregs, regsCompared_fail]
      rfl
    · rw [huregs, regsCompared_cks, htregs]
  · obtain ⟨t, ht, -, -, -, htregs⟩ := runCommand_ckc_even h hx
    have hidle : t.Idle := by rw [State.Idle, htregs]; rfl
    have hread : wordOf (readPort t 0x14) (readPort t 0x13) = t.regs.cks := wordOf_hiByte_loByte _
    obtain ⟨u, hu, -, -, -, huregs⟩ := runCommand_ckv_even
      (s := { t with regs.explo := readPort t 0x13, regs.exphi := readPort t 0x14 }) hidle hx
    refine ⟨t, u, ht, hu, ?_, ?_⟩
    · rw [huregs, regsCompared_matched, hread, htregs, runCommand_params ht, beq_self_eq_true]
    · rw [huregs, regsCompared_fail]
      rfl

end Sys2Proof.Machine
end

section
/-! PROOFS. Control and mode (44_control_and_system.md R215 to R226): what the control commands do, in which state each
stream command starts, how the block leaves idle and busy, and the order of the output tokens. -/

namespace Sys2Proof.Machine

/-! ### Control commands -/

/-- Settles O17: an idle block completes with nothing performed, a busy one rejects every command but `CLR`. -/
theorem nopOnlyCompletes : Obligations.NopOnlyCompletes :=
  ⟨fun _ h => immediate_idle h _ _, fun _ h => exec_busy (eq_true_of_ne_false h) (by decide)⟩

/-- Settles O18: `CLR` in one record, and `Reset`, which is defined by the same one. -/
theorem clrResetsAndAborts : Obligations.ClrResetsAndAborts := fun s => ⟨execClr_eq s, rfl⟩

/-! ### Acceptance of the stream commands -/

/-- Settles O24: the acceptance of each. -/
theorem transcoderCommandsStart : Obligations.TranscoderCommandsStart :=
  fun _ h => ⟨exec_exp_idle h, exec_col_idle h⟩

/-- Settles O25: the acceptance of each; `CKC` leaves `MATCH` as it finds it. -/
theorem checksumCommandsStart : Obligations.ChecksumCommandsStart :=
  fun _ h => ⟨exec_ckc_idle h, exec_ckv_idle h, exec_ckt_idle h, exec_cka_idle h⟩

/-- Settles O26: the acceptance of each. -/
theorem framerCommandsStart : Obligations.FramerCommandsStart :=
  fun _ h => ⟨exec_spl_idle h, exec_phd_idle h, exec_str_idle h, exec_att_idle h⟩

/-! ### What register writes and rejections leave alone -/

@[simp] theorem rejectReserved_stat (s : State) : (rejectReserved s).regs.stat = s.regs.stat := by
  unfold rejectReserved
  split <;> rfl

@[simp] theorem rejectReserved_oq (s : State) : (rejectReserved s).oq = s.oq := by
  unfold rejectReserved
  split <;> rfl

@[simp] theorem rejectReserved_host (s : State) : (rejectReserved s).host = s.host := by
  unfold rejectReserved
  split <;> rfl

/-- A register write other than to `CMD` changes registers only. -/
theorem writeReg_frame (r : Reg) (v : Byte) (s : State) :
    writeReg r v s = { s with regs := (writeReg r v s).regs } := by
  unfold writeReg
  split
  · rfl
  · split <;> rfl
  · rfl
  · rfl

/-- A register write other than to `CMD` changes no flag of `STAT`. -/
@[simp] theorem writeReg_stat (r : Reg) (v : Byte) (s : State) : (writeReg r v s).regs.stat = s.regs.stat := by
  unfold writeReg
  split
  · rfl
  · split
    · rfl
    · exact storeReg_stat v s.regs r
  · rfl
  · rfl

@[simp] theorem outputTransfer_regs (s : State) : (outputTransfer s).regs = s.regs := by
  rcases outputTransfer_cases s with ⟨_, he⟩ | ⟨_, _, _, he⟩ <;> rw [he]

/-! ### The mode (R215) -/

/-- The next action writes the byte of a stream command to `CMD`. -/
def State.StartsNext (s : State) : Prop :=
  ∃ c i rest, s.host.acts = .regWrite 0x00 c :: rest ∧ decode c = .command i ∧ i.isStream = true

/-- The next action is `Reset` or `CLR`, or the next step is an `In` with the end mark waiting. -/
def State.StopsNext (s : State) : Prop :=
  s.host.acts.head? = some .reset ∨ s.host.acts.head? = some (.regWrite 0x00 0x01) ∨
    (s.host.inq.head? = some .EOS ∧ (s.host.acts = [] ∨ s.host.acts.head? = some .input))

/-- A command write keeps the mode, but for `CLR` and the start of a stream command (R216). -/
theorem exec_mode {i : Instr} {s t : State} (h : exec i s = .next t) :
    t.regs.stat.busy = s.regs.stat.busy ∨ (i.isStream = true ∧ ¬ t.Idle) ∨ (i = .clr ∧ t.Idle) := by
  rcases exec_cases h with ⟨_, _, rfl⟩ | ⟨hi, rfl⟩ | ⟨_, _, _, hf⟩ | ⟨hi, _, hs⟩
  · exact .inl rfl
  · exact .inr (.inr ⟨hi, rfl⟩)
  · exact .inl hf.busy
  · exact .inr (.inl ⟨hi, by rw [State.Idle, hs.busy]; exact Bool.noConfusion⟩)

/-- A token keeps the mode, but for the end mark (R220, 60_exceptions.md R245). -/
theorem acceptToken_mode {tok : InToken} {s t : State} (h : acceptToken tok s = .next t) :
    t.regs.stat.busy = s.regs.stat.busy ∨ (tok = .EOS ∧ t.Idle) := by
  cases tok with
  | B b => exact .inl (acceptToken_byte h).busy
  | EOS => exact .inr ⟨rfl, (acceptToken_eos h).busy⟩

/-- A step keeps the mode, starts a stream command, or ends one. -/
theorem step_mode {s t : State} (h : step s = .next t) :
    t.regs.stat.busy = s.regs.stat.busy ∨ (s.StartsNext ∧ ¬ t.Idle) ∨ (s.StopsNext ∧ t.Idle) := by
  rcases step_cases h with ⟨_, rfl⟩ | ⟨hquiet, tok, q, hq, _, ht⟩ | ⟨act, rest, s0, hact, rfl, hc⟩
  · exact .inl rfl
  · refine (acceptToken_mode ht).imp_right fun ⟨heos, hidle⟩ => .inr ⟨.inr (.inr ⟨?_, .inl hquiet⟩), hidle⟩
    rw [hq, heos, List.head?_cons]
  · have hhead : s.host.acts.head? = some act := by rw [hact, List.head?_cons]
    rcases hc with ⟨rfl, rfl⟩ | ⟨c, i, rfl, hd, he⟩ | ⟨_, _, _, rfl⟩ | ⟨r, v, _, _, rfl⟩ | ⟨_, _, _, _, rfl⟩ |
      ⟨_, _, rfl⟩ | ⟨_, _, rfl⟩ | ⟨_, rfl⟩ | ⟨tok, q, rfl, hq, _, ht⟩ | ⟨_, rfl⟩
    · exact .inr (.inr ⟨.inl hhead, rfl⟩)
    · rcases exec_mode he with hbusy | ⟨hi, hrun⟩ | ⟨rfl, hidle⟩
      · exact .inl hbusy
      · exact .inr (.inl ⟨⟨c, i, rest, hact, hd, hi⟩, hrun⟩)
      · rw [(decode_clr_iff c).1 hd] at hhead
        exact .inr (.inr ⟨.inr (.inl hhead), hidle⟩)
    · exact .inl (by rw [rejectReserved_stat])
    · exact .inl (by rw [writeReg_stat])
    · exact .inl rfl
    · exact .inl rfl
    · exact .inl rfl
    · exact .inl rfl
    · refine (acceptToken_mode ht).imp_right fun ⟨heos, hidle⟩ => .inr ⟨.inr (.inr ⟨?_, .inr hhead⟩), hidle⟩
      rw [hq, heos, List.head?_cons]
    · exact .inl (by rw [outputTransfer_regs])

/-- Settles O52: of the steps that change the mode one kind leads to busy, the other to idle. -/
theorem modeChangesOnlyAsSpecified : Obligations.ModeChangesOnlyAsSpecified := by
  intro s t h
  rcases step_mode h with hsame | ⟨hstart, hrun⟩ | ⟨hstop, hidle⟩
  · exact ⟨fun hs ht => absurd (hsame.trans hs) ht, fun hs ht => absurd (hsame.symm.trans ht) hs⟩
  · exact ⟨fun _ _ => hstart, fun _ ht => absurd ht hrun⟩
  · exact ⟨fun _ ht => absurd hidle ht, fun _ _ => hstop⟩

/-! ### The order of the output (R226) -/

/-- From `s` to `t` at most `n` tokens are emitted, behind all those taken and queued before. -/
def Emits (n : Nat) (s t : State) : Prop :=
  ∃ e : List OutToken, e.length ≤ n ∧ t.host.taken ++ t.oq = s.host.taken ++ s.oq ++ e

theorem Emits.nothing {n : Nat} {s t : State} (htaken : t.host.taken = s.host.taken) (hoq : t.oq = s.oq) :
    Emits n s t :=
  ⟨[], Nat.zero_le n, by rw [htaken, hoq, List.append_nil]⟩

/-- What is appended to the queue is emitted, while nothing is taken. -/
theorem Emits.queued {n : Nat} {s t : State} {e : List OutToken} (hlen : e.length ≤ n)
    (htaken : t.host.taken = s.host.taken) (hoq : t.oq = s.oq ++ e) : Emits n s t :=
  ⟨e, hlen, by rw [htaken, hoq, List.append_assoc]⟩

/-- A command write emits the start marker and header of `ATT`, or the abort mark of `CLR`, or nothing. -/
theorem exec_emits {i : Instr} {s t : State} (h : exec i s = .next t) : Emits 8 s t := by
  rcases exec_cases h with ⟨_, _, rfl⟩ | ⟨_, rfl⟩ | ⟨_, _, _, hf⟩ | ⟨_, _, hs⟩
  · exact .nothing rfl rfl
  · refine .queued ?_ rfl rfl
    split <;> simp
  · exact .nothing (by rw [hf.accepted.host]) hf.oq
  · refine .queued ?_ (by rw [hs.accepted.host]) hs.oq
    split <;> simp [headerBytes]

theorem acceptToken_emits {tok : InToken} {s t : State} (h : acceptToken tok s = .next t) :
    Emits (max 8 s.params.msgMin) s t := by
  cases tok with
  | B b =>
    obtain ⟨e, hlen, hoq⟩ := (acceptToken_byte h).oq
    exact .queued hlen (by rw [(acceptToken_byte h).host]) hoq
  | EOS =>
    obtain ⟨e, hlen, hoq⟩ := (acceptToken_eos h).oq
    exact .queued (hlen.trans (le_max_left _ _)) (by rw [(acceptToken_eos h).host]) hoq

/-- `Out` moves the oldest queued token behind those taken. -/
theorem outputTransfer_emits (n : Nat) (s : State) : Emits n s (outputTransfer s) := by
  rcases outputTransfer_cases s with ⟨_, he⟩ | ⟨tok, q, hq, he⟩ <;> rw [he]
  · exact .nothing rfl rfl
  · exact ⟨[], Nat.zero_le n, by simp [hq]⟩

/-- Settles O53: commands and tokens only append to the queue, `Out` moves its head, and the rest touch neither. -/
theorem outputIsEmissionOrder : Obligations.OutputIsEmissionOrder := by
  intro s t h hreset
  show Emits (max 8 s.params.msgMin) s t
  rcases step_cases h with ⟨_, rfl⟩ | ⟨_, _, _, _, _, ht⟩ | ⟨act, rest, s0, hact, rfl, hc⟩
  · exact .nothing rfl rfl
  · exact (acceptToken_emits ht :)
  · rcases hc with ⟨rfl, _⟩ | ⟨_, _, _, _, he⟩ | ⟨_, _, _, rfl⟩ | ⟨r, v, _, _, rfl⟩ | ⟨_, _, _, _, rfl⟩ |
      ⟨_, _, rfl⟩ | ⟨_, _, rfl⟩ | ⟨_, rfl⟩ | ⟨_, _, _, _, _, ht⟩ | ⟨_, rfl⟩
    · exact absurd (by rw [hact, List.head?_cons]) hreset
    · obtain ⟨e, hlen, horder⟩ := exec_emits he
      exact ⟨e, hlen.trans (le_max_left _ _), horder⟩
    · exact .nothing (by rw [rejectReserved_host]) (by rw [rejectReserved_oq])
    · rw [writeReg_frame]
      exact .nothing rfl rfl
    · exact .nothing rfl rfl
    · exact .nothing rfl rfl
    · exact .nothing rfl rfl
    · exact .nothing rfl rfl
    · exact (acceptToken_emits ht :)
    · exact outputTransfer_emits _ { s with host.acts := rest }

end Sys2Proof.Machine
end

section
/-! PROOFS. The transfer counters (60_exceptions.md R260, R261): their invariant is kept by every step, so that with the
control invariant every reachable state is safe. -/

namespace Sys2Proof.Machine

/-! ### The two tables of equations, line by line -/

/-- The line of a command in the running form of R261, the equations of `State.RunningCounts`. -/
def RunningLine (i : Instr) (s : State) : Prop :=
  match i with
  | .exp => s.regs.ocnt = 2 * s.regs.icnt
  | .col => s.regs.icnt = 2 * s.regs.ocnt + BitVec.ofNat 16 s.latch.holdValid.toNat
  | .phd => s.regs.ocnt = 0 ∧
      (s.latch.hpos < s.params.msgMin → s.regs.icnt = BitVec.ofNat 16 s.latch.hpos)
  | .str =>
      (s.latch.hpos < s.params.msgMin → s.regs.ocnt = 0 ∧ s.regs.icnt = BitVec.ofNat 16 s.latch.hpos) ∧
      (s.latch.hpos = s.params.msgMin →
        s.regs.ocnt = if s.latch.pass then s.regs.icnt else s.regs.icnt - 8)
  | .att => s.regs.ocnt = s.regs.icnt + 8
  | .ckc | .ckv => s.regs.ocnt = 0 ∧ s.latch.holdValid = isOdd s.regs.icnt
  | .ckt => s.regs.ocnt = 0 ∧
      (s.latch.dcnt.val < 2 → s.regs.icnt = BitVec.ofNat 16 s.latch.dcnt.val ∧ s.latch.holdValid = false) ∧
      (s.latch.dcnt.val = 2 → s.latch.holdValid = isOdd s.regs.icnt)
  | .cka => s.regs.ocnt = s.regs.icnt ∧ s.latch.holdValid = isOdd s.regs.icnt
  | _ => True

theorem runningCounts_iff {s : State} : s.RunningCounts ↔ ∀ i, s.Runs i → RunningLine i s := by
  constructor
  · intro h i hr
    cases i with
    | exp => exact h.exp hr
    | col => exact h.col hr
    | phd => exact h.phd hr
    | str => exact h.str hr
    | att => exact h.att hr
    | ckc => exact h.ckc hr
    | ckv => exact h.ckv hr
    | ckt => exact h.ckt hr
    | cka => exact h.cka hr
    | nop | clr | bit | wbit | nyb | bfn | tos | frs | spl => trivial
  · exact fun h => ⟨h .exp, h .col, h .phd, h .str, h .att, h .ckc, h .ckv, h .ckt, h .cka⟩

/-- The line of a command in R261, the equations of `State.FinalCounts`. -/
def FinalLine (i : Instr) (s : State) : Prop :=
  match i with
  | .exp => s.regs.ocnt = 2 * s.regs.icnt
  | .col => s.regs.icnt = 2 * s.regs.ocnt + (if s.regs.stat.fail then 1 else 0)
  | .str =>
      (s.regs.stat.fail = true → s.regs.ocnt = 0) ∧
      (s.regs.stat.fail = false → s.regs.ocnt = if s.latch.pass then s.regs.icnt else s.regs.icnt - 8)
  | .att => s.regs.ocnt = s.regs.icnt + 9
  | .phd | .ckc | .ckv | .ckt => s.regs.ocnt = 0
  | .cka => s.regs.ocnt = s.regs.icnt + (if s.regs.stat.fail then 0 else 2)
  | _ => True

theorem finalCounts_iff {s : State} : s.FinalCounts ↔ ∀ i, s.Ended i → FinalLine i s := by
  constructor
  · intro h i hr
    cases i with
    | exp => exact h.exp hr
    | col => exact h.col hr
    | phd => exact h.phd hr
    | str => exact h.str hr
    | att => exact h.att hr
    | ckc => exact h.ckc hr
    | ckv => exact h.ckv hr
    | ckt => exact h.ckt hr
    | cka => exact h.cka hr
    | nop | clr | bit | wbit | nyb | bfn | tos | frs | spl => trivial
  · exact fun h => ⟨h .exp, h .col, h .phd, h .str, h .att, h .ckc, h .ckv, h .ckt, h .cka⟩

/-- Both tables. -/
def State.Counts (s : State) : Prop := s.RunningCounts ∧ s.FinalCounts

/-- While idle only the equations at `DONE` say anything. -/
theorem State.Counts.of_idle {s : State} (h : s.Idle) (hfinal : s.FinalCounts) : s.Counts :=
  ⟨h.runningCounts, hfinal⟩

/-- The tables have lines for stream commands only. -/
theorem lines_of_not_stream {i : Instr} (hi : i.isStream = false) (s : State) : RunningLine i s ∧ FinalLine i s := by
  cases i with
  | nop | clr | bit | wbit | nyb | bfn | tos | frs => exact ⟨trivial, trivial⟩
  | exp | col | ckc | ckv | ckt | cka | spl | phd | str | att => cases hi

/-- A running block has one line only to satisfy. -/
theorem State.Counts.of_runs {s : State} {i : Instr} (hi : i.isStream = true) (hcmd : s.regs.cmd = encode i)
    (hdone : s.regs.stat.done = false) (hline : RunningLine i s) : s.Counts := by
  refine ⟨runningCounts_iff.2 fun j hr => ?_, finalCounts_of_not_done hdone⟩
  cases hj : j.isStream with
  | true => exact encode_stream_injective hi hj (hcmd.symm.trans hr.2) ▸ hline
  | false => exact (lines_of_not_stream hj s).1

/-- A block that has ended a stream command has one line only to satisfy. -/
theorem State.Counts.of_ended {s : State} {i : Instr} (hi : i.isStream = true) (hcmd : s.regs.cmd = encode i)
    (hidle : s.Idle) (hline : FinalLine i s) : s.Counts := by
  refine .of_idle hidle (finalCounts_iff.2 fun j he => ?_)
  cases hj : j.isStream with
  | true => exact encode_stream_injective hi hj (hcmd.symm.trans he.2.2) ▸ hline
  | false => exact (lines_of_not_stream hj s).2

/-- Whatever leaves the command, the flags, the transfer counters and the latches alone keeps the equations. -/
theorem State.Counts.keep {s t : State} (h : s.Counts) (hparams : t.params = s.params)
    (hcmd : t.regs.cmd = s.regs.cmd) (hstat : t.regs.stat = s.regs.stat) (hicnt : t.regs.icnt = s.regs.icnt)
    (hocnt : t.regs.ocnt = s.regs.ocnt) (hlatch : t.latch = s.latch) : t.Counts := by
  obtain ⟨hrunning, hfinal⟩ := h
  refine ⟨runningCounts_iff.2 fun i hr => ?_, finalCounts_iff.2 fun i he => ?_⟩
  · have hline := runningCounts_iff.1 hrunning i (by simpa only [State.Runs, hcmd, hstat] using hr)
    simpa only [RunningLine, hparams, hicnt, hocnt, hlatch] using hline
  · have hline := finalCounts_iff.1 hfinal i (by simpa only [State.Ended, hcmd, hstat] using he)
    simpa only [FinalLine, hstat, hicnt, hocnt, hlatch] using hline

/-! ### The port -/

theorem State.Counts.rejectReserved {s : State} (h : s.Counts) : (Machine.rejectReserved s).Counts := by
  unfold Machine.rejectReserved
  split <;> exact h.keep rfl rfl rfl rfl rfl rfl

/-- A host write to an `RW` register touches no counter. -/
theorem storeReg_counters (v : Byte) (r : Regs) (reg : Reg) :
    (storeReg v r reg).icnt = r.icnt ∧ (storeReg v r reg).ocnt = r.ocnt := by
  cases reg <;> exact ⟨rfl, rfl⟩

theorem State.Counts.writeReg {s : State} (h : s.Counts) (r : Reg) (v : Byte) : (Machine.writeReg r v s).Counts := by
  obtain ⟨hcmd, _, _⟩ := storeReg_control v s.regs r
  obtain ⟨hicnt, hocnt⟩ := storeReg_counters v s.regs r
  unfold Machine.writeReg
  split
  · exact h.keep rfl rfl rfl rfl rfl rfl
  · split
    · exact h.keep rfl rfl rfl rfl rfl rfl
    · exact h.keep rfl hcmd (storeReg_stat v s.regs r) hicnt hocnt rfl
  · exact h
  · exact h

theorem State.Counts.outputTransfer {s : State} (h : s.Counts) : (Machine.outputTransfer s).Counts := by
  rcases outputTransfer_cases s with ⟨_, he⟩ | ⟨_, _, _, he⟩ <;> rw [he]
  · exact h
  · exact h.keep rfl rfl rfl rfl rfl rfl

theorem State.Counts.of_reset {s : State} {P : Params} (hregs : s.regs = Regs.reset P) : s.Counts :=
  .of_idle (by rw [State.Idle, hregs]; rfl) (finalCounts_of_not_done (by rw [hregs]; rfl))

/-! ### Commands -/

/-- A started stream command has counted nothing but the header of `ATT` (44_control_and_system.md R219). -/
theorem Started.runningLine {i : Instr} {s t : State} (h : Started i s t) (hmin : t.params.msgMin ≠ 0) :
    RunningLine i t := by
  have hicnt := h.icnt
  have hocnt := h.ocnt
  cases i <;> simp [RunningLine, hicnt, hocnt, h.holdValid, h.hpos, h.dcnt, isOdd, hmin.symm]

/-- An immediate command leaves the byte of no stream command in `CMD`. -/
theorem Finished.counts {i : Instr} {s t : State} (h : Finished i s t) (hidle : s.Idle) (hi : i.isStream = false)
    (hwf : i.wf = true) : t.Counts := by
  refine .of_idle (h.busy.trans hidle) (finalCounts_iff.2 fun j he => ?_)
  cases hj : j.isStream with
  | true =>
    have hij : decode (encode i) = decode (encode j) := congrArg decode (h.accepted.cmd.symm.trans he.2.2)
    rw [decode_encode hwf, decode_encode_stream hj, Decoded.command.injEq] at hij
    exact absurd (hij ▸ hj) (Bool.eq_false_iff.1 hi)
  | false => exact (lines_of_not_stream hj t).2

/-- A command write: rejected, `CLR`, a finished immediate command, or a started stream command. -/
theorem State.Counts.exec {s t : State} (h : s.Counts) {i : Instr} (he : exec i s = .next t) (hfits : s.params.Fits)
    (hwf : i.wf = true) : t.Counts := by
  rcases exec_cases he with ⟨_, _, rfl⟩ | ⟨_, rfl⟩ | ⟨hi, _, hidle, hf⟩ | ⟨hi, _, hs⟩
  · exact h.keep rfl rfl rfl rfl rfl rfl
  · exact .of_reset rfl
  · exact hf.counts hidle hi hwf
  · have h8 := eight_le_msgMin hfits
    exact .of_runs hi hs.accepted.cmd hs.done (hs.runningLine (by rw [hs.accepted.params]; omega))

/-! ### Data bytes -/

/-- `s.hold_valid` toggles with the parity of `ICNT` (43_checksum.md R203). -/
@[simp] theorem feed_holdValid (b : Byte) (s : State) : (feed b s).latch.holdValid = !s.latch.holdValid := by
  unfold feed
  split <;> rename_i h <;> simp [h]

@[simp] theorem isOdd_add_one (w : Word) : isOdd (w + 1#16) = !isOdd w := by
  simp only [isOdd, BitVec.getLsbD, BitVec.toNat_add, Nat.testBit_zero]
  rcases Nat.mod_two_eq_zero_or_one w.toNat with h | h <;> simp [h] <;> omega

@[simp] theorem feed_dcnt (b : Byte) (s : State) : (feed b s).latch.dcnt = s.latch.dcnt := by
  unfold feed
  split <;> rfl

/-- An outcome has one next state. -/
theorem eq_of_next {x : Host.Outcome State Fault Refusal} {u t : State} (hu : x = .next u) (ht : x = .next t) :
    u = t :=
  Host.Outcome.next.inj (hu.symm.trans ht)

/-- Two tokens for each byte of `EXP` (41_two_nybble_transcoder.md R144). -/
theorem runningLine_tokenExp {s : State} (h : RunningLine .exp s) (b : Byte) :
    RunningLine .exp (tokenExp (.B b) s) := by
  simp only [RunningLine, tokenExp, emitByte_regs_ocnt, emitByte_regs_icnt, countInput_regs_ocnt,
    countInput_regs_icnt] at h ⊢
  bv_omega

/-- One byte of `COL` is held, or completes a pair (41_two_nybble_transcoder.md R145). -/
theorem runningLine_tokenCol {s : State} (h : RunningLine .col s) (b : Byte) :
    RunningLine .col (tokenCol (.B b) s) := by
  simp only [RunningLine] at h
  cases hv : s.latch.holdValid with
  | false =>
    rw [hv] at h
    simp [RunningLine, tokenCol, hv, h]
  | true =>
    rw [hv, Bool.toNat_true] at h
    simp only [RunningLine, tokenCol, countInput_latch, hv, if_true, emitByte_regs_icnt, emitByte_regs_ocnt,
      emitByte_latch, countInput_regs_icnt, countInput_regs_ocnt, Bool.toNat_false]
    bv_omega

/-- One byte of `CKT`: two fill the delay line, later ones each push a byte into the sum (43_checksum.md R199). -/
theorem runningLine_tokenCkt {s : State} (h : RunningLine .ckt s) (b : Byte) :
    RunningLine .ckt (tokenCkt (.B b) s) := by
  obtain ⟨hocnt, hfill, hfull⟩ := h
  obtain hd | hd | hd := (by decide : ∀ d : Fin 3, d = 0 ∨ d = 1 ∨ d = 2) s.latch.dcnt
  · obtain ⟨hicnt, hhold⟩ := hfill (by rw [hd]; decide)
    rw [tokenCkt_byte_first hd]
    simp [RunningLine, hocnt, hicnt, hhold, hd]
  · obtain ⟨hicnt, hhold⟩ := hfill (by rw [hd]; decide)
    rw [tokenCkt_byte_second hd]
    simp [RunningLine, hocnt, hicnt, hhold, hd, isOdd]
  · have hhold := hfull (by rw [hd]; rfl)
    simp [RunningLine, tokenCkt, delayByte, hocnt, hhold, hd]

/-- One byte of `PHD`: `ICNT` follows `s.hpos` until the header is complete (42_message_framer.md R169). -/
theorem runningLine_tokenPhd {s : State} (h : RunningLine .phd s) (b : Byte) :
    RunningLine .phd (tokenPhd (.B b) s) := by
  obtain ⟨hocnt, hfill⟩ := h
  have hcases := headerEngine_cases b (countInput s)
  simp only [countInput_latch, countInput_params] at hcases
  rcases hcases with ⟨hlt, he⟩ | ⟨heq, he⟩ | ⟨hfull, he⟩ <;> simp only [RunningLine, tokenPhd, he]
  · have hicnt := hfill (by omega)
    simp [hocnt, hicnt, BitVec.ofNat_add]
  · simp [hocnt, heq]
  · simp [hocnt, hfull.not_gt]

/-- What the route decision emits, by the route (42_message_framer.md R172). -/
theorem routeMessage_ocnt (s : State) : (routeMessage s).regs.ocnt = s.regs.ocnt + BitVec.ofNat 16
    (if carriesPatch s.params (headerOf s.latch.hb) then s.params.msgMin - s.params.headerLen
      else s.params.msgMin) := by
  simp only [routeMessage, emitBytes_eq]
  cases carriesPatch s.params (headerOf s.latch.hb) <;> simp

/-- `STR` at the commit: with the header of eight bytes the tokens emitted are the bytes counted, or eight fewer. -/
theorem routeMessage_line {s : State} (hfits : s.params.Fits) (hpos : s.latch.hpos = s.params.msgMin)
    (hocnt : s.regs.ocnt = 0) (hicnt : s.regs.icnt = BitVec.ofNat 16 s.params.msgMin) :
    RunningLine .str (routeMessage s) := by
  have hlen : s.params.headerLen = 8 := by rw [Params.headerLen, hfits.1]
  obtain ⟨n, hn⟩ := Nat.exists_eq_add_of_le' (eight_le_msgMin hfits)
  have hshort : BitVec.ofNat 16 (s.params.msgMin - 8) = BitVec.ofNat 16 s.params.msgMin - 8#16 := by
    rw [hn, Nat.add_sub_cancel, BitVec.ofNat_add, BitVec.add_sub_cancel]
  have hcount := routeMessage_ocnt s
  rw [hocnt, hlen] at hcount
  rw [routeMessage_eq]
  refine ⟨fun hlt => absurd hpos hlt.ne, fun _ => ?_⟩
  simp only [hcount, hicnt]
  cases carriesPatch s.params (headerOf s.latch.hb) <;> simp [hshort]

/-- A byte of payload is counted and emitted on either route. -/
theorem routedCount_succ (pass : Bool) (n : Word) :
    (if pass then n else n - 8) + 1 = if pass then n + 1 else n + 1 - 8 := by
  cases pass with
  | false => exact sub_add_eq_add_sub n 8 1
  | true => rfl

/-- One byte of `STR`: kept for the header, the last of the header, or payload (42_message_framer.md R172). -/
theorem runningLine_tokenStr {s : State} (h : RunningLine .str s) (hfits : s.params.Fits) (b : Byte) :
    RunningLine .str (tokenStr (.B b) s) := by
  obtain ⟨hbefore, hpast⟩ := h
  have hcases := headerEngine_cases b (countInput s)
  simp only [countInput_latch, countInput_params] at hcases
  rcases hcases with ⟨hlt, he⟩ | ⟨heq, he⟩ | ⟨hfull, _⟩
  · obtain ⟨hocnt, hicnt⟩ := hbefore (by omega)
    rw [tokenStr_byte_before (by omega), he]
    simp [RunningLine, hlt.ne, hocnt, hicnt, BitVec.ofNat_add]
  · obtain ⟨hocnt, hicnt⟩ := hbefore (by omega)
    rw [tokenStr_byte_before (by omega), he, if_pos (by exact heq)]
    refine routeMessage_line hfits heq hocnt ?_
    simp [commitHeader, hicnt, ← heq, BitVec.ofNat_add]
  · rw [tokenStr_byte_past hfull]
    refine ⟨fun hlt => absurd hlt hfull.not_gt, fun hpos => ?_⟩
    exact (congrArg (· + 1) (hpast hpos)).trans (routedCount_succ _ _)

/-- A data byte keeps the running command's line. -/
theorem RunningLine.acceptByte {i : Instr} (hi : i.isStream = true) {s t : State} {b : Byte}
    (h : RunningLine i s) (hfits : s.params.Fits) (hcmd : s.regs.cmd = encode i)
    (ht : acceptToken (.B b) s = .next t) : RunningLine i t := by
  cases i with
  | nop | clr | bit | wbit | nyb | bfn | tos | frs => cases hi
  | spl => trivial
  | exp => exact eq_of_next (acceptToken_exp hcmd _) ht ▸ runningLine_tokenExp h b
  | col => exact eq_of_next (acceptToken_col hcmd _) ht ▸ runningLine_tokenCol h b
  | ckc =>
    obtain ⟨hocnt, hhold⟩ := h
    obtain rfl := eq_of_next (acceptToken_ckc hcmd _) ht
    simp [RunningLine, tokenCkc, hocnt, hhold]
  | ckv =>
    obtain ⟨hocnt, hhold⟩ := h
    obtain rfl := eq_of_next (acceptToken_ckv hcmd _) ht
    simp [RunningLine, tokenCkv, hocnt, hhold]
  | ckt => exact eq_of_next (acceptToken_ckt hcmd _) ht ▸ runningLine_tokenCkt h b
  | cka =>
    obtain ⟨hocnt, hhold⟩ := h
    obtain rfl := eq_of_next (acceptToken_cka hcmd _) ht
    simp [RunningLine, tokenCka, hocnt, hhold]
  | phd => exact eq_of_next (acceptToken_phd hcmd _) ht ▸ runningLine_tokenPhd h b
  | str => exact eq_of_next (acceptToken_str hcmd _) ht ▸ runningLine_tokenStr h hfits b
  | att =>
    obtain rfl := eq_of_next (acceptToken_att hcmd _) ht
    simp only [RunningLine] at h
    simp only [RunningLine, tokenAtt, emitByte_regs_ocnt, emitByte_regs_icnt, countInput_regs_ocnt,
      countInput_regs_icnt, h]
    exact add_right_comm _ _ _

/-! ### The end mark -/

@[simp] theorem raiseFatal_regs_icnt (e : Event) (s : State) : (raiseFatal e s).regs.icnt = s.regs.icnt := by
  rw [raiseFatal_eq]

@[simp] theorem raiseFatal_regs_ocnt (e : Event) (s : State) : (raiseFatal e s).regs.ocnt = s.regs.ocnt := by
  rw [raiseFatal_eq]

@[simp] theorem raiseFatal_regs_stat_fail (e : Event) (s : State) : (raiseFatal e s).regs.stat.fail = true := by
  rw [raiseFatal_eq]

@[simp] theorem settleMatch_regs_ocnt (equal : Bool) (s : State) :
    (settleMatch equal s).regs.ocnt = s.regs.ocnt := by
  cases equal <;> rfl

/-- The end of `COL`: LENGTH exactly when a byte is held (41_two_nybble_transcoder.md R145). -/
theorem finalLine_tokenCol {s : State} (h : RunningLine .col s) (hfail : s.regs.stat.fail = false) :
    FinalLine .col (tokenCol .EOS s) := by
  simp only [RunningLine] at h
  cases hv : s.latch.holdValid with
  | false =>
    rw [tokenCol_eos_empty hv]
    simpa [FinalLine, hfail, hv] using h
  | true =>
    rw [tokenCol_eos_held hv]
    simpa [FinalLine, hv] using h

/-- The end of `STR`: TRUNC before the header is complete, else what was counted since (42_message_framer.md R172). -/
theorem finalLine_tokenStr {s : State} (h : RunningLine .str s) (hpos : s.latch.hpos ≤ s.params.msgMin)
    (hfail : s.regs.stat.fail = false) : FinalLine .str (tokenStr .EOS s) := by
  obtain ⟨hbefore, hpast⟩ := h
  rcases hpos.lt_or_eq with hlt | heq
  · rw [tokenStr_eos_short hlt]
    simp [FinalLine, (hbefore hlt).1]
  · rw [tokenStr_eos_full heq.ge]
    exact ⟨fun hf => absurd (hfail.symm.trans hf) Bool.false_ne_true, fun _ => hpast heq⟩

/-- The end of `CKA`: ODDSPAN, or the checksum's two bytes (43_checksum.md R200). -/
theorem finalLine_tokenCka {s : State} (h : RunningLine .cka s) (hfail : s.regs.stat.fail = false) :
    FinalLine .cka (tokenCka .EOS s) := by
  obtain ⟨hocnt, -⟩ := h
  cases hv : s.latch.holdValid with
  | false =>
    rw [tokenCka_eos_even hv]
    simp [FinalLine, emitBytes_eq, hfail, hocnt]
  | true =>
    rw [tokenCka_eos_odd hv]
    simp [FinalLine, hocnt]

/-- An end mark turns the running command's line into its line at `DONE`. -/
theorem RunningLine.acceptEos {i : Instr} (hi : i.isStream = true) {s t : State} (h : RunningLine i s)
    (hpos : s.latch.hpos ≤ s.params.msgMin) (hfail : s.regs.stat.fail = false) (hcmd : s.regs.cmd = encode i)
    (ht : acceptToken .EOS s = .next t) : FinalLine i t := by
  cases i with
  | nop | clr | bit | wbit | nyb | bfn | tos | frs => cases hi
  | spl => trivial
  | exp => exact eq_of_next (acceptToken_exp hcmd _) ht ▸ h
  | col => exact eq_of_next (acceptToken_col hcmd _) ht ▸ finalLine_tokenCol h hfail
  | ckc =>
    obtain rfl := eq_of_next (acceptToken_ckc hcmd _) ht
    simp only [FinalLine, tokenCkc]
    split <;> simp [h.1]
  | ckv =>
    obtain rfl := eq_of_next (acceptToken_ckv hcmd _) ht
    simp only [FinalLine, tokenCkv]
    split <;> simp [h.1]
  | ckt =>
    obtain rfl := eq_of_next (acceptToken_ckt hcmd _) ht
    simp only [FinalLine, tokenCkt]
    split_ifs <;> simp [h.1]
  | cka => exact eq_of_next (acceptToken_cka hcmd _) ht ▸ finalLine_tokenCka h hfail
  | phd =>
    obtain rfl := eq_of_next (acceptToken_phd hcmd _) ht
    simp only [FinalLine, tokenPhd]
    split <;> simp [h.1]
  | str => exact eq_of_next (acceptToken_str hcmd _) ht ▸ finalLine_tokenStr h hpos hfail
  | att =>
    obtain rfl := eq_of_next (acceptToken_att hcmd _) ht
    simp only [RunningLine] at h
    simp only [FinalLine, tokenAtt, endCommand_regs_ocnt, endCommand_regs_icnt, closeBuffer_regs, emitByte_regs_ocnt,
      emitByte_regs_icnt, h]
    exact add_assoc _ _ _

/-! ### One step -/

/-- An accepted token keeps the equations of a running block. -/
theorem State.CounterInv.acceptToken_counts {s t : State} {tok : InToken} (h : s.CounterInv)
    (hb : s.regs.stat.busy = true) (ht : acceptToken tok s = .next t) : t.Counts := by
  obtain ⟨i, hi, hcmd⟩ := h.control.running hb
  have hline := runningCounts_iff.1 h.running i ⟨hb, hcmd⟩
  obtain ⟨hdone, hfail⟩ := h.control.pending hb
  cases tok with
  | B b =>
    have k := acceptToken_byte ht
    exact .of_runs hi (k.cmd.trans hcmd) (k.done.trans hdone) (hline.acceptByte hi h.header.fits hcmd ht)
  | EOS =>
    have k := acceptToken_eos ht
    exact .of_ended hi (k.cmd.trans hcmd) k.busy (hline.acceptEos hi h.header.saturating hfail hcmd ht)

/-- The outside world is no part of the invariant. -/
theorem State.CounterInv.withHost {s : State} (h : s.CounterInv) (o : HostSide) :
    ({ s with host := o } : State).CounterInv := by
  obtain ⟨hcontrol, hheader, hrunning, hfinal⟩ := h
  have hcounts : ({ s with host := o } : State).Counts := State.Counts.keep ⟨hrunning, hfinal⟩ rfl rfl rfl rfl rfl rfl
  exact ⟨hcontrol.congr rfl rfl, hheader.keep rfl rfl rfl rfl rfl, hcounts.1, hcounts.2⟩

theorem State.CounterInv.counts {s : State} (h : s.CounterInv) : s.Counts := ⟨h.running, h.final⟩

/-- Every step keeps the equations, by the cases of `step`. -/
theorem State.CounterInv.step_counts {s t : State} (h : s.CounterInv) (hst : Machine.step s = .next t) :
    t.Counts := by
  rcases step_cases hst with ⟨_, rfl⟩ | ⟨_, _, _, _, hb, ht⟩ | ⟨_, _, _, _, rfl, hc⟩
  · exact h.counts
  · exact (h.withHost _).acceptToken_counts (by exact hb) ht
  · rcases hc with ⟨_, rfl⟩ | ⟨_, _, _, hd, he⟩ | ⟨_, _, _, rfl⟩ | ⟨r, v, _, _, rfl⟩ | ⟨_, _, _, _, rfl⟩ |
      ⟨_, _, rfl⟩ | ⟨_, _, rfl⟩ | ⟨_, rfl⟩ | ⟨_, _, _, _, hb, ht⟩ | ⟨_, rfl⟩
    · exact .of_reset rfl
    · exact (h.withHost _).counts.exec he h.header.fits (encode_decode hd).1
    · exact (h.withHost _).counts.rejectReserved
    · exact (h.withHost _).counts.writeReg r v
    · exact (h.withHost _).counts
    · exact (h.withHost _).counts
    · exact (h.withHost _).counts
    · exact (h.withHost _).counts
    · exact (h.withHost _).acceptToken_counts (by exact hb) ht
    · exact (h.withHost _).counts.outputTransfer

/-- Every step keeps the counters' invariant (60_exceptions.md R261). -/
theorem State.CounterInv.step {s t : State} (h : s.CounterInv) (hst : Machine.step s = .next t) : t.CounterInv where
  control := h.control.step hst
  header := h.header.step hst
  running := (h.step_counts hst).1
  final := (h.step_counts hst).2

/-! ### Reachable states -/

/-- The counters' invariant, and the invariants it rests on, hold in every reachable state. -/
theorem State.Reachable.counterInv {s : State} (h : s.Reachable) : s.CounterInv := by
  induction h with
  | start P o hfits => exact (resetWith_counterInv hfits).withHost o
  | next s t _ hst ih => exact ih.step hst

/-- Settles O60: the counters' invariant holds at reset and every step keeps it. -/
theorem reachableStatesAreSafe : Obligations.ReachableStatesAreSafe := by
  intro s h
  have hinv := h.counterInv
  exact ⟨hinv.control.closed, hinv.final, hinv.control.step_next⟩

end Sys2Proof.Machine
end

section
/-! PROOFS. The exceptions (60_exceptions.md): what is rejected while busy (R250), the entry of a fatal fault (R245), the
report of a checksum mismatch (R246), the data token that raises nothing (R238), and the counters through all of them
(R260, R261). -/

namespace Sys2Proof.Machine

/-! ### The transfer counters (R260, R261) -/

/-- Settles O58: the step lemma of the counters' invariant. -/
theorem stepKeepsCounterInvariant : Obligations.StepKeepsCounterInvariant := fun _ _ h hst => h.step hst

/-! ### Fatal faults (R245) -/

/-- Settles O48: each condition of R235 is that under which the command's end mark is a fatal fault, and every fatal
fault is entered by the one `raiseFatal`. -/
theorem fatalFaultEntry : Obligations.FatalFaultEntry := by
  rintro s i errBits code ⟨-, hcmd⟩ (⟨rfl, hv, rfl, rfl⟩ | ⟨rfl | rfl, hpos, rfl, rfl⟩ | ⟨rfl, hd, rfl, rfl⟩ |
    ⟨rfl, hd, hv, rfl, rfl⟩ | ⟨rfl | rfl | rfl, hv, rfl, rfl⟩)
  · rw [acceptToken_col hcmd, tokenCol_eos_held hv]
    exact congrArg _ (raiseFatal_eq .length s)
  · rw [acceptToken_phd hcmd, tokenPhd_eos_short hpos]
    exact congrArg _ (raiseFatal_eq .trunc s)
  · rw [acceptToken_str hcmd, tokenStr_eos_short hpos]
    exact congrArg _ (raiseFatal_eq .trunc s)
  · rw [acceptToken_ckt hcmd, tokenCkt_eos_short hd]
    exact congrArg _ (raiseFatal_eq .trunc s)
  · rw [acceptToken_ckt hcmd, tokenCkt_eos_odd (Fin.ext hd) hv]
    exact congrArg _ (raiseFatal_eq .oddSpan s)
  · rw [acceptToken_ckc hcmd, tokenCkc_eos_odd hv]
    exact congrArg _ (raiseFatal_eq .oddSpan s)
  · rw [acceptToken_ckv hcmd, tokenCkv_eos_odd hv]
    exact congrArg _ (raiseFatal_eq .oddSpan s)
  · rw [acceptToken_cka hcmd, tokenCka_eos_odd hv]
    exact congrArg _ (raiseFatal_eq .oddSpan s)

/-! ### Data tokens (R238) -/

/-- Settles O50: a running stream command has a token rule, and what it does with a data byte raises nothing. -/
theorem dataTokenRaisesNothing : Obligations.DataTokenRaisesNothing := by
  rintro s i b hi ⟨hbusy, hcmd⟩
  obtain ⟨t, ht⟩ := acceptToken_next hi hcmd (.B b)
  have k := acceptToken_byte ht
  exact ⟨t, ht, k.err, k.cause, k.busy.trans hbusy, k.done, k.fail, k.icnt, k.host⟩

/-! ### Rejections while busy (R250) -/

/-- The writable configuration registers of R250. -/
def configurationRegs : List Reg :=
  [.term, .opa, .opb, .hdrMfr, .hdrChan, .hdrFunc, .hdrGroup, .hdrMach, .hdrSs1, .hdrSs2, .explo, .exphi]

/-- The read-only registers, by their addresses (10_state.md R23). -/
def readOnlyRegs : List Reg :=
  [.stat, .cause, .res0, .res1, .prog, .ckslo, .ckshi, .icntlo, .icnthi, .ocntlo, .ocnthi, .seglo, .seghi]

theorem mem_configurationRegs_iff (r : Reg) : r ∈ configurationRegs ↔ access r = .rw := by
  cases r <;> decide

theorem mem_readOnlyRegs_iff (r : Reg) : r ∈ readOnlyRegs ↔ access r = .ro := by
  cases r <;> decide

section
variable {s : State} (h : s.regs.stat.busy = true)
include h

theorem rejectReserved_busy : rejectReserved s = rejectBusy s := if_pos h

/-- Every command byte but that of `CLR` is rejected, a reserved one too. -/
theorem writeCmd_busy {c : Byte} (hc : c ≠ 0x01) : writeCmd c s = .next (rejectBusy s) := by
  rcases writeCmd_cases c s with ⟨i, hd, he⟩ | ⟨_, he⟩
  · have hi : i ≠ .clr := by
      rintro rfl
      exact hc ((decode_clr_iff c).1 hd)
    rw [he, exec_busy h hi]
  · rw [he, rejectReserved_busy h]

/-- A configuration register rejects a write. -/
theorem writePort_rw_busy {r : Reg} (hr : access r = .rw) (v : Byte) :
    writePort (addr r) v s = .next (rejectBusy s) := by
  rw [writePort_addr (by rintro rfl; cases hr)]
  simp only [writeReg, hr, h, if_true]

end

/-- Settles O14: the addresses are those of the configuration registers, of `ERR`, and of the locations that ignore
writes. -/
theorem busyWritesRejected : Obligations.BusyWritesRejected := by
  intro s v hrun
  have hbusy : s.regs.stat.busy = true := Bool.eq_true_of_not_eq_false hrun
  refine ⟨fun hv => writeCmd_busy hbusy hv, fun a ha => ?_, rfl, fun a ha => ?_⟩
  · obtain ⟨r, hr, rfl⟩ := List.mem_map.1 (show a ∈ configurationRegs.map addr from ha)
    exact writePort_rw_busy hbusy ((mem_configurationRegs_iff r).1 hr) v
  · rcases List.mem_append.1 (show a ∈ readOnlyRegs.map addr ++ [0x1B, 0x1C, 0x1D, 0x1E, 0x1F] from ha) with
      hro | hreserved
    · obtain ⟨r, hr, rfl⟩ := List.mem_map.1 hro
      exact writePort_ro ((mem_readOnlyRegs_iff r).1 hr) v s
    · have hge : ∀ a ∈ ([0x1B, 0x1C, 0x1D, 0x1E, 0x1F] : List (BitVec 5)), 0x1B ≤ a.toNat := by decide
      exact writePort_reserved (hge a hreserved) v s

/-! ### The report of a mismatch (R246) -/

/-- A comparison that fails, and the good end after it: `MATCH` is 0, and CKSUM is reported. -/
theorem endCommand_settleMatch_of_ne {c e : Word} (h : c ≠ e) (s : State) :
    endCommand (settleMatch (c == e) s) = { s with
      regs.stat.matched := false
      regs.err := s.regs.err ||| 0x10
      regs.cause := 0x14
      regs.stat.busy := false
      regs.stat.done := true } := by
  rw [settleMatch_eq, regsCompared, if_neg h]
  rfl

/-- Settles O49: the comparison at the good end of `CKV` and `CKT`, when it fails. -/
theorem mismatchIsReported : Obligations.MismatchIsReported := by
  refine ⟨fun s ⟨_, hcmd⟩ hv hne => ?_, fun s ⟨_, hcmd⟩ hd hv hne => ?_⟩
  · rw [acceptToken_ckv hcmd, tokenCkv_eos_even hv]
    exact congrArg _ (endCommand_settleMatch_of_ne hne _)
  · rw [acceptToken_ckt hcmd, tokenCkt_eos_even hd hv]
    exact congrArg _ (endCommand_settleMatch_of_ne hne _)

end Sys2Proof.Machine
end

section
/-! PROOFS. Reset and hazards (70_reset_and_hazards.md): what the register port, the latches and the queue hold after
`Reset` (R266), and that a token offered to a busy block is accepted and a queued one stays offered (R289). -/

namespace Sys2Proof.Machine

/-! ### The state after `Reset` (R266) -/

/-- At the default parameters the port reads after `Reset`, from any state, what it reads in the reset state. -/
theorem readPort_resetBlock {s : State} (h : s.params = Config.params) (a : BitVec 5) :
    readPort (resetBlock s) a = readPort State.reset a := by
  have hparams : (resetBlock s).params = State.reset.params := h
  have hregs : (resetBlock s).regs = State.reset.regs := congrArg Regs.reset h
  simp only [readPort, hparams, hregs]

/-- Beyond `TERM` only `PROG` reads anything but 0 in the reset state. -/
theorem readPort_reset_eq_zero : ∀ a : BitVec 5, 0x05 ≤ a.toNat → a ≠ 0x10 → readPort State.reset a = 0x00 := by
  decide

/-- Settles O10: the port reads as in the reset state, and the latches are those of the default parameters. -/
theorem resetState : Obligations.ResetState := by
  intro s h
  have hlatch : (resetBlock s).latch = State.reset.latch := congrArg Latches.reset h
  refine ⟨resetBlock s, rfl, ?_⟩
  simp only [readPort_resetBlock h, hlatch]
  exact ⟨rfl, rfl, rfl, rfl, rfl, rfl, readPort_reset_eq_zero, rfl, rfl, rfl, rfl, rfl, rfl, rfl, rfl, rfl, rfl, rfl⟩

/-! ### What an action leaves of the host's side -/

theorem exec_host {i : Instr} {s t : State} (h : exec i s = .next t) : t.host = s.host := by
  rcases exec_cases h with ⟨_, _, rfl⟩ | ⟨_, rfl⟩ | ⟨_, _, _, hf⟩ | ⟨_, _, hs⟩
  · rfl
  · rfl
  · exact hf.accepted.host
  · exact hs.accepted.host

theorem acceptToken_host {tok : InToken} {s t : State} (h : acceptToken tok s = .next t) : t.host = s.host := by
  cases tok with
  | B b => exact (acceptToken_byte h).host
  | EOS => exact (acceptToken_eos h).host

theorem writePort_host {a : BitVec 5} {v : Byte} {s t : State} (h : writePort a v s = .next t) :
    t.host = s.host := by
  rcases writePort_cases a v s with ⟨_, he⟩ | ⟨r, _, _, he⟩ | ⟨_, he⟩ <;> rw [he] at h
  · rcases writeCmd_cases v s with ⟨i, _, hw⟩ | ⟨_, hw⟩ <;> rw [hw] at h
    · exact exec_host h
    · cases h
      exact rejectReserved_host s
  · cases h
    rw [writeReg_frame]
  · cases h
    rfl

/-- `In` hands nothing to the host. -/
theorem inputTransfer_taken {s t : State} (h : inputTransfer s = .next t) : t.host.taken = s.host.taken := by
  unfold inputTransfer at h
  split at h
  · cases h
    rfl
  · split at h
    · rw [acceptToken_host h]
    · cases h
      rfl

/-- Only `In` takes a token from the input port; no action touches the rest of the schedule (R70, R76). -/
theorem perform_port {act : HostAct} (hact : act ≠ .input) {s t : State} (h : perform act s = .next t) :
    t.host.acts = s.host.acts ∧ s.host.inq <+: t.host.inq := by
  cases act with
  | input => exact absurd rfl hact
  | regWrite a v =>
    rw [writePort_host h]
    exact ⟨rfl, List.prefix_rfl⟩
  | offer item =>
    cases h
    exact ⟨rfl, List.prefix_append _ _⟩
  | output =>
    cases h
    rcases outputTransfer_cases s with ⟨_, he⟩ | ⟨_, _, _, he⟩ <;> rw [he] <;> exact ⟨rfl, List.prefix_rfl⟩
  | reset | regRead a =>
    cases h
    exact ⟨rfl, List.prefix_rfl⟩

/-- Only `Out` hands tokens to the host (R70). -/
theorem perform_taken {act : HostAct} (hact : act ≠ .output) {s t : State} (h : perform act s = .next t) :
    t.host.taken = s.host.taken := by
  cases act with
  | output => exact absurd rfl hact
  | regWrite a v => rw [writePort_host h]
  | input => exact inputTransfer_taken h
  | reset | regRead a | offer item =>
    cases h
    rfl

theorem step_taken {s t : State} (hout : s.host.acts.head? ≠ some .output) (h : step s = .next t) :
    t.host.taken = s.host.taken := by
  cases hacts : s.host.acts with
  | nil =>
    rw [step_quiet hacts] at h
    exact inputTransfer_taken h
  | cons act rest =>
    rw [step_act hacts] at h
    have hact : act ≠ .output := by
      rintro rfl
      exact hout (by rw [hacts, List.head?_cons])
    exact (perform_taken hact h :)

/-! ### Offered tokens (R289) -/

/-- A busy block with nothing scheduled takes the token that waits. -/
theorem step_quiet_busy {s : State} {t : InToken} {q : List InToken} (hacts : s.host.acts = [])
    (hq : s.host.inq = t :: q) (hbusy : s.regs.stat.busy = true) :
    step s = acceptToken t { s with host.inq := q } :=
  (step_quiet hacts).trans (inputTransfer_busy hq hbusy)

/-- The next step hands the oldest waiting token to the running command. -/
def State.HandsOver (s : State) : Prop :=
  ∃ t q, s.regs.stat.busy = true ∧ s.host.inq = t :: q ∧
    step s = acceptToken t { s with host.inq := q, host.acts := s.host.acts.tail }

/-- A busy block whose next action is an `In`, or which has none, takes the token that waits. -/
theorem State.handsOver_of_busy {s : State} (hbusy : s.regs.stat.busy = true) (hin : s.host.inq ≠ [])
    (hacts : s.host.acts = [] ∨ s.host.acts.head? = some .input) : s.HandsOver := by
  obtain ⟨t, q, hq⟩ := List.exists_cons_of_ne_nil hin
  refine ⟨t, q, hbusy, hq, ?_⟩
  rcases hacts with hnil | hhead
  · rw [step_quiet_busy hnil hq hbusy, hnil, List.tail_nil, ← hnil]
  · obtain ⟨rest, hcons⟩ := List.head?_eq_some_iff.1 hhead
    rw [step_input_busy hcons hq hbusy, hcons, List.tail_cons]

/-- Each action before the first `In` leaves the token waiting, so that the schedule comes to an `In`, or runs out, or
ends the command before. -/
theorem State.ControlInv.reaches_handsOver {s : State} (h : s.ControlInv) (hbusy : s.regs.stat.busy = true)
    (hin : s.host.inq ≠ []) :
    ∃ k u, k ≤ s.host.acts.length ∧ Host.Core.run core k s = .next u ∧ (u.Idle ∨ u.HandsOver) := by
  induction hacts : s.host.acts generalizing s with
  | nil => exact ⟨0, s, le_rfl, rfl, .inr (handsOver_of_busy hbusy hin (.inl hacts))⟩
  | cons act rest ih =>
    by_cases hact : act = .input
    · have hhead : s.host.acts.head? = some .input := by rw [hacts, List.head?_cons, hact]
      exact ⟨0, s, Nat.zero_le _, rfl, .inr (handsOver_of_busy hbusy hin (.inr hhead))⟩
    · obtain ⟨t, ht⟩ := h.step_next
      obtain ⟨hrest, hport⟩ := perform_port hact ((step_act hacts).symm.trans ht)
      by_cases hidle : t.Idle
      · exact ⟨1, t, Nat.succ_pos _, (run_one s).trans ht, .inl hidle⟩
      · have hwaits : t.host.inq ≠ [] := fun hnil => hin (List.prefix_nil.1 (hnil ▸ hport))
        obtain ⟨k, u, hk, hrun, hu⟩ := ih (h.step ht) (Bool.eq_true_of_not_eq_false hidle) hwaits hrest
        exact ⟨k + 1, u, Nat.succ_le_succ hk, (run_succ ht).trans hrun, hu⟩

/-- A step other than `Out` and `Reset` only appends to the output queue. -/
theorem step_oq {s t : State} (hout : s.host.acts.head? ≠ some .output) (hreset : s.host.acts.head? ≠ some .reset)
    (h : step s = .next t) : ∃ e, t.oq = s.oq ++ e := by
  obtain ⟨e, _, he⟩ := outputIsEmissionOrder s t h hreset
  rw [step_taken hout h, List.append_assoc] at he
  exact ⟨e, List.append_cancel_left he⟩

/-- Settles O7: by induction on the schedule for the input port, and for the output port because the queue only
grows at its end. -/
theorem offeredTokenIsAccepted : Obligations.OfferedTokenIsAccepted := by
  refine ⟨fun _ _ _ hacts hq hbusy => step_quiet_busy hacts hq hbusy,
    fun _ h hbusy hin => h.reaches_handsOver hbusy hin, fun s t q hq => ⟨?_, fun u hu hout hreset => ?_⟩⟩
  · rw [offeredOutput, hq, List.head?_cons]
  · obtain ⟨e, he⟩ := step_oq hout hreset hu
    rw [offeredOutput, he, hq, List.cons_append, List.head?_cons]

end Sys2Proof.Machine
end
